-- ==== Sys2Proof/Word.lean ====
section
/-! DEFINITION. The machine word and the byte (00_scope.md R6; 20_memory.md R70). -/

namespace Sys2Proof

/-- The machine's native scalar, a 16-bit quantity (R6); registers, memory addresses and port addresses are words. -/
abbrev Word := BitVec 16

/-- One addressable unit of the memory store (R70) and of a mailbox (R45). -/
abbrev Byte := BitVec 8

end Sys2Proof
end

