-- ==== Sys2Proof/Syntax.lean ====
section
/-! DEFINITION. The instructions: one constructor for each row of spec/opcode_table.json, its arguments the row's
fields (30_encoding.md R115, R122). The fields that only select the row (the type code, SG, OP, DIR) and the reserved
fields have no argument. -/

namespace Sys2Proof

/-- The four registers an instruction field can name, in the order of their identifiers 0 to 3 (10_state.md R33). -/
inductive Reg where
  | r0
  | r1
  | lr
  | pc
deriving DecidableEq, Repr

/-- The legal values of CBX's COND field: 0 always, 1 `sr.Z`, 2 `sr.OV` (30_encoding.md R121). -/
inductive Cond where
  | al
  | z
  | ov
deriving DecidableEq, Repr

/-- The 25 instructions (30_encoding.md R122). In the types with fields RS, RD and a literal, `rs = rd` is the literal
form and `rs ≠ rd` the register form (R118). -/
inductive Instr where
  | nop
  | add (rs rd : Reg) (lit : BitVec 8)
  | sub (rs rd : Reg) (lit : BitVec 8)
  | mul (rs rd : Reg) (lit : BitVec 7)
  | muls (rs rd : Reg) (lit : BitVec 7)
  | div (rs rd : Reg) (lit : BitVec 7)
  | divs (rs rd : Reg) (lit : BitVec 7)
  | asgn (rs rd : Reg) (lit : BitVec 8)
  | shft (rs rd : Reg) (amt : BitVec 5)
  | bitAnd (rs rd : Reg) (idx : BitVec 4)
  | bitOr (rs rd : Reg) (idx : BitVec 4)
  | bitXor (rs rd : Reg) (idx : BitVec 4)
  | bitNot (rs rd : Reg)
  | cbx (lnk : Bool) (cond : Cond) (neg : Bool) (off : BitVec 8)
  | ld (rb rt : Reg) (off : BitVec 7)
  | st (rb rt : Reg) (off : BitVec 7)
  | pop (mask : BitVec 4)
  | push (mask : BitVec 4)
  | spget (r : Reg)
  | spset (r : Reg)
  | sigQuery
  | sigUsable
  | sigRelinquish
  | sigRead (cnt : BitVec 8)
  | sigWrite (cnt : BitVec 8)
deriving DecidableEq, Repr

end Sys2Proof
end

