-- ==== Sys2Proof/WellFormed.lean ====
section
/-! DEFINITION. Which terms of `Instr` are instructions: the constraints of 30_encoding.md R116 that the types of the
arguments do not already carry. -/

namespace Sys2Proof

/-- The checks of R116 on the arguments, one for each type that has one:
a register form has a zero literal, count or bit index; CBX does not negate AL; PUSH and POP name a register. -/
def Instr.wf : Instr → Bool
  | .add rs rd lit => rs = rd || lit = 0
  | .sub rs rd lit => rs = rd || lit = 0
  | .mul rs rd lit => rs = rd || lit = 0
  | .muls rs rd lit => rs = rd || lit = 0
  | .div rs rd lit => rs = rd || lit = 0
  | .divs rs rd lit => rs = rd || lit = 0
  | .asgn rs rd lit => rs = rd || lit = 0
  | .shft rs rd amt => rs = rd || amt = 0
  | .bitAnd rs rd idx => rs = rd || idx = 0
  | .bitOr rs rd idx => rs = rd || idx = 0
  | .bitXor rs rd idx => rs = rd || idx = 0
  | .cbx _ cond neg _ => cond ≠ .al || !neg
  | .pop mask => mask ≠ 0
  | .push mask => mask ≠ 0
  | .nop => true
  | .bitNot _ _ => true
  | .ld _ _ _ => true
  | .st _ _ _ => true
  | .spget _ => true
  | .spset _ => true
  | .sigQuery => true
  | .sigUsable => true
  | .sigRelinquish => true
  | .sigRead _ => true
  | .sigWrite _ => true

/-- `i` meets every constraint of R116. -/
abbrev Instr.WellFormed (i : Instr) : Prop := i.wf = true

end Sys2Proof
end

