-- ==== Sys2Proof/Decode.lean ====
section
/-! DEFINITION. The decoder, total on every word and on every sequence of bytes, then the encoder, then the layout
table and the opcode map the spec writes both from (30_encoding.md R110 to R124). -/

namespace Sys2Proof

/-- Why a word decodes to `Invalid` (R120). -/
inductive Reject where
  /-- Type code 0xC to 0xF (R117). -/
  | unassignedType
  /-- A reserved field is not zero (R116: NOP, SHFT, BITW, STK). -/
  | reservedField
  /-- Register form with a literal, count or bit index that is not zero; NOT with a bit index (R116). -/
  | literalInRegisterForm
  /-- CBX with COND = 3, or with COND = 0 and NEG = 1 (R116). -/
  | reservedCondition
  /-- PUSH or POP with an empty mask, SPGET or SPSET with ARG[3:2] not zero (R116). -/
  | reservedStackArgument
  /-- SIG with OP of 5 or more, or a count in QUERY, USABLE or RELINQUISH (R116). -/
  | reservedSignal
  /-- Fewer than two bytes: no whole instruction word (R110). -/
  | truncated
deriving DecidableEq, Repr

/-! ## Register identifiers (10_state.md R33) -/

/-- The register a 2-bit field names. -/
def Reg.ofId (f : BitVec 2) : Reg :=
  match f.toNat with
  | 0 => .r0
  | 1 => .r1
  | 2 => .lr
  | _ => .pc

/-- The 2-bit identifier of a register. -/
def Reg.id : Reg → BitVec 2
  | .r0 => 0
  | .r1 => 1
  | .lr => 2
  | .pc => 3

/-! ## Fields (R113 to R115) -/

/-- Bits `lo + width - 1` down to `lo` of an instruction word (R8). -/
def field (w : Word) (lo width : Nat) : BitVec width := w.extractLsb' lo width

/-- The type code `ir[15:12]` (R111). -/
def typeCode (w : Word) : BitVec 4 := field w 12 4

/-- The fields in bits 11:10 and 9:8 as registers: RS and RD, or RB and RT (R115). -/
def regHi (w : Word) : Reg := Reg.ofId (field w 10 2)

/-- See `regHi`. -/
def regLo (w : Word) : Reg := Reg.ofId (field w 8 2)

/-- The formats with RS, RD and a literal field of `width` bits at bit 0: register form needs a zero literal
(R116, R118). -/
def decodeRegLit (width : Nat) (make : Reg → Reg → BitVec width → Instr) (w : Word) : Except Reject Instr :=
  let lit := field w 0 width
  if regHi w = regLo w ∨ lit = 0 then .ok (make (regHi w) (regLo w) lit) else .error .literalInRegisterForm

/-- Type 0x6: RSV[7:5] must be zero (R116). -/
def decodeShift (w : Word) : Except Reject Instr :=
  if field w 5 3 = 0 then decodeRegLit 5 .shft w else .error .reservedField

/-- Type 0x7: RSV[5:4] must be zero; OP selects AND, OR, XOR or NOT; NOT has no bit index (R116, R121). -/
def decodeBitwise (w : Word) : Except Reject Instr :=
  if field w 4 2 = 0 then
    match (field w 6 2).toNat with
    | 0 => decodeRegLit 4 .bitAnd w
    | 1 => decodeRegLit 4 .bitOr w
    | 2 => decodeRegLit 4 .bitXor w
    | _ => if field w 0 4 = 0 then .ok (.bitNot (regHi w) (regLo w)) else .error .literalInRegisterForm
  else .error .reservedField

/-- Type 0x8: COND 3, and COND 0 with NEG 1, are reserved (R116, R121). -/
def decodeBranch (w : Word) : Except Reject Instr :=
  let lnk := w.getLsbD 11
  let neg := w.getLsbD 8
  let off := field w 0 8
  match (field w 9 2).toNat with
  | 0 => if neg then .error .reservedCondition else .ok (.cbx lnk .al neg off)
  | 1 => .ok (.cbx lnk .z neg off)
  | 2 => .ok (.cbx lnk .ov neg off)
  | _ => .error .reservedCondition

/-- Type 0xA: RSV[9:4] must be zero; a mask must not be empty; ARG[3:2] of SPGET and SPSET must be zero (R116). -/
def decodeStack (w : Word) : Except Reject Instr :=
  if field w 4 6 = 0 then
    let arg := field w 0 4
    match (field w 10 2).toNat with
    | 0 => if arg = 0 then .error .reservedStackArgument else .ok (.pop arg)
    | 1 => if arg = 0 then .error .reservedStackArgument else .ok (.push arg)
    | 2 => if field w 2 2 = 0 then .ok (.spget (Reg.ofId (field w 0 2))) else .error .reservedStackArgument
    | _ => if field w 2 2 = 0 then .ok (.spset (Reg.ofId (field w 0 2))) else .error .reservedStackArgument
  else .error .reservedField

/-- Type 0xB: OP 5 to 15 are reserved; CNT of QUERY, USABLE and RELINQUISH must be zero (R116, R121). -/
def decodeSignal (w : Word) : Except Reject Instr :=
  let cnt := field w 0 8
  match (field w 8 4).toNat with
  | 0 => if cnt = 0 then .ok .sigQuery else .error .reservedSignal
  | 1 => if cnt = 0 then .ok .sigUsable else .error .reservedSignal
  | 2 => if cnt = 0 then .ok .sigRelinquish else .error .reservedSignal
  | 3 => .ok (.sigRead cnt)
  | 4 => .ok (.sigWrite cnt)
  | _ => .error .reservedSignal

/-- The decoder (R120): the instruction a word stands for, or why it is `Invalid`. -/
def decode (w : Word) : Except Reject Instr :=
  match (typeCode w).toNat with
  | 0x0 => if field w 0 12 = 0 then .ok .nop else .error .reservedField
  | 0x1 => decodeRegLit 8 .add w
  | 0x2 => decodeRegLit 8 .sub w
  | 0x3 => if w.getLsbD 7 then decodeRegLit 7 .muls w else decodeRegLit 7 .mul w
  | 0x4 => if w.getLsbD 7 then decodeRegLit 7 .divs w else decodeRegLit 7 .div w
  | 0x5 => decodeRegLit 8 .asgn w
  | 0x6 => decodeShift w
  | 0x7 => decodeBitwise w
  | 0x8 => decodeBranch w
  | 0x9 =>
    if w.getLsbD 7 then .ok (.st (regHi w) (regLo w) (field w 0 7)) else .ok (.ld (regHi w) (regLo w) (field w 0 7))
  | 0xA => decodeStack w
  | 0xB => decodeSignal w
  | _ => .error .unassignedType

/-! ## Instruction words as bytes (R110; 20_memory.md R81) -/

/-- The word two bytes make, the first at the lower address: little-endian (20_memory.md R74, R81). -/
def wordOfBytes (low high : Byte) : Word := (high ++ low).setWidth 16

/-- The byte of a word at its lower address (20_memory.md R75). -/
def lowByte (w : Word) : Byte := w.extractLsb' 0 8

/-- The byte of a word at its higher address (20_memory.md R75). -/
def highByte (w : Word) : Byte := w.extractLsb' 8 8

/-- Decode the first instruction of a sequence of bytes and give back the bytes after it. -/
def decodeBytes : List Byte → Except Reject (Instr × List Byte)
  | low :: high :: rest =>
    match decode (wordOfBytes low high) with
    | .ok i => .ok (i, rest)
    | .error r => .error r
  | _ => .error .truncated

/-! ## The encoder (R115, R122) -/

/-- The fields of a pattern, side by side, as a word. -/
def word {n : Nat} (bits : BitVec n) : Word := bits.setWidth 16

/-- The word of an instruction, each written as its pattern of R115 reads from bit 15 down to bit 0. -/
def encode : Instr → Word
  | .nop => word (0x0#4 ++ 0#12)
  | .add rs rd lit => word (0x1#4 ++ rs.id ++ rd.id ++ lit)
  | .sub rs rd lit => word (0x2#4 ++ rs.id ++ rd.id ++ lit)
  | .mul rs rd lit => word (0x3#4 ++ rs.id ++ rd.id ++ 0#1 ++ lit)
  | .muls rs rd lit => word (0x3#4 ++ rs.id ++ rd.id ++ 1#1 ++ lit)
  | .div rs rd lit => word (0x4#4 ++ rs.id ++ rd.id ++ 0#1 ++ lit)
  | .divs rs rd lit => word (0x4#4 ++ rs.id ++ rd.id ++ 1#1 ++ lit)
  | .asgn rs rd lit => word (0x5#4 ++ rs.id ++ rd.id ++ lit)
  | .shft rs rd amt => word (0x6#4 ++ rs.id ++ rd.id ++ 0#3 ++ amt)
  | .bitAnd rs rd idx => word (0x7#4 ++ rs.id ++ rd.id ++ 0#2 ++ 0#2 ++ idx)
  | .bitOr rs rd idx => word (0x7#4 ++ rs.id ++ rd.id ++ 1#2 ++ 0#2 ++ idx)
  | .bitXor rs rd idx => word (0x7#4 ++ rs.id ++ rd.id ++ 2#2 ++ 0#2 ++ idx)
  | .bitNot rs rd => word (0x7#4 ++ rs.id ++ rd.id ++ 3#2 ++ 0#2 ++ 0#4)
  | .cbx lnk cond neg off => word (0x8#4 ++ BitVec.ofBool lnk ++ condField cond ++ BitVec.ofBool neg ++ off)
  | .ld rb rt off => word (0x9#4 ++ rb.id ++ rt.id ++ 0#1 ++ off)
  | .st rb rt off => word (0x9#4 ++ rb.id ++ rt.id ++ 1#1 ++ off)
  | .pop mask => word (0xA#4 ++ 0#2 ++ 0#6 ++ mask)
  | .push mask => word (0xA#4 ++ 1#2 ++ 0#6 ++ mask)
  | .spget r => word (0xA#4 ++ 2#2 ++ 0#6 ++ 0#2 ++ r.id)
  | .spset r => word (0xA#4 ++ 3#2 ++ 0#6 ++ 0#2 ++ r.id)
  | .sigQuery => word (0xB#4 ++ 0#4 ++ 0#8)
  | .sigUsable => word (0xB#4 ++ 1#4 ++ 0#8)
  | .sigRelinquish => word (0xB#4 ++ 2#4 ++ 0#8)
  | .sigRead cnt => word (0xB#4 ++ 3#4 ++ cnt)
  | .sigWrite cnt => word (0xB#4 ++ 4#4 ++ cnt)
where
  /-- CBX's COND field (R121). -/
  condField : Cond → BitVec 2
    | .al => 0
    | .z => 1
    | .ov => 2

/-! ## The layout table and the opcode map, as the spec prints them -/

/-- The three signedness modes of a field (R114). -/
inductive Signedness where
  | alwaysUnsigned
  | alwaysSigned
  | dynamicSignedness (signBit : Nat)
deriving DecidableEq, Repr

/-- One bitfield of a layout: its name, its highest and lowest bit, its mode (R113). -/
structure FieldSpec where
  name : String
  hi : Nat
  lo : Nat
  mode : Signedness
deriving DecidableEq, Repr

/-- The value a field decodes to by its mode (R114). -/
def FieldSpec.value (f : FieldSpec) (w : Word) : Int :=
  let bits := field w f.lo (f.hi - f.lo + 1)
  match f.mode with
  | .alwaysUnsigned => (bits.toNat : Int)
  | .alwaysSigned => bits.toInt
  | .dynamicSignedness s => if w.getLsbD s then bits.toInt else (bits.toNat : Int)

/-- The fields RS and RD of five of the layouts (R115). -/
def regFields : List FieldSpec := [⟨"RS", 11, 10, .alwaysUnsigned⟩, ⟨"RD", 9, 8, .alwaysUnsigned⟩]

/-- The argument layout of each type code (R115); none for the unassigned codes. -/
def layout (type : Nat) : List FieldSpec :=
  match type with
  | 0x0 => [⟨"RSV", 11, 0, .alwaysUnsigned⟩]
  | 0x1 => regFields ++ [⟨"LIT", 7, 0, .alwaysUnsigned⟩]
  | 0x2 => regFields ++ [⟨"LIT", 7, 0, .alwaysUnsigned⟩]
  | 0x3 => regFields ++ [⟨"SG", 7, 7, .alwaysUnsigned⟩, ⟨"LIT", 6, 0, .dynamicSignedness 7⟩]
  | 0x4 => regFields ++ [⟨"SG", 7, 7, .alwaysUnsigned⟩, ⟨"LIT", 6, 0, .dynamicSignedness 7⟩]
  | 0x5 => regFields ++ [⟨"LIT", 7, 0, .alwaysUnsigned⟩]
  | 0x6 => regFields ++ [⟨"RSV", 7, 5, .alwaysUnsigned⟩, ⟨"AMT", 4, 0, .alwaysSigned⟩]
  | 0x7 => regFields ++
      [⟨"OP", 7, 6, .alwaysUnsigned⟩, ⟨"RSV", 5, 4, .alwaysUnsigned⟩, ⟨"IDX", 3, 0, .alwaysUnsigned⟩]
  | 0x8 => [⟨"LNK", 11, 11, .alwaysUnsigned⟩, ⟨"COND", 10, 9, .alwaysUnsigned⟩, ⟨"NEG", 8, 8, .alwaysUnsigned⟩,
      ⟨"OFF", 7, 0, .alwaysSigned⟩]
  | 0x9 => [⟨"RB", 11, 10, .alwaysUnsigned⟩, ⟨"RT", 9, 8, .alwaysUnsigned⟩, ⟨"DIR", 7, 7, .alwaysUnsigned⟩,
      ⟨"OFF", 6, 0, .alwaysSigned⟩]
  | 0xA => [⟨"OP", 11, 10, .alwaysUnsigned⟩, ⟨"RSV", 9, 4, .alwaysUnsigned⟩, ⟨"ARG", 3, 0, .alwaysUnsigned⟩]
  | 0xB => [⟨"OP", 11, 8, .alwaysUnsigned⟩, ⟨"CNT", 7, 0, .alwaysUnsigned⟩]
  | _ => []

/-- The value of the field of that name in a word, if the word's layout has one (R113 to R115). -/
def fieldValue (name : String) (w : Word) : Option Int :=
  ((layout (typeCode w).toNat).find? fun f => f.name = name).map fun f => f.value w

/-- One row of the opcode map: mnemonic, match and mask (R122). -/
structure OpcodeRow where
  mnemonic : String
  bits : Word
  mask : Word
deriving DecidableEq, Repr

/-- The opcode map (R122). -/
def opcodeMap : List OpcodeRow :=
  [⟨"NOP", 0x0000, 0xF000⟩, ⟨"ADD", 0x1000, 0xF000⟩, ⟨"SUB", 0x2000, 0xF000⟩, ⟨"MUL", 0x3000, 0xF080⟩,
    ⟨"MULS", 0x3080, 0xF080⟩, ⟨"DIV", 0x4000, 0xF080⟩, ⟨"DIVS", 0x4080, 0xF080⟩, ⟨"ASGN", 0x5000, 0xF000⟩,
    ⟨"SHFT", 0x6000, 0xF000⟩, ⟨"AND", 0x7000, 0xF0C0⟩, ⟨"OR", 0x7040, 0xF0C0⟩, ⟨"XOR", 0x7080, 0xF0C0⟩,
    ⟨"NOT", 0x70C0, 0xF0C0⟩, ⟨"CBX", 0x8000, 0xF000⟩, ⟨"LD", 0x9000, 0xF080⟩, ⟨"ST", 0x9080, 0xF080⟩,
    ⟨"POP", 0xA000, 0xFC00⟩, ⟨"PUSH", 0xA400, 0xFC00⟩, ⟨"SPGET", 0xA800, 0xFC00⟩, ⟨"SPSET", 0xAC00, 0xFC00⟩,
    ⟨"SIG.QUERY", 0xB000, 0xFF00⟩, ⟨"SIG.USABLE", 0xB100, 0xFF00⟩, ⟨"SIG.RELINQUISH", 0xB200, 0xFF00⟩,
    ⟨"SIG.READ", 0xB300, 0xFF00⟩, ⟨"SIG.WRITE", 0xB400, 0xFF00⟩]

/-- A word selects a row when its masked bits are the row's (R122). -/
def OpcodeRow.selects (r : OpcodeRow) (w : Word) : Bool := w &&& r.mask = r.bits

/-- The mnemonic of an instruction's row (R122). -/
def Instr.mnemonic : Instr → String
  | .nop => "NOP"
  | .add _ _ _ => "ADD"
  | .sub _ _ _ => "SUB"
  | .mul _ _ _ => "MUL"
  | .muls _ _ _ => "MULS"
  | .div _ _ _ => "DIV"
  | .divs _ _ _ => "DIVS"
  | .asgn _ _ _ => "ASGN"
  | .shft _ _ _ => "SHFT"
  | .bitAnd _ _ _ => "AND"
  | .bitOr _ _ _ => "OR"
  | .bitXor _ _ _ => "XOR"
  | .bitNot _ _ => "NOT"
  | .cbx _ _ _ _ => "CBX"
  | .ld _ _ _ => "LD"
  | .st _ _ _ => "ST"
  | .pop _ => "POP"
  | .push _ => "PUSH"
  | .spget _ => "SPGET"
  | .spset _ => "SPSET"
  | .sigQuery => "SIG.QUERY"
  | .sigUsable => "SIG.USABLE"
  | .sigRelinquish => "SIG.RELINQUISH"
  | .sigRead _ => "SIG.READ"
  | .sigWrite _ => "SIG.WRITE"

/-! ## The host's interface to the decoder -/

/-- The instruction word of the table's numbering: bit 0 of `w` is bit 0 of the word, and every bit from `nbits` up is
zero (R8, R110). -/
def tableWord (nbits w : Nat) : Word := BitVec.ofNat 16 (w % 2 ^ nbits)

/-- The instruction the decoder reads from the bytes of that word, laid out little-endian; none where it refuses. -/
def decodeTableWord (nbits w : Nat) : Option Instr :=
  let word := tableWord nbits w
  match decodeBytes [lowByte word, highByte word] with
  | .ok (i, _) => some i
  | .error _ => none

end Sys2Proof
end

