-- ==== Sys2Proof/Config.lean ====
section
/-! DEFINITION. What an implementation fixes (00_scope.md R7) and the values the spec leaves open.
The parameters themselves are data in `Machine.State`, so that a statement about every state holds for every value of
them; this file names the values `State.reset` gives them and the free values. -/

namespace Sys2Proof

/-- An address of the port space (20_memory.md R71). -/
abbrev PortAddr := Word

/-- The name of a device in `DEVICES` (00_scope.md R7). -/
abbrev DeviceId := Nat

/-- One device-side call of a poll (45_device_port.md R262): a query of R241, R244, R245 or R246, or an operation of
R250, R251 or R253, always on the device's own port with `S = Device`. -/
inductive DeviceCall where
  | isConnected
  | isBusy
  | isExhausted
  | isControlledByProgram
  | isControlledByDevice
  | isReadableAndNotBusy
  | isWriteableAndNotBusy
  | usableByteCount
  | read (n : Nat)
  | write (bytes : List Byte)
  | relinquish
deriving DecidableEq, Repr

/-- What the devices do in one poll phase: the order in which they poll (`POLL_ORDER`) and the calls each makes
(`DEVICE_BEHAVIOUR`). The poll phase reads it so that every connected device polls exactly once (R260). -/
abbrev PollRound := List (DeviceId × List DeviceCall)

namespace Config

/-- `IMAGE_BASE`: the image and the entry point lie at address 0 (20_memory.md R83). -/
def imageBase : Nat := 0

/-- The largest `MEM_CAPACITY` an allocation can give (00_scope.md R7; 70_reset_and_hazards.md R332). -/
def maxMemCapacity : Nat := 65536

/-- What a byte of memory that is not listed reads as.
DESIGN CHOICE, unsafe (assumption 2): the spec leaves `INIT_MEM` open (20_memory.md R89). -/
def fillByte : Byte := 0

/-- `MEM_CAPACITY` of `State.reset`. DESIGN CHOICE, unsafe (assumption 1). -/
def resetMemCapacity : Nat := 65536

/-- The one port address of `State.reset`. DESIGN CHOICE, unsafe (assumption 3). -/
def resetPortAddr : PortAddr := 1

/-- `MAILBOX_CAPACITY` of the one port of `State.reset`. DESIGN CHOICE, unsafe (assumption 3). -/
def resetMailboxCapacity : Nat := 16

/-- The one device of `State.reset`. DESIGN CHOICE, unsafe (assumption 3). -/
def resetDevice : DeviceId := 0

/-- `SPEED` of the one device of `State.reset`. DESIGN CHOICE, unsafe (assumption 3). -/
def resetSpeed : Nat := 16

/-- FREE VALUE. The poll order and the devices' calls of the tick with this number, where the state names none
(45_device_port.md R260, R262; assumption 5). -/
opaque freeRound : Nat → PollRound

/-- FREE VALUE. One less than what SIG.USABLE leaves in `lr` at this tick for a byte count that does not fit 16 bits,
which no rule says, but for its not being 0: `Z` is set exactly when the count is 0 (46_sig.md R282; assumption 7). Every
word but 0 is one more than a value of this type. DESIGN CHOICE: the spec states no result there. -/
opaque wideUsableCountPred : (tick count : Nat) → Fin 65535

end Config

end Sys2Proof
end

