-- ==== Sys2Proof/Machine/State.lean ====
section
/-! DEFINITION. Everything the spec gives the machine to hold, as plain data (10_state.md; 70_reset_and_hazards.md
R331), the ways a step can stop, and the machine right after reset. -/

namespace Sys2Proof.Machine

/-- The two parties to a port (45_device_port.md R240). -/
inductive Side where
  | program
  | device
deriving DecidableEq, Repr

/-- Why a port operation fails (45_device_port.md R247). -/
inductive PortFail where
  | notConnected
  | busy
  | exhausted
  | notOwned
  | notReadable
  | notExhausted
deriving DecidableEq, Repr

/-- The reasons the `fault` register can hold (60_exceptions.md R301), but for 0, which is no reason. A raised fault is
a next state of the machine, not an end of the model's run (R300, R302). -/
inductive FaultCode where
  | invalidFetch
  | invalidLoad
  | invalidStore
  | invalidInstruction
  | divisionByZero
  | invalidPort
  | portNotConnected
  | portBusy
  | portExhausted
  | portNotOwned
  | portNotReadable
  | portNotExhausted
deriving DecidableEq, Repr

/-- One device port (10_state.md R45), with its parameter `MAILBOX_CAPACITY` (00_scope.md R7). -/
structure Port where
  /-- The connected device, if any. -/
  dev : Option DeviceId
  /-- The side that holds write access; none is the neutral `None` (R46). -/
  owner : Option Side
  /-- A transfer is in progress (R47). -/
  busy : Bool
  /-- Every byte the owner placed has been consumed (R48). -/
  exhausted : Bool
  /-- The bytes the owner placed in this write cycle (R49). -/
  data : List Byte
  /-- How many of them the other side has consumed (R49). -/
  rpos : Nat
  /-- `MAILBOX_CAPACITY` of this port; no step changes it. -/
  capacity : Nat
deriving DecidableEq, Repr

/-- One device (10_state.md R51), with its parameter `SPEED`. Its byte budget exists only inside a poll and is no
field. -/
structure Device where
  /-- `conn(d)`: the port address it is connected to, if any. -/
  conn : Option PortAddr
  /-- `SPEED(d)`: the bytes it may move in one poll; no step changes it. -/
  speed : Nat
deriving DecidableEq, Repr

/-- The listed bytes of the memory store: addresses strictly rising, no byte equal to `Config.fillByte`, which every
unlisted address reads as. -/
abbrev Memory := List Host.Cell

/-- The ports, one entry for each address of `PORT_ADDRS`, addresses strictly rising. -/
abbrev PortMap := List (PortAddr × Port)

/-- The devices, one entry for each member of `DEVICES`, identifiers strictly rising. -/
abbrev DeviceMap := List (DeviceId × Device)

/-- The whole machine. -/
structure State where
  /-- Byte address of the next instruction (10_state.md R35). -/
  pc : Word
  /-- Status: bit 0 `Z`, bit 1 `OV`, bits 15:2 reserved (R37). -/
  sr : Word
  /-- Link register (R36). -/
  lr : Word
  /-- General register 0 (R32). -/
  r0 : Word
  /-- General register 1 (R32). -/
  r1 : Word
  /-- The instruction word of the current step (R41). -/
  ir : Word
  /-- Byte address of the most recently pushed word (R40). -/
  sp : Word
  /-- Zero while Running, else the reason code (R42). -/
  fault : Word
  /-- The memory store (R52). -/
  mem : Memory
  /-- `MEM_CAPACITY` (R52): the bytes 0 to `memCapacity - 1` exist. -/
  memCapacity : Nat
  /-- Whether `AllocateTotalMemory` has been called (70_reset_and_hazards.md R332). -/
  allocated : Bool
  /-- The device ports (R45). -/
  ports : PortMap
  /-- The devices (R51). -/
  devices : DeviceMap
  /-- The count of ticks, which exists only for the host (60_exceptions.md R311); it indexes the free values. -/
  ticks : Nat
  /-- THE MODEL'S OWN FIELD: the device activity of the ticks to come, one round a tick, oldest first
  (45_device_port.md R260, R262; assumption 5). Once it is empty a tick's round is `Config.freeRound`. -/
  polls : List PollRound
deriving DecidableEq, Repr

/-- How a step can end outside the machine's states: in no way. Every fault of this hardware is a code in the `fault`
register of a next state (60_exceptions.md R300, R306; assumption 14), so this type has no constructor. -/
inductive Fault where
deriving DecidableEq, Repr

/-- What the model has no meaning for. -/
inductive Refusal where
  /-- Raised by no arm of `exec`: every instruction has its meaning. Safe. -/
  | notModelled (mnemonic : String)
  /-- Raised by `step` before `AllocateTotalMemory` was called: a launch the spec does not admit
  (93_implementation_defined.md I18; assumption 9). Safe. -/
  | notAllocated
  /-- Raised by the host's allocation when it is the second one or comes after the first tick
  (93_implementation_defined.md I18). Safe. -/
  | allocationOutOfTurn
  /-- Raised by the host's image load before the allocation or after the first tick (60_exceptions.md R315). Safe. -/
  | loadOutOfTurn
  /-- Raised by the host's image load when the image is larger than memory (93_implementation_defined.md I17). Safe. -/
  | imageDoesNotFit
deriving DecidableEq, Repr

/-- A port at its reset value (10_state.md R55), unconnected. -/
def Port.initial (capacity : Nat) : Port :=
  { dev := none, owner := none, busy := false, exhausted := false, data := [], rpos := 0, capacity := capacity }

/-- The machine right after the Mainboard is created (70_reset_and_hazards.md R330 step 1): every CPU register 0
(10_state.md R43), every port neutral (R55), no memory allocated, nothing connected. The ports and devices are the
parameters of 00_scope.md R7. -/
def State.created (ports : List (PortAddr × Nat)) (devices : List (DeviceId × Nat)) : State :=
  { pc := 0, sr := 0, lr := 0, r0 := 0, r1 := 0, ir := 0, sp := 0, fault := 0,
    mem := [], memCapacity := 0, allocated := false,
    ports := ports.map fun e => (e.1, Port.initial e.2),
    devices := devices.map fun e => (e.1, { conn := none, speed := e.2 }),
    ticks := 0, polls := [] }

/-- The machine after reset: created with the parameters that `Config` names, its memory allocated
(70_reset_and_hazards.md R330 steps 1 and 2). The CPU registers and the ports are as 10_state.md R43 and R55 say; the
parameters' values are the model's (assumptions 1 to 4). -/
def State.reset : State :=
  { State.created [(Config.resetPortAddr, Config.resetMailboxCapacity)] [(Config.resetDevice, Config.resetSpeed)] with
    memCapacity := Config.resetMemCapacity, allocated := true }

end Sys2Proof.Machine
end

