-- ==== Sys2Proof/Machine/Ops.lean ====
section
/-! DEFINITION. The named operations over the registers, the fault register and the memory store. -/

namespace Sys2Proof.Machine

/-! ## Registers (10_state.md R33) -/

/-- `x[i]` (00_scope.md R10). -/
def State.x (s : State) : Reg → Word
  | .r0 => s.r0
  | .r1 => s.r1
  | .lr => s.lr
  | .pc => s.pc

/-- `x[i] <- v` (00_scope.md R10); writing `pc` is a jump (10_state.md R35). -/
def State.setX (s : State) (r : Reg) (v : Word) : State :=
  match r with
  | .r0 => { s with r0 := v }
  | .r1 => { s with r1 := v }
  | .lr => { s with lr := v }
  | .pc => { s with pc := v }

/-- `sp <- v`. -/
def State.setSp (s : State) (v : Word) : State := { s with sp := v }

/-- `sr.Z` (10_state.md R37). -/
def State.z (s : State) : Bool := s.sr.getLsbD 0

/-- `sr.OV` (10_state.md R37). -/
def State.ov (s : State) : Bool := s.sr.getLsbD 1

/-- The status word with its two flags replaced; bits 15:2 stay as they are (10_state.md R37; assumption 10). -/
def srWithFlags (sr : Word) (z ov : Bool) : Word :=
  word (sr.extractLsb' 2 14 ++ BitVec.ofBool ov ++ BitVec.ofBool z)

/-- `sr.Z <- z; sr.OV <- ov` (10_state.md R37, R38). -/
def State.setFlags (s : State) (z ov : Bool) : State := { s with sr := srWithFlags s.sr z ov }

/-! ## Raising a fault, and leaving Faulted (60_exceptions.md R300 to R302, R316, R317) -/

/-- The number of a fault code (60_exceptions.md R301). -/
def FaultCode.code : FaultCode → Word
  | .invalidFetch => 1
  | .invalidLoad => 2
  | .invalidStore => 3
  | .invalidInstruction => 4
  | .divisionByZero => 5
  | .invalidPort => 6
  | .portNotConnected => 7
  | .portBusy => 8
  | .portExhausted => 9
  | .portNotOwned => 10
  | .portNotReadable => 11
  | .portNotExhausted => 12

/-- `raise Fault(code)`: the fault register takes the code and nothing else changes (60_exceptions.md R302). The caller
ends its instruction with the state this gives (00_scope.md R12). -/
def State.raise (s : State) (c : FaultCode) : State := { s with fault := c.code }

/-- The CPU is Running (60_exceptions.md R300). -/
def State.running (s : State) : Bool := s.fault = 0

/-- `ClearFault()`: `fault <- 0` and nothing else (60_exceptions.md R316). -/
def State.clearFault (s : State) : State := { s with fault := 0 }

/-- `Reset()`: every CPU register at its reset value; memory, ports and connections stay (60_exceptions.md R317). -/
def State.resetCpu (s : State) : State :=
  { s with pc := 0, sr := 0, lr := 0, r0 := 0, r1 := 0, ir := 0, sp := 0, fault := 0 }

/-! ## The memory store (20_memory.md R72 to R76) -/

/-- What a listed memory holds at an address; an unlisted address reads as `Config.fillByte`. -/
def Memory.read : Memory → Nat → Byte
  | [], _ => Config.fillByte
  | (k, v) :: rest, a => if k = a then v else Memory.read rest a

/-- Memory with one byte listed before the first entry of a higher or equal address. -/
def Memory.insert : Memory → Nat → Byte → Memory
  | [], a, b => [(a, b)]
  | (k, v) :: rest, a, b => if k < a then (k, v) :: Memory.insert rest a b else (a, b) :: (k, v) :: rest

/-- Memory with one byte replaced, in canonical form: a byte equal to `Config.fillByte` is not listed. -/
def Memory.write (m : Memory) (a : Nat) (b : Byte) : Memory :=
  let others := m.filter fun c => c.1 ≠ a
  if b = Config.fillByte then others else Memory.insert others a b

/-- Memory with consecutive bytes replaced, the first at the given address. -/
def Memory.writeBytes : Memory → Nat → List Byte → Memory
  | m, _, [] => m
  | m, a, b :: rest => Memory.writeBytes (m.write a b) (a + 1) rest

/-- The consecutive bytes from an address on. -/
def Memory.readBytes (m : Memory) (a : Nat) : Nat → List Byte
  | 0 => []
  | n + 1 => m.read a :: Memory.readBytes m (a + 1) n

/-- The canonical form: addresses strictly rising, no listed byte equal to what an unlisted one reads as. -/
def Memory.wf : Memory → Bool
  | [] => true
  | (k, v) :: rest => v ≠ Config.fillByte && (rest.all fun c => k < c.1) && Memory.wf rest

/-- `ReadByte(a)` (20_memory.md R72). -/
def State.readByte (s : State) (a : Nat) : Option Byte := if a < s.memCapacity then some (s.mem.read a) else none

/-- `WriteByte(a, b)` (20_memory.md R73). -/
def State.writeByte (s : State) (a : Nat) (b : Byte) : Option State :=
  if a < s.memCapacity then some { s with mem := s.mem.write a b } else none

/-- `ReadWord(a)` (20_memory.md R74). -/
def State.readWord (s : State) (a : Nat) : Option Word :=
  if a + 1 < s.memCapacity then some (wordOfBytes (s.mem.read a) (s.mem.read (a + 1))) else none

/-- `WriteWord(a, w)` (20_memory.md R75). -/
def State.writeWord (s : State) (a : Nat) (w : Word) : Option State :=
  if a + 1 < s.memCapacity then some { s with mem := (s.mem.write a (lowByte w)).write (a + 1) (highByte w) } else none

/-! ## The Supervisor (20_memory.md R77 to R79) -/

/-- Address translation is the identity (20_memory.md R77). -/
def translateAddress (ea : Word) : Nat := ea.toNat

/-- `RequestLoadWordFromDS`, which is `MemRead(ea, 2)` (20_memory.md R78). -/
def State.loadWord (s : State) (ea : Word) : Option Word := s.readWord (translateAddress ea)

/-- `RequestStoreWordToDS`, which is `MemWrite(ea, 2, w)` (20_memory.md R78). -/
def State.storeWord (s : State) (ea : Word) (w : Word) : Option State := s.writeWord (translateAddress ea) w

/-- The block range check of a SIG transfer of `c` bytes at `a` (20_memory.md R79). -/
def State.inRange (s : State) (a : Word) (c : Nat) : Bool := c = 0 || translateAddress a + c - 1 < s.memCapacity

/-- The bytes of a block, read after its range check (20_memory.md R78, R79). -/
def State.loadBlock (s : State) (a : Word) (c : Nat) : List Byte := s.mem.readBytes (translateAddress a) c

/-- A block written after its range check, byte `k` at `a + k` (20_memory.md R78, R79; 92_eei_decisions.md D44). -/
def State.storeBlock (s : State) (a : Word) (bytes : List Byte) : State :=
  { s with mem := s.mem.writeBytes (translateAddress a) bytes }

/-! ## Results -/

/-- What the flag-setting register instructions end with: the result to `Rd`, `Z` from the written word, `OV` as given
(41_arithmetic.md R177; 42_assign_shift_bitwise.md R191, R196). -/
def State.writeResult (s : State) (rd : Reg) (v : Word) (ov : Bool) : State := (s.setX rd v).setFlags (v = 0) ov

/-- What SIG.QUERY, USABLE, READ and WRITE end with: the result to `lr`, `Z` from it, `OV` 0 (46_sig.md R280). -/
def State.writeSigResult (s : State) (v : Word) : State := s.writeResult .lr v false

end Sys2Proof.Machine
end

