-- ==== Sys2Proof/Machine/Flags.lean ====
section
/-! DEFINITION. The results and the overflow flag of each operation (10_state.md R38; 41_arithmetic.md R177;
42_assign_shift_bitwise.md R191), and CBX's condition (43_control.md R211). `Z` is `State.writeResult`'s. -/

namespace Sys2Proof.Machine

/-- `OV` of ADD: the sum needs more than 16 bits (41_arithmetic.md R170). -/
def addOverflows (a b : Word) : Bool := 0xFFFF < a.toNat + b.toNat

/-- `OV` of SUB: an unsigned borrow (41_arithmetic.md R171). -/
def subBorrows (a b : Word) : Bool := a.toNat < b.toNat

/-- `OV` of MUL: the product needs more than 16 bits (41_arithmetic.md R172). -/
def mulOverflows (a b : Word) : Bool := 0xFFFF < a.toNat * b.toNat

/-- `s16(a) * s16(b)`, exact (41_arithmetic.md R173). -/
def signedProduct (a b : Word) : Int := a.toInt * b.toInt

/-- `OV` of MULS: the signed product does not fit 16 bits (41_arithmetic.md R173). -/
def mulsOverflows (a b : Word) : Bool := signedProduct a b < -32768 || 32767 < signedProduct a b

/-- `truncate_toward_zero(s16(a) / s16(b))`, exact (41_arithmetic.md R175). -/
def signedQuotient (a b : Word) : Int := a.toInt.tdiv b.toInt

/-- `OV` of DIVS (41_arithmetic.md R175). -/
def divsOverflows (a b : Word) : Bool := 32767 < signedQuotient a b

/-- SHFT's result for a value and a signed count (42_assign_shift_bitwise.md R191). -/
def shiftValue (v : Word) (amt : Int) : Word :=
  if amt = 0 then v
  else if 0 < amt ∧ amt < 16 then v <<< amt.toNat
  else if 16 ≤ amt then 0
  else if -16 < amt then v >>> (-amt).toNat
  else 0

/-- `OV` of SHFT: a 1 bit was shifted out (42_assign_shift_bitwise.md R191). -/
def shiftLost (v : Word) (amt : Int) : Bool :=
  if amt = 0 then false
  else if 0 < amt ∧ amt < 16 then v.toNat >>> (16 - amt.toNat) ≠ 0
  else if 16 ≤ amt then v ≠ 0
  else if -16 < amt then v.toNat % 2 ^ (-amt).toNat ≠ 0
  else v ≠ 0

/-- `cond(COND, NEG)` (43_control.md R211). -/
def State.condHolds (s : State) (cond : Cond) (neg : Bool) : Bool :=
  (match cond with
    | .al => true
    | .z => s.z
    | .ov => s.ov) ^^ neg

end Sys2Proof.Machine
end

