-- ==== Sys2Proof/Machine/Operands.lean ====
section
/-! DEFINITION. The operand forms (30_encoding.md R118, R119; 41_arithmetic.md R176) and the addresses instructions
form. A literal is given as the 16-bit word whose unsigned or signed reading is the field's value. -/

namespace Sys2Proof.Machine

/-- The second operand: the literal in literal form (`RS = RD`), else `x[RS]` (30_encoding.md R118; R176). -/
def State.operand (s : State) (rs rd : Reg) (literal : Word) : Word := if rs = rd then literal else s.x rs

/-- `zext_8(LIT)` of ADD, SUB and ASGN (30_encoding.md R119). -/
def literal8 (lit : BitVec 8) : Word := lit.zeroExtend 16

/-- `zext_7(LIT)` of MUL and DIV: `DynamicSignedness(7)` with `SG = 0` (30_encoding.md R114, R119). -/
def literal7 (lit : BitVec 7) : Word := lit.zeroExtend 16

/-- `sext_7(LIT)` of MULS and DIVS: `DynamicSignedness(7)` with `SG = 1` (30_encoding.md R114, R119). -/
def literalSigned7 (lit : BitVec 7) : Word := lit.signExtend 16

/-- `sext_5(AMT)` of SHFT (30_encoding.md R119). -/
def shiftLiteral (amt : BitVec 5) : Word := amt.signExtend 16

/-- `1 << IDX` of AND, OR and XOR (30_encoding.md R119). -/
def bitLiteral (idx : BitVec 4) : Word := 1#16 <<< idx.toNat

/-- The effective address of LD and ST, `u16(x[RB] + sext_7(OFF))` (44_load_store_stack.md R222). -/
def State.effectiveAddress (s : State) (rb : Reg) (off : BitVec 7) : Word := s.x rb + off.signExtend 16

/-- The target of CBX, `u16(pc + 2 * sext_8(OFF))` (43_control.md R210). -/
def State.branchTarget (s : State) (off : BitVec 8) : Word := s.pc + 2#16 * off.signExtend 16

/-- The registers a PUSH or POP mask selects, identifiers ascending (44_load_store_stack.md R223). -/
def maskRegs (mask : BitVec 4) : List Reg := [Reg.r0, .r1, .lr, .pc].filter fun r => mask.getLsbD r.id.toNat

end Sys2Proof.Machine
end

