-- ==== Sys2Proof/Machine/Arith.lean ====
section
/-! DEFINITION. ADD, SUB, MUL, MULS, DIV, DIVS (41_arithmetic.md). A meaning runs after the fetch, so `pc` is already
past the instruction (00_scope.md R13). -/

namespace Sys2Proof.Machine

/-- ADD (R170). -/
def execAdd (rs rd : Reg) (lit : BitVec 8) (s : State) : Host.Outcome State Fault Refusal :=
  let a := s.x rd
  let b := s.operand rs rd (literal8 lit)
  .next (s.writeResult rd (a + b) (addOverflows a b))

/-- SUB (R171). -/
def execSub (rs rd : Reg) (lit : BitVec 8) (s : State) : Host.Outcome State Fault Refusal :=
  let a := s.x rd
  let b := s.operand rs rd (literal8 lit)
  .next (s.writeResult rd (a - b) (subBorrows a b))

/-- MUL (R172). -/
def execMul (rs rd : Reg) (lit : BitVec 7) (s : State) : Host.Outcome State Fault Refusal :=
  let a := s.x rd
  let b := s.operand rs rd (literal7 lit)
  .next (s.writeResult rd (a * b) (mulOverflows a b))

/-- MULS (R173). -/
def execMuls (rs rd : Reg) (lit : BitVec 7) (s : State) : Host.Outcome State Fault Refusal :=
  let a := s.x rd
  let b := s.operand rs rd (literalSigned7 lit)
  .next (s.writeResult rd (BitVec.ofInt 16 (signedProduct a b)) (mulsOverflows a b))

/-- DIV (R174). -/
def execDiv (rs rd : Reg) (lit : BitVec 7) (s : State) : Host.Outcome State Fault Refusal :=
  let a := s.x rd
  let b := s.operand rs rd (literal7 lit)
  if b = 0 then .next (s.raise .divisionByZero) else .next (s.writeResult rd (a / b) false)

/-- DIVS (R175). -/
def execDivs (rs rd : Reg) (lit : BitVec 7) (s : State) : Host.Outcome State Fault Refusal :=
  let a := s.x rd
  let b := s.operand rs rd (literalSigned7 lit)
  if b = 0 then .next (s.raise .divisionByZero)
  else .next (s.writeResult rd (BitVec.ofInt 16 (signedQuotient a b)) (divsOverflows a b))

end Sys2Proof.Machine
end

