-- ==== Sys2Proof/Machine/Bitwise.lean ====
section
/-! DEFINITION. ASGN, SHFT, AND, OR, XOR, NOT (42_assign_shift_bitwise.md). -/

namespace Sys2Proof.Machine

/-- ASGN (R190): no flag is written. -/
def execAsgn (rs rd : Reg) (lit : BitVec 8) (s : State) : Host.Outcome State Fault Refusal :=
  .next (s.setX rd (s.operand rs rd (literal8 lit)))

/-- SHFT (R191): the count is read as signed. -/
def execShft (rs rd : Reg) (amt : BitVec 5) (s : State) : Host.Outcome State Fault Refusal :=
  let v := s.x rd
  let count := (s.operand rs rd (shiftLiteral amt)).toInt
  .next (s.writeResult rd (shiftValue v count) (shiftLost v count))

/-- AND (R192, R196). -/
def execAnd (rs rd : Reg) (idx : BitVec 4) (s : State) : Host.Outcome State Fault Refusal :=
  .next (s.writeResult rd (s.x rd &&& s.operand rs rd (bitLiteral idx)) false)

/-- OR (R193, R196). -/
def execOr (rs rd : Reg) (idx : BitVec 4) (s : State) : Host.Outcome State Fault Refusal :=
  .next (s.writeResult rd (s.x rd ||| s.operand rs rd (bitLiteral idx)) false)

/-- XOR (R194, R196). -/
def execXor (rs rd : Reg) (idx : BitVec 4) (s : State) : Host.Outcome State Fault Refusal :=
  .next (s.writeResult rd (s.x rd ^^^ s.operand rs rd (bitLiteral idx)) false)

/-- NOT (R195, R196): the source is `x[RS]` in both forms. -/
def execNot (rs rd : Reg) (s : State) : Host.Outcome State Fault Refusal :=
  .next (s.writeResult rd (~~~ s.x rs) false)

end Sys2Proof.Machine
end

