-- ==== Sys2Proof/Machine/Control.lean ====
section
/-! DEFINITION. NOP and CBX (43_control.md). -/

namespace Sys2Proof.Machine

/-- NOP (R212): nothing; the fetch has already advanced `pc`. -/
def execNop (s : State) : Host.Outcome State Fault Refusal := .next s

/-- CBX (R210): when the condition holds, `lr` takes the return address if LNK is set, then `pc` the target. -/
def execCbx (lnk : Bool) (cond : Cond) (neg : Bool) (off : BitVec 8) (s : State) : Host.Outcome State Fault Refusal :=
  if s.condHolds cond neg then
    .next ((if lnk then s.setX .lr s.pc else s).setX .pc (s.branchTarget off))
  else .next s

end Sys2Proof.Machine
end

