-- ==== Sys2Proof/Machine/LoadStore.lean ====
section
/-! DEFINITION. The load/store stage: LD, ST, POP, PUSH, SPGET, SPSET (44_load_store_stack.md). -/

namespace Sys2Proof.Machine

/-- LD (R220). -/
def execLd (rb rt : Reg) (off : BitVec 7) (s : State) : Host.Outcome State Fault Refusal :=
  match s.loadWord (s.effectiveAddress rb off) with
  | some v => .next (s.setX rt v)
  | none => .next (s.raise .invalidLoad)

/-- ST (R221). -/
def execSt (rb rt : Reg) (off : BitVec 7) (s : State) : Host.Outcome State Fault Refusal :=
  match s.storeWord (s.effectiveAddress rb off) (s.x rt) with
  | some t => .next t
  | none => .next (s.raise .invalidStore)

/-- The loop of PUSH over the registers still to push (R225): the first word that does not fit raises the fault, and the
words pushed before it stay. -/
def pushRegs : List Reg → State → State
  | [], s => s
  | r :: rest, s =>
    match s.storeWord (s.sp - 2#16) (s.x r) with
    | some t => pushRegs rest (t.setSp (s.sp - 2#16))
    | none => s.raise .invalidStore

/-- The loop of POP over the registers still to pop (R224): the first word that does not fit raises the fault, and the
registers popped before it keep their values. -/
def popRegs : List Reg → State → State
  | [], s => s
  | r :: rest, s =>
    match s.loadWord s.sp with
    | some v => popRegs rest ((s.setX r v).setSp (s.sp + 2#16))
    | none => s.raise .invalidLoad

/-- POP (R224): identifiers descending. -/
def execPop (mask : BitVec 4) (s : State) : Host.Outcome State Fault Refusal :=
  .next (popRegs (maskRegs mask).reverse s)

/-- PUSH (R225): identifiers ascending. -/
def execPush (mask : BitVec 4) (s : State) : Host.Outcome State Fault Refusal :=
  .next (pushRegs (maskRegs mask) s)

/-- SPGET (R226). -/
def execSpget (r : Reg) (s : State) : Host.Outcome State Fault Refusal := .next (s.setX r s.sp)

/-- SPSET (R227). -/
def execSpset (r : Reg) (s : State) : Host.Outcome State Fault Refusal := .next (s.setSp (s.x r))

end Sys2Proof.Machine
end

