-- ==== Sys2Proof/Machine/PortOps.lean ====
section
/-! DEFINITION. The device port state machine: queries, checks and operations of both sides (45_device_port.md), the
connect and disconnect of a device, and the map of ports. -/

namespace Sys2Proof.Machine

/-- `other(S)` (R240). -/
def Side.other : Side → Side
  | .program => .device
  | .device => .program

/-! ## The map of ports and the map of devices -/

/-- The port at an address, none where the address is not in `PORT_ADDRS` (R240). -/
def portAt : PortMap → PortAddr → Option Port
  | [], _ => none
  | (k, p) :: rest, a => if k = a then some p else portAt rest a

/-- The ports with the one at an address replaced. -/
def portSet (ports : PortMap) (a : PortAddr) (p : Port) : PortMap :=
  ports.map fun e => if e.1 = a then (e.1, p) else e

/-- The device of a name, none where it is not in `DEVICES`. -/
def deviceAt : DeviceMap → DeviceId → Option Device
  | [], _ => none
  | (k, d) :: rest, a => if k = a then some d else deviceAt rest a

/-- The devices with the one of a name replaced. -/
def deviceSet (devices : DeviceMap) (a : DeviceId) (d : Device) : DeviceMap :=
  devices.map fun e => if e.1 = a then (e.1, d) else e

/-- `port[p]`. -/
def State.portAt (s : State) (a : PortAddr) : Option Port := Machine.portAt s.ports a

/-- `port[p] <- …`. -/
def State.setPort (s : State) (a : PortAddr) (p : Port) : State := { s with ports := portSet s.ports a p }

/-- `conn(d)` (10_state.md R51). -/
def State.conn (s : State) (d : DeviceId) : Option PortAddr := (deviceAt s.devices d).bind Device.conn

/-! ## Queries (R241, R244 to R246) -/

/-- `IsConnected(p)` (R241). -/
def Port.isConnected (p : Port) : Bool := p.dev ≠ none

/-- `IsBusy(p)` (R241). -/
def Port.isBusy (p : Port) : Bool := p.busy

/-- `IsExhausted(p)` (R241). -/
def Port.isExhausted (p : Port) : Bool := p.exhausted

/-- `IsControlledByProgram(p)` (R241). -/
def Port.isControlledByProgram (p : Port) : Bool := p.owner = some .program

/-- `IsControlledByDevice(p)` (R241). -/
def Port.isControlledByDevice (p : Port) : Bool := p.owner = some .device

/-- `IsReadableAndNotBusy(p, S)` (R244). -/
def Port.isReadableAndNotBusy (p : Port) (side : Side) : Bool :=
  p.isConnected && !p.busy && p.owner = some side.other && p.rpos < p.data.length

/-- `IsWriteableAndNotBusy(p, S)` (R245). -/
def Port.isWriteableAndNotBusy (p : Port) (side : Side) : Bool :=
  p.isConnected && !p.busy && (p.owner = none || (p.owner = some side && !p.exhausted))

/-- `UsableByteCount(p, S)` (R246). -/
def Port.usableByteCount (p : Port) (side : Side) : Nat :=
  if !p.isConnected || p.busy then 0
  else if p.owner = none then p.capacity
  else if p.owner = some side then (if p.exhausted then 0 else p.capacity - p.data.length)
  else p.data.length - p.rpos

/-! ## Operations (R250 to R253) -/

/-- `read_check(p, S)`: none is `Ok` (R250). -/
def Port.readCheck (p : Port) (side : Side) : Option PortFail :=
  if !p.isConnected then some .notConnected
  else if p.busy then some .busy
  else if p.owner ≠ some side.other then some .notReadable
  else if p.exhausted then some .exhausted
  else if p.rpos = p.data.length then some .notReadable
  else none

/-- How many bytes a read of at most `n` takes (R250). -/
def Port.readCount (p : Port) (n : Nat) : Nat := min n (p.data.length - p.rpos)

/-- The effect of a read of `c` bytes that has passed its checks, with the rule of exhaustion (R250, R252). -/
def Port.take (p : Port) (c : Nat) : Port × List Byte :=
  ({ p with
      rpos := p.rpos + c
      exhausted := p.exhausted || (p.rpos + c = p.data.length && 0 < p.data.length) },
    (p.data.drop p.rpos).take c)

/-- `Read(p, S, n)` (R250). -/
def Port.read (p : Port) (side : Side) (n : Nat) : Except PortFail (Port × List Byte) :=
  match p.readCheck side with
  | some f => .error f
  | none => .ok (p.take (p.readCount n))

/-- `write_check(p, S)`: none is `Ok` (R251). -/
def Port.writeCheck (p : Port) (side : Side) : Option PortFail :=
  if !p.isConnected then some .notConnected
  else if p.busy then some .busy
  else if p.owner = some side.other then some .notOwned
  else if p.owner = some side ∧ p.exhausted then some .exhausted
  else none

/-- How many of `n` bytes a write places (R251). -/
def Port.writeCount (p : Port) (n : Nat) : Nat := min n (p.capacity - p.data.length)

/-- The effect of a write of bytes that fit and has passed its checks: nothing for no byte, else they are appended, the
writer owns the mailbox and `busy` is set (R251). -/
def Port.place (p : Port) (side : Side) (bytes : List Byte) : Port :=
  if bytes = [] then p else { p with data := p.data ++ bytes, owner := some side, busy := true }

/-- `Write(p, S, bytes)` (R251). -/
def Port.write (p : Port) (side : Side) (bytes : List Byte) : Except PortFail (Port × Nat) :=
  match p.writeCheck side with
  | some f => .error f
  | none =>
    let c := p.writeCount bytes.length
    .ok (p.place side (bytes.take c), c)

/-- `RelinquishMailbox(p, S)` (R253). -/
def Port.relinquish (p : Port) (side : Side) : Except PortFail Port :=
  if !p.isConnected then .error .notConnected
  else if p.owner ≠ some side then .error .notOwned
  else if p.busy then .error .busy
  else if !p.exhausted then .error .notExhausted
  else .ok { p with owner := some side.other, busy := false, exhausted := false, data := [], rpos := 0 }

/-- The port in the neutral state a disconnect leaves (R258). -/
def Port.disconnected (p : Port) : Port :=
  { p with dev := none, owner := none, busy := false, exhausted := false, data := [], rpos := 0 }

/-! ## A device's poll (R259 to R262) -/

/-- What a device-side call gives back to the device (R247, R256). -/
inductive CallResult where
  | flag (b : Bool)
  | usable (n : Nat)
  | got (bytes : List Byte)
  | wrote (c : Nat)
  | done
  | failed (r : PortFail)
deriving DecidableEq, Repr

/-- How many bytes a call moved (R261). -/
def CallResult.moved : CallResult → Nat
  | .got bytes => bytes.length
  | .wrote c => c
  | _ => 0

/-- One device-side call with the budget that is left: the port and the budget after it, and what the device is told
(R259, R261). -/
def Port.deviceCall (p : Port) (budget : Nat) : DeviceCall → Port × Nat × CallResult
  | .isConnected => (p, budget, .flag p.isConnected)
  | .isBusy => (p, budget, .flag p.isBusy)
  | .isExhausted => (p, budget, .flag p.isExhausted)
  | .isControlledByProgram => (p, budget, .flag p.isControlledByProgram)
  | .isControlledByDevice => (p, budget, .flag p.isControlledByDevice)
  | .isReadableAndNotBusy => (p, budget, .flag (p.isReadableAndNotBusy .device))
  | .isWriteableAndNotBusy => (p, budget, .flag (p.isWriteableAndNotBusy .device))
  | .usableByteCount => (p, budget, .usable (p.usableByteCount .device))
  | .read n =>
    match p.read .device (min n budget) with
    | .ok (p', bytes) => (p', budget - bytes.length, .got bytes)
    | .error f => (p, budget, .failed f)
  | .write bytes =>
    match p.write .device (bytes.take budget) with
    | .ok (p', c) => (p', budget - c, .wrote c)
    | .error f => (p, budget, .failed f)
  | .relinquish =>
    match p.relinquish .device with
    | .ok p' => (p', budget, .done)
    | .error f => (p, budget, .failed f)

/-- The calls of one poll, in order (R262). -/
def Port.deviceCalls : Port → Nat → List DeviceCall → Port × List CallResult
  | p, _, [] => (p, [])
  | p, budget, c :: rest =>
    let (p', budget', r) := p.deviceCall budget c
    let (p'', rs) := Port.deviceCalls p' budget' rest
    (p'', r :: rs)

end Sys2Proof.Machine
end

