-- ==== Sys2Proof/Machine/Sig.lean ====
section
/-! DEFINITION. The five SIG instructions: the program's side of the port operations (46_sig.md). -/

namespace Sys2Proof.Machine

/-- The fault a failed port call becomes (R286). -/
def PortFail.faultCode : PortFail → FaultCode
  | .notConnected => .portNotConnected
  | .busy => .portBusy
  | .exhausted => .portExhausted
  | .notOwned => .portNotOwned
  | .notReadable => .portNotReadable
  | .notExhausted => .portNotExhausted

/-- The QUERY status word, bits 6 down to 0, all for the program's side (R287). -/
def statusWord (p : Port) : Word :=
  word (0#9 ++ BitVec.ofBool (p.isWriteableAndNotBusy .program) ++ BitVec.ofBool (p.isReadableAndNotBusy .program) ++
    BitVec.ofBool p.isControlledByDevice ++ BitVec.ofBool p.isControlledByProgram ++ BitVec.ofBool p.isExhausted ++
    BitVec.ofBool p.isBusy ++ BitVec.ofBool p.isConnected)

/-- What SIG.USABLE leaves in `lr` (R282): the count where it fits a word, a free value other than 0 where it does not
(assumption 7). -/
def State.usableWord (s : State) (count : Nat) : Word :=
  if count < 65536 then BitVec.ofNat 16 count else BitVec.ofNat 16 ((Config.wideUsableCountPred s.ticks count).val + 1)

/-- SIG.QUERY (R281). -/
def execSigQuery (s : State) : Host.Outcome State Fault Refusal :=
  match s.portAt s.r0 with
  | none => .next (s.raise .invalidPort)
  | some p => .next (s.writeSigResult (statusWord p))

/-- SIG.USABLE (R282). -/
def execSigUsable (s : State) : Host.Outcome State Fault Refusal :=
  match s.portAt s.r0 with
  | none => .next (s.raise .invalidPort)
  | some p => .next (s.writeSigResult (s.usableWord (p.usableByteCount .program)))

/-- SIG.RELINQUISH (R283): it writes neither `lr` nor `sr`. -/
def execSigRelinquish (s : State) : Host.Outcome State Fault Refusal :=
  match s.portAt s.r0 with
  | none => .next (s.raise .invalidPort)
  | some p =>
    match p.relinquish .program with
    | .error f => .next (s.raise f.faultCode)
    | .ok p' => .next (s.setPort s.r0 p')

/-- SIG.READ (R284): the port's check, then the range check, then the transfer. -/
def execSigRead (cnt : BitVec 8) (s : State) : Host.Outcome State Fault Refusal :=
  match s.portAt s.r0 with
  | none => .next (s.raise .invalidPort)
  | some p =>
    match p.readCheck .program with
    | some f => .next (s.raise f.faultCode)
    | none =>
      let c := p.readCount cnt.toNat
      if s.inRange s.r1 c then
        let (p', bytes) := p.take c
        .next (((s.setPort s.r0 p').storeBlock s.r1 bytes).writeSigResult (BitVec.ofNat 16 c))
      else .next (s.raise .invalidStore)

/-- SIG.WRITE (R285): the port's check, then the range check, then the transfer. -/
def execSigWrite (cnt : BitVec 8) (s : State) : Host.Outcome State Fault Refusal :=
  match s.portAt s.r0 with
  | none => .next (s.raise .invalidPort)
  | some p =>
    match p.writeCheck .program with
    | some f => .next (s.raise f.faultCode)
    | none =>
      let c := p.writeCount cnt.toNat
      if s.inRange s.r1 c then
        .next ((s.setPort s.r0 (p.place .program (s.loadBlock s.r1 c))).writeSigResult (BitVec.ofNat 16 c))
      else .next (s.raise .invalidLoad)

end Sys2Proof.Machine
end

