-- ==== Sys2Proof/Machine/Dispatch.lean ====
section
/-! DEFINITION. Execute: one arm for each instruction, one call of its meaning (40_step.md R153; 30_encoding.md R122). -/

namespace Sys2Proof.Machine

def exec (i : Instr) (s : State) : Host.Outcome State Fault Refusal :=
  match i with
  | .nop => Sys2Proof.Machine.execNop s
  | .add rs rd lit => Sys2Proof.Machine.execAdd rs rd lit s
  | .sub rs rd lit => Sys2Proof.Machine.execSub rs rd lit s
  | .mul rs rd lit => Sys2Proof.Machine.execMul rs rd lit s
  | .muls rs rd lit => Sys2Proof.Machine.execMuls rs rd lit s
  | .div rs rd lit => Sys2Proof.Machine.execDiv rs rd lit s
  | .divs rs rd lit => Sys2Proof.Machine.execDivs rs rd lit s
  | .asgn rs rd lit => Sys2Proof.Machine.execAsgn rs rd lit s
  | .shft rs rd amt => Sys2Proof.Machine.execShft rs rd amt s
  | .bitAnd rs rd idx => Sys2Proof.Machine.execAnd rs rd idx s
  | .bitOr rs rd idx => Sys2Proof.Machine.execOr rs rd idx s
  | .bitXor rs rd idx => Sys2Proof.Machine.execXor rs rd idx s
  | .bitNot rs rd => Sys2Proof.Machine.execNot rs rd s
  | .cbx lnk cond neg off => Sys2Proof.Machine.execCbx lnk cond neg off s
  | .ld rb rt off => Sys2Proof.Machine.execLd rb rt off s
  | .st rb rt off => Sys2Proof.Machine.execSt rb rt off s
  | .pop mask => Sys2Proof.Machine.execPop mask s
  | .push mask => Sys2Proof.Machine.execPush mask s
  | .spget r => Sys2Proof.Machine.execSpget r s
  | .spset r => Sys2Proof.Machine.execSpset r s
  | .sigQuery => Sys2Proof.Machine.execSigQuery s
  | .sigUsable => Sys2Proof.Machine.execSigUsable s
  | .sigRelinquish => Sys2Proof.Machine.execSigRelinquish s
  | .sigRead cnt => Sys2Proof.Machine.execSigRead cnt s
  | .sigWrite cnt => Sys2Proof.Machine.execSigWrite cnt s

end Sys2Proof.Machine
end

