-- ==== Sys2Proof/Machine/Tick.lean ====
section
/-! DEFINITION. The parts of a tick around an instruction: the settle phase, the poll phase and the fetch
(40_step.md R150 to R152; 45_device_port.md R260 to R262). -/

namespace Sys2Proof.Machine

/-- The settle phase: every port's `busy` is cleared (40_step.md R151). -/
def State.settle (s : State) : State := { s with ports := s.ports.map fun e => (e.1, { e.2 with busy := false }) }

/-- The devices that poll: those with `conn(d) ≠ none` (45_device_port.md R260). -/
def State.connectedDevices (s : State) : List DeviceId :=
  (s.devices.filter fun e => e.2.conn.isSome).map fun e => e.1

/-- The round of this tick: the next one of `polls`, or the free one (assumption 5). -/
def State.round (s : State) : PollRound :=
  match s.polls with
  | r :: _ => r
  | [] => Config.freeRound s.ticks

/-- The calls a round gives a device: those of its first entry, none where the round does not name it (assumption 6). -/
def roundCalls : PollRound → DeviceId → List DeviceCall
  | [], _ => []
  | (k, calls) :: rest, d => if k = d then calls else roundCalls rest d

/-- The poll a device makes in the tick that starts at this state: its own port as it finds it, the transfer of the tick
before complete, and its calls; none where the device is not connected (40_step.md R150, R151; 45_device_port.md R260). No
other device touches that port, so the order of the polls does not matter to it. -/
def State.pollOf (s : State) (d : DeviceId) : Option (Port × List DeviceCall) :=
  ((s.conn d).bind s.portAt).map fun p => ({ p with busy := false }, roundCalls s.round d)

/-- A round read so that every connected device polls exactly once (45_device_port.md R260): the first entry of each
connected device in the round's order, then those the round does not name, which make no call (assumption 6). -/
def pollOrder : PollRound → List DeviceId → PollRound
  | [], connected => connected.map fun d => (d, [])
  | (d, calls) :: rest, connected =>
    if d ∈ connected then (d, calls) :: pollOrder rest (connected.erase d) else pollOrder rest connected

/-- One device's poll: its calls on its own port, its budget `SPEED(d)` at the start (45_device_port.md R260 to R262);
the state after it and what the device is told. -/
def State.pollDevice (s : State) (d : DeviceId) (calls : List DeviceCall) : State × List CallResult :=
  match deviceAt s.devices d with
  | none => (s, [])
  | some dev =>
    match dev.conn with
    | none => (s, [])
    | some a =>
      match s.portAt a with
      | none => (s, [])
      | some p =>
        let (p', results) := p.deviceCalls dev.speed calls
        (s.setPort a p', results)

/-- The polls of a round, one device after another (45_device_port.md R260). -/
def State.pollAll : State → PollRound → State
  | s, [] => s
  | s, (d, calls) :: rest => State.pollAll (s.pollDevice d calls).1 rest

/-- The poll phase (40_step.md R150). With no device connected there is no poll, whatever the round. -/
def State.pollPhase (s : State) : State :=
  if s.connectedDevices = [] then s else s.pollAll (pollOrder s.round s.connectedDevices)

/-- A tick up to its step phase: settle, then the polls; the tick's round is used up and the tick counted
(40_step.md R150). -/
def State.beginTick (s : State) : State :=
  { s.settle.pollPhase with ticks := s.ticks + 1, polls := s.polls.tail }

/-- The fetch (40_step.md R152): while Faulted nothing happens and no word is fetched; a word that does not fit raises
`INVALID_FETCH`, zeroes `ir` and leaves `pc`; else `ir` takes the word and `pc` advances by 2. -/
def State.fetch (s : State) : State × Option Word :=
  if s.running then
    match s.readWord s.pc.toNat with
    | none => ({ s with ir := 0 }.raise .invalidFetch, none)
    | some w => ({ s with ir := w, pc := s.pc + 2 }, some w)
  else (s, none)

end Sys2Proof.Machine
end

