-- ==== Sys2Proof/Machine/Step.lean ====
section
/-! DEFINITION. One step of the model is one tick: the host's action `Tick()` (40_step.md R150; 60_exceptions.md R315;
assumption 8). -/

namespace Sys2Proof.Machine

/-- Decode and execute a fetched word; a word that decodes to `Invalid` raises `INVALID_INSTRUCTION`
(40_step.md R153; 60_exceptions.md R303). -/
def execWord (w : Word) (s : State) : Host.Outcome State Fault Refusal :=
  match decode w with
  | .ok i => exec i s
  | .error _ => .next (s.raise .invalidInstruction)

/-- The step phase: `cpu_step()` (40_step.md R152 to R154). -/
def cpuStep (s : State) : Host.Outcome State Fault Refusal :=
  match s.fetch with
  | (t, some w) => execWord w t
  | (t, none) => .next t

/-- One tick (40_step.md R150), refused before memory was allocated (93_implementation_defined.md I18). -/
def step (s : State) : Host.Outcome State Fault Refusal :=
  if s.allocated then cpuStep s.beginTick else .refused .notAllocated

/-- `s` with the word of the table's numbering stored where the next step fetches, and with what that fetch needs: the
CPU Running, memory allocated and large enough, and `pc` not 0xFFFF, where no word ever fits (assumption 13). -/
def State.withFetchWord (s : State) (nbits w : Nat) : State :=
  let word := tableWord nbits w
  let pc := if s.pc = 0xFFFF then 0 else s.pc
  { s with
    pc := pc
    fault := 0
    allocated := true
    memCapacity := max s.memCapacity (pc.toNat + 2)
    mem := (s.mem.write pc.toNat (lowByte word)).write (pc.toNat + 1) (highByte word) }

end Sys2Proof.Machine
end

