-- ==== Sys2Proof/Machine/HostActions.lean ====
section
/-! DEFINITION. What the host does between ticks (60_exceptions.md R315 to R318; 70_reset_and_hazards.md R330 to R334;
45_device_port.md R257, R258). -/

namespace Sys2Proof.Machine

/-- The host's actions (60_exceptions.md R315). -/
inductive HostAction where
  /-- `AllocateTotalMemory(n)`: `granted` is whether the environment can give the memory, `contents` the bytes it then
  holds from address 0 on (`INIT_MEM`), the rest reading as `Config.fillByte`. -/
  | allocate (n : Nat) (granted : Bool) (contents : List Byte)
  /-- `LoadImage(words)`. -/
  | loadImage (words : List Word)
  /-- `Connect(d, p)`. -/
  | connect (d : DeviceId) (p : PortAddr)
  /-- `Disconnect(d)`. -/
  | disconnect (d : DeviceId)
  /-- `Tick()`. -/
  | tick
  /-- `ClearFault()`. -/
  | clearFault
  /-- `Reset()`. -/
  | reset
  /-- Reading any state. -/
  | inspect
deriving DecidableEq, Repr

/-- The capacity an allocation gives (70_reset_and_hazards.md R332). -/
def allocatedCapacity (n : Nat) (granted : Bool) : Nat := if granted ∧ n ≤ Config.maxMemCapacity then n else 0

/-- `AllocateTotalMemory(n)` (70_reset_and_hazards.md R332; 20_memory.md R89). -/
def State.allocate (s : State) (n : Nat) (granted : Bool) (contents : List Byte) : State :=
  let capacity := allocatedCapacity n granted
  { s with
    allocated := true
    memCapacity := capacity
    mem := Memory.writeBytes [] 0 (contents.take capacity) }

/-- The bytes of an image, each word little-endian (70_reset_and_hazards.md R333). -/
def imageBytes : List Word → List Byte
  | [] => []
  | w :: rest => lowByte w :: highByte w :: imageBytes rest

/-- `LoadImage(words)` (70_reset_and_hazards.md R333). -/
def State.loadImage (s : State) (words : List Word) : State :=
  { s with mem := s.mem.writeBytes Config.imageBase (imageBytes words) }

/-- `Connect(d, p)`: none where it fails (45_device_port.md R257). -/
def State.connect (s : State) (d : DeviceId) (a : PortAddr) : Option State :=
  match s.portAt a, deviceAt s.devices d with
  | some p, some dev =>
    if p.dev = none ∧ dev.conn = none then
      some { s with
        ports := portSet s.ports a { p with dev := some d }
        devices := deviceSet s.devices d { dev with conn := some a } }
    else none
  | _, _ => none

/-- `Disconnect(d)`: none where it fails (45_device_port.md R258). -/
def State.disconnect (s : State) (d : DeviceId) : Option State :=
  match deviceAt s.devices d with
  | none => none
  | some dev =>
    match dev.conn with
    | none => none
    | some a =>
      match s.portAt a with
      | none => none
      | some p =>
        some { s with
          ports := portSet s.ports a p.disconnected
          devices := deviceSet s.devices d { dev with conn := none } }

/-- One host action (60_exceptions.md R315). A connect or disconnect that fails changes nothing; a launch the spec does
not admit is refused (93_implementation_defined.md I17, I18). -/
def hostAction (a : HostAction) (s : State) : Host.Outcome State Fault Refusal :=
  match a with
  | .allocate n granted contents =>
    if s.allocated ∨ s.ticks ≠ 0 then .refused .allocationOutOfTurn else .next (s.allocate n granted contents)
  | .loadImage words =>
    if !s.allocated ∨ s.ticks ≠ 0 then .refused .loadOutOfTurn
    else if Config.imageBase + 2 * words.length ≤ s.memCapacity then .next (s.loadImage words)
    else .refused .imageDoesNotFit
  | .connect d p => .next ((s.connect d p).getD s)
  | .disconnect d => .next ((s.disconnect d).getD s)
  | .tick => step s
  | .clearFault => .next s.clearFault
  | .reset => .next s.resetCpu
  | .inspect => .next s

/-- Host actions one after another, none where one of them is refused. -/
def hostActions : List HostAction → State → Option State
  | [], s => some s
  | a :: rest, s =>
    match hostAction a s with
    | .next t => hostActions rest t
    | .fault _ | .refused _ => none

/-- The polls a device makes while the host acts, oldest first, each as `State.pollOf` gives it
(45_device_port.md R260, R262). -/
def pollHistory (d : DeviceId) : List HostAction → State → List (Port × List DeviceCall)
  | [], _ => []
  | a :: rest, s =>
    match hostAction a s with
    | .next t => (if a = .tick then (s.pollOf d).toList else []) ++ pollHistory d rest t
    | .fault _ | .refused _ => []

end Sys2Proof.Machine
end

