-- ==== Sys2Proof/Safety.lean ====
section
/-! DEFINITION. The terms in which claims about the machine are stated: the states of the CPU and of a port, the
invariant, the premises of a launch, and what a frame keeps. -/

namespace Sys2Proof.Machine

/-! ## The CPU (60_exceptions.md R300; 40_step.md R155) -/

/-- The CPU is Faulted (60_exceptions.md R300). -/
abbrev State.Faulted (s : State) : Prop := s.fault ≠ 0

/-- The halted state: Running, with the word 0x80FF at `pc` (40_step.md R155). -/
abbrev State.Halted (s : State) : Prop := s.fault = 0 ∧ s.readWord s.pc.toNat = some 0x80FF

/-! ## A port (10_state.md R50; 45_device_port.md R254) -/

/-- The five invariants of a port, in their order (10_state.md R50). -/
abbrev Port.Sound (p : Port) : Prop :=
  ¬ (p.busy = true ∧ p.exhausted = true) ∧
  (p.owner = none → p.data.length = 0 ∧ p.rpos = 0 ∧ p.busy = false ∧ p.exhausted = false) ∧
  (p.dev = none → p.owner = none) ∧
  (p.exhausted = true → p.rpos = p.data.length ∧ 0 < p.data.length) ∧
  (p.rpos ≤ p.data.length ∧ p.data.length ≤ p.capacity)

/-- The states of the port state machine (45_device_port.md R254). -/
inductive PortPhase where
  | neutral
  | filled (side : Side)
  | ready (side : Side)
  | drained (side : Side)
  | empty (side : Side)
deriving DecidableEq, Repr

/-- The row of the table of states a port is in, if any (45_device_port.md R254). -/
def Port.phase (p : Port) : Option PortPhase :=
  match p.owner with
  | none => if p.busy = false ∧ p.exhausted = false ∧ p.data = [] ∧ p.rpos = 0 then some .neutral else none
  | some side =>
    if p.busy = true ∧ p.exhausted = false ∧ p.rpos < p.data.length then some (.filled side)
    else if p.busy = false ∧ p.exhausted = false ∧ p.rpos < p.data.length then some (.ready side)
    else if p.busy = false ∧ p.exhausted = true ∧ p.rpos = p.data.length ∧ 0 < p.data.length then some (.drained side)
    else if p.busy = false ∧ p.exhausted = false ∧ p.data = [] ∧ p.rpos = 0 then some (.empty side)
    else none

/-! ## The invariant -/

/-- The memory store is in canonical form, lists only bytes that exist, and has a legal capacity (00_scope.md R7;
10_state.md R52). -/
abbrev State.MemoryOk (s : State) : Prop :=
  s.mem.wf = true ∧ (∀ c ∈ s.mem, c.1 < s.memCapacity) ∧ s.memCapacity ≤ Config.maxMemCapacity

/-- The reserved bits 15:2 of `sr` are 0 (10_state.md R37). -/
abbrev State.StatusOk (s : State) : Prop := s.sr.extractLsb' 2 14 = 0

/-- `fault` holds one of the codes 0 to 12 (60_exceptions.md R301). -/
abbrev State.FaultOk (s : State) : Prop := s.fault.toNat ≤ 12

/-- Port addresses strictly rise, every mailbox capacity is at least 1 (00_scope.md R7), every port keeps the five
invariants (10_state.md R50). -/
abbrev State.PortsOk (s : State) : Prop :=
  (s.ports.map fun e => e.1).Pairwise (· < ·) ∧ ∀ e ∈ s.ports, 1 ≤ e.2.capacity ∧ e.2.Sound

/-- `conn(d) = p` exactly when `port[p].dev = d` (10_state.md R51), and device names strictly rise. -/
abbrev State.LinksOk (s : State) : Prop :=
  (s.devices.map fun e => e.1).Pairwise (· < ·) ∧
  (∀ e ∈ s.ports, ∀ d ∈ e.2.dev, s.conn d = some e.1) ∧
  (∀ e ∈ s.devices, ∀ a ∈ e.2.conn, (s.portAt a).bind Port.dev = some e.1)

/-- Before memory is allocated there is none, and no tick has run (70_reset_and_hazards.md R332). -/
abbrev State.LaunchOk (s : State) : Prop := s.allocated = false → s.memCapacity = 0 ∧ s.ticks = 0

/-- What holds of a Mainboard as it is created and is kept by every step and every host action. -/
abbrev State.Inv (s : State) : Prop :=
  s.MemoryOk ∧ s.StatusOk ∧ s.FaultOk ∧ s.PortsOk ∧ s.LinksOk ∧ s.LaunchOk

/-! ## Launches (70_reset_and_hazards.md R330, R336) -/

/-- `LP_MEM`. -/
abbrev State.LaunchMemory (s : State) (capacity : Nat) : Prop :=
  s.allocated = true ∧ s.memCapacity = capacity ∧ capacity ≤ Config.maxMemCapacity

/-- `LP_IMAGE`: word `k` of the image at byte `2k`. -/
abbrev State.LaunchImage (s : State) (image : List Word) : Prop :=
  ∀ k w, image[k]? = some w → s.readWord (Config.imageBase + 2 * k) = some w

/-- `LP_CPU`: every CPU register 0 (70_reset_and_hazards.md R331). -/
abbrev State.LaunchCpu (s : State) : Prop :=
  s.pc = 0 ∧ s.sr = 0 ∧ s.lr = 0 ∧ s.r0 = 0 ∧ s.r1 = 0 ∧ s.ir = 0 ∧ s.sp = 0 ∧ s.fault = 0

/-- `LP_PORTS`: every port is `Neutral`; `PORT_ADDRS` with `MAILBOX_CAPACITY`, `DEVICES` with `SPEED`, and `CONNECTION`,
read from either end, are the ones named. -/
abbrev State.LaunchPorts (s : State) (ports : List (PortAddr × Nat)) (devices : List (DeviceId × Nat))
    (connection : List (DeviceId × PortAddr)) : Prop :=
  (∀ e ∈ s.ports, e.2.phase = some .neutral) ∧
  s.ports.map (fun e => (e.1, e.2.capacity)) = ports ∧
  s.devices.map (fun e => (e.1, e.2.speed)) = devices ∧
  ∀ d a, (s.conn d = some a ↔ (d, a) ∈ connection) ∧ ((s.portAt a).bind Port.dev = some d ↔ (d, a) ∈ connection)

/-- `LP_DEVICES`, for the run in which the host takes these actions from this launch on: the polls each device makes in it
are ones the claim assumes of that device, which may follow the port it finds and all that came before. The rounds of the
state are those of one run, so the premise names that run; a claim about runs of every length has it for each.
`fun _ _ => True` assumes nothing: the device behaves as any device (45_device_port.md R262; assumption 21). -/
abbrev State.LaunchDevices (s : State) (actions : List HostAction)
    (behaves : DeviceId → List (Port × List DeviceCall) → Prop) : Prop :=
  ∀ d : DeviceId, behaves d (pollHistory d actions s)

/-- `CONNECTION`: a one-to-one map between devices and ports that exist (00_scope.md R7). -/
abbrev Connects (ports : List (PortAddr × Nat)) (devices : List (DeviceId × Nat))
    (connection : List (DeviceId × PortAddr)) : Prop :=
  (connection.map fun c => c.1).Nodup ∧ (connection.map fun c => c.2).Nodup ∧
  ∀ c ∈ connection, (c.1 ∈ devices.map fun e => e.1) ∧ c.2 ∈ ports.map fun e => e.1

/-! ## Frames -/

/-- Every numbered register outside the list is as before. -/
abbrev RegsKept (written : List Reg) (s t : State) : Prop := ∀ r, r ∉ written → t.x r = s.x r

/-- Every byte of memory reads as before. -/
abbrev MemKept (s t : State) : Prop := ∀ a, t.mem.read a = s.mem.read a

/-- Every byte of memory outside the range reads as before. -/
abbrev MemKeptOutside (a n : Nat) (s t : State) : Prop := ∀ b, b < a ∨ a + n ≤ b → t.mem.read b = s.mem.read b

/-- What no instruction changes when it raises no fault: `ir`, `fault`, the parameters, the devices, the tick count and
the rounds to come. -/
abbrev RestKept (s t : State) : Prop :=
  t.ir = s.ir ∧ t.fault = s.fault ∧ t.memCapacity = s.memCapacity ∧ t.allocated = s.allocated ∧
  t.devices = s.devices ∧ t.ticks = s.ticks ∧ t.polls = s.polls

/-- The two flags after an instruction; the reserved bits of `sr` are as before. -/
abbrev FlagsAre (z ov : Prop) (s t : State) : Prop :=
  (t.z = true ↔ z) ∧ (t.ov = true ↔ ov) ∧ t.sr.extractLsb' 2 14 = s.sr.extractLsb' 2 14

/-- The whole frame of an instruction that writes registers of the list and perhaps `sr`, and nothing else. -/
abbrev RegisterFrame (written : List Reg) (s t : State) : Prop :=
  RegsKept written s t ∧ t.sp = s.sp ∧ MemKept s t ∧ t.ports = s.ports ∧ RestKept s t

end Sys2Proof.Machine
end

