-- ==== Sys2Proof/Certificates/Slice0/Obligations.lean ====
section
/-! DEFINITION. The statements about the machine. Each docstring names the rule of spec/ it formalises. -/

open Sys2Proof Sys2Proof.Machine

/-! ## Encoding -/

/-- Decoding the encoding of a well-formed instruction gives it back (30_encoding.md R115, R120, R122). -/
def Obligations.DecodeOfEncodeIsTheInstruction : Prop :=
  ∀ i : Instr, i.WellFormed → decode (encode i) = .ok i

/-- A word that decodes is the one encoding of a well-formed instruction (R120: every word decodes to exactly one
instruction or to `Invalid`). -/
def Obligations.EncodeOfDecodeIsTheWord : Prop :=
  ∀ (w : Word) (i : Instr), decode w = .ok i → i.WellFormed ∧ encode i = w

/-- The words that decode to `Invalid` are exactly those of R117 and of the table of R116, the table's constraints
written over the bits of the word. -/
def Obligations.InvalidWordsAreExactlyTheReservedOnes : Prop :=
  ∀ w : Word,
    let n := w.toNat
    let type := n / 4096
    let rs := n / 1024 % 4
    let rd := n / 256 % 4
    (∃ r, decode w = .error r) ↔
      (type = 0 ∧ n % 4096 ≠ 0) ∨
      ((type = 1 ∨ type = 2 ∨ type = 5) ∧ rs ≠ rd ∧ n % 256 ≠ 0) ∨
      ((type = 3 ∨ type = 4) ∧ rs ≠ rd ∧ n % 128 ≠ 0) ∨
      (type = 6 ∧ (n / 32 % 8 ≠ 0 ∨ (rs ≠ rd ∧ n % 32 ≠ 0))) ∨
      (type = 7 ∧ (n / 16 % 4 ≠ 0 ∨ (n / 64 % 4 = 3 ∧ n % 16 ≠ 0) ∨ (n / 64 % 4 ≠ 3 ∧ rs ≠ rd ∧ n % 16 ≠ 0))) ∨
      (type = 8 ∧ (n / 512 % 4 = 3 ∨ (n / 512 % 4 = 0 ∧ n / 256 % 2 = 1))) ∨
      (type = 10 ∧ (n / 16 % 64 ≠ 0 ∨ (n / 1024 % 4 < 2 ∧ n % 16 = 0) ∨ (2 ≤ n / 1024 % 4 ∧ n / 4 % 4 ≠ 0))) ∨
      (type = 11 ∧ (5 ≤ n / 256 % 16 ∨ (n / 256 % 16 < 3 ∧ n % 256 ≠ 0))) ∨
      12 ≤ type

/-- A word that decodes is selected by exactly one row of the opcode map, the row of the instruction's mnemonic
(R122). -/
def Obligations.DecodedWordSelectsItsOpcodeRow : Prop :=
  ∀ (w : Word) (i : Instr), decode w = .ok i →
    ∀ row ∈ opcodeMap, row.selects w = true ↔ row.mnemonic = i.mnemonic

/-- Each operand of a decoded word is the field of that name of the word's layout: a register is the one whose identifier
the field holds (10_state.md R33), a bit index, mask or flag is the field's number, and the literal, count and offset a
meaning uses is the value the layout table gives the field by its signedness mode (R114, R115, R119, R121). -/
def Obligations.OperandsHaveTheLayoutTablesValue : Prop :=
  (Reg.r0.id = 0 ∧ Reg.r1.id = 1 ∧ Reg.lr.id = 2 ∧ Reg.pc.id = 3) ∧
  ∀ (w : Word) (i : Instr), decode w = .ok i →
    let has (name : String) (v : Int) : Prop := fieldValue name w = some v
    let registers (high : String) (a : Reg) (low : String) (b : Reg) : Prop := has high a.id.toNat ∧ has low b.id.toNat
    match i with
    | .nop => has "RSV" 0
    | .add rs rd lit | .sub rs rd lit | .asgn rs rd lit => registers "RS" rs "RD" rd ∧ has "LIT" (literal8 lit).toNat
    | .mul rs rd lit | .div rs rd lit => registers "RS" rs "RD" rd ∧ has "SG" 0 ∧ has "LIT" (literal7 lit).toNat
    | .muls rs rd lit | .divs rs rd lit => registers "RS" rs "RD" rd ∧ has "SG" 1 ∧ has "LIT" (literalSigned7 lit).toInt
    | .shft rs rd amt => registers "RS" rs "RD" rd ∧ has "AMT" (shiftLiteral amt).toInt
    | .bitAnd rs rd idx => registers "RS" rs "RD" rd ∧ has "OP" 0 ∧ has "IDX" idx.toNat
    | .bitOr rs rd idx => registers "RS" rs "RD" rd ∧ has "OP" 1 ∧ has "IDX" idx.toNat
    | .bitXor rs rd idx => registers "RS" rs "RD" rd ∧ has "OP" 2 ∧ has "IDX" idx.toNat
    | .bitNot rs rd => registers "RS" rs "RD" rd ∧ has "OP" 3 ∧ has "IDX" 0
    | .cbx lnk cond neg off =>
      has "LNK" (if lnk then 1 else 0) ∧
      has "COND" (match cond with | .al => 0 | .z => 1 | .ov => 2) ∧
      has "NEG" (if neg then 1 else 0) ∧ has "OFF" off.toInt
    | .ld rb rt off => registers "RB" rb "RT" rt ∧ has "DIR" 0 ∧ has "OFF" off.toInt
    | .st rb rt off => registers "RB" rb "RT" rt ∧ has "DIR" 1 ∧ has "OFF" off.toInt
    | .pop mask => has "OP" 0 ∧ has "ARG" mask.toNat
    | .push mask => has "OP" 1 ∧ has "ARG" mask.toNat
    | .spget r => has "OP" 2 ∧ has "ARG" r.id.toNat
    | .spset r => has "OP" 3 ∧ has "ARG" r.id.toNat
    | .sigQuery => has "OP" 0 ∧ has "CNT" 0
    | .sigUsable => has "OP" 1 ∧ has "CNT" 0
    | .sigRelinquish => has "OP" 2 ∧ has "CNT" 0
    | .sigRead cnt => has "OP" 3 ∧ has "CNT" cnt.toNat
    | .sigWrite cnt => has "OP" 4 ∧ has "CNT" cnt.toNat

/-- Words of the spec's table of decode examples decode as it says (R124). -/
def Obligations.ExampleWordsDecodeAsListed : Prop :=
  decode 0x0000 = .ok .nop ∧ decode 0x1503 = .ok (.add .r1 .r1 3) ∧ decode 0x1400 = .ok (.add .r1 .r0 0) ∧
  decode 0x30FF = .ok (.muls .r0 .r0 0x7F) ∧ decode 0x307F = .ok (.mul .r0 .r0 0x7F) ∧
  decode 0x651F = .ok (.shft .r1 .r1 0x1F) ∧ decode 0x7A05 = .ok (.bitAnd .lr .lr 5) ∧
  decode 0x70C0 = .ok (.bitNot .r0 .r0) ∧ decode 0x83FD = .ok (.cbx false .z true 0xFD) ∧
  decode 0x9190 = .ok (.st .r0 .r1 0x10) ∧ decode 0x907F = .ok (.ld .r0 .r0 0x7F) ∧
  decode 0xA404 = .ok (.push 4) ∧ decode 0xAC00 = .ok (.spset .r0) ∧ decode 0xB308 = .ok (.sigRead 8) ∧
  (∀ w ∈ [0x0001#16, 0x1401, 0x8100, 0xA000, 0xB500, 0xC000], ∃ r, decode w = .error r)

/-! ## The tick, the fetch and faults -/

/-- A step runs the decoded instruction: with the CPU Running and the bytes at `pc` decoding to a well-formed
instruction, a step is `exec` of it at the state in which the ports have settled and the devices have polled, `ir` holds
the word and `pc` has advanced by 2 (40_step.md R150, R152, R153). That a step is a tick is the model's reading
(assumption 8), that it needs memory to be allocated too (assumption 9). -/
def Obligations.StepRunsTheDecodedInstruction : Prop :=
  ∀ (s : State) (i : Instr), s.allocated = true → s.fault = 0 → s.pc.toNat + 1 < s.memCapacity → i.WellFormed →
    let w := wordOfBytes (s.mem.read s.pc.toNat) (s.mem.read (s.pc.toNat + 1))
    decode w = .ok i →
    step s = exec i
      { s with ir := w, pc := s.pc + 2, ports := s.settle.pollPhase.ports, ticks := s.ticks + 1, polls := s.polls.tail }

/-- A word that decodes to `Invalid` raises INVALID_INSTRUCTION and changes nothing else (60_exceptions.md R303). -/
def Obligations.InvalidWordOnlyRaisesInvalidInstruction : Prop :=
  ∀ (w : Word) (r : Reject) (s : State), decode w = .error r → execWord w s = .next { s with fault := 4 }

/-- A fetch that does not fit raises INVALID_FETCH, zeroes `ir`, and leaves `pc`, every other register and memory
(40_step.md R152, R157). -/
def Obligations.FailedFetchRaisesInvalidFetch : Prop :=
  ∀ s : State, s.allocated = true → s.fault = 0 → s.memCapacity ≤ s.pc.toNat + 1 →
    ∃ t, step s = .next t ∧ t.fault = 1 ∧ t.ir = 0 ∧ RegsKept [] s t ∧ t.sr = s.sr ∧ t.sp = s.sp ∧ t.mem = s.mem

/-- While Faulted, a step changes no CPU register and no memory; the devices still poll (40_step.md R154). -/
def Obligations.FaultedStepKeepsTheCpu : Prop :=
  ∀ s : State, s.allocated = true → s.Faulted →
    ∃ t, step s = .next t ∧ RegsKept [] s t ∧ t.sr = s.sr ∧ t.ir = s.ir ∧ t.sp = s.sp ∧ t.fault = s.fault ∧
      t.mem = s.mem ∧ t.memCapacity = s.memCapacity ∧ t.ports = s.settle.pollPhase.ports

/-- From a halted state every step gives a halted state again, with every CPU register but `ir` and all of memory
unchanged; `ir` holds the halting word (40_step.md R155; assumption 11). -/
def Obligations.HaltedStepStaysHalted : Prop :=
  ∀ s : State, s.allocated = true → s.Halted →
    ∃ t, step s = .next t ∧ t.Halted ∧ RegsKept [] s t ∧ t.sr = s.sr ∧ t.sp = s.sp ∧ t.ir = 0x80FF ∧ t.mem = s.mem

/-- The settle phase clears every port's `busy` and changes no other field (40_step.md R151). -/
def Obligations.SettleClearsOnlyBusy : Prop :=
  ∀ s : State, ∃ ports, s.settle = { s with ports := ports } ∧
    ∀ a, portAt ports a = (s.portAt a).map fun p => { p with busy := false }

/-- Whatever the devices do, the settle and poll phases leave the CPU registers, the memory, the parameters and the
connections alone (10_state.md R44; 45_device_port.md R262). -/
def Obligations.DevicesTouchOnlyPorts : Prop :=
  ∀ s : State, ∃ ports, s.beginTick = { s with ports := ports, ticks := s.ticks + 1, polls := s.polls.tail } ∧
    ports.map (fun e => e.1) = s.ports.map (fun e => e.1) ∧
    ∀ a, (portAt ports a).map (fun p => (p.dev, p.capacity)) = (s.portAt a).map fun p => (p.dev, p.capacity)

/-- In the poll phase of a tick every connected device polls exactly once, on its own port as settling left it, with its
calls of the tick's round and the byte budget `SPEED(d)`; a device with no port makes no poll, and a port with no device is
only settled (45_device_port.md R260, R261). Whatever round the model is given, its poll order names every connected device
once and no other (that a round may name devices otherwise is the model's, assumption 6), and the calls of one poll move at
most their budget. -/
def Obligations.PollsAreOneEachAndWithinTheBudget : Prop :=
  (∀ s : State, s.Inv →
    (∀ (d : DeviceId) (dev : Device) (a : PortAddr) (p : Port), (d, dev) ∈ s.devices → dev.conn = some a →
      s.portAt a = some p →
      let settled : Port := { p with busy := false }
      let calls := roundCalls s.round d
      s.pollOf d = some (settled, calls) ∧
      s.settle.pollPhase.portAt a = some (settled.deviceCalls dev.speed calls).1) ∧
    (∀ d, s.conn d = none → s.pollOf d = none) ∧
    (∀ a p, s.portAt a = some p → p.dev = none → s.settle.pollPhase.portAt a = some { p with busy := false })) ∧
  (∀ (round : PollRound) (connected : List DeviceId),
    ((pollOrder round connected).map fun e => e.1).Perm connected) ∧
  (∀ (p : Port) (budget : Nat) (calls : List DeviceCall),
    ((p.deviceCalls budget calls).2.map CallResult.moved).sum ≤ budget)

/-! ## Invariants -/

/-- The machine after reset meets the invariant, and so does every Mainboard as it is created, with strictly rising names
and mailboxes that can hold a byte (10_state.md R43, R50, R55; 70_reset_and_hazards.md R330). -/
def Obligations.ResetMeetsTheInvariant : Prop :=
  State.reset.Inv ∧
  ∀ (ports : List (PortAddr × Nat)) (devices : List (DeviceId × Nat)),
    (ports.map fun e => e.1).Pairwise (· < ·) → (∀ e ∈ ports, 1 ≤ e.2) →
    (devices.map fun e => e.1).Pairwise (· < ·) → (State.created ports devices).Inv

/-- Every step keeps the invariant: the memory's canonical form, the reserved bits of `sr`, the fault codes, the five
invariants of every port, and the agreement of both ends of a connection (10_state.md R37, R50, R51;
60_exceptions.md R301). -/
def Obligations.StepKeepsTheInvariant : Prop :=
  ∀ s t : State, s.Inv → step s = .next t → t.Inv

/-- Every host action keeps the invariant (60_exceptions.md R315). -/
def Obligations.HostActionsKeepTheInvariant : Prop :=
  ∀ (a : HostAction) (s t : State), s.Inv → hostAction a s = .next t → t.Inv

/-- Every CPU register is 0 after reset: execution starts at 0, Running, both flags clear (10_state.md R43). -/
def Obligations.ResetZeroesTheCpu : Prop :=
  State.reset.LaunchCpu ∧ State.reset.z = false ∧ State.reset.ov = false ∧ State.reset.running = true

/-! ## Host actions -/

/-- The two ways out of Faulted: `ClearFault()` clears `fault` and changes nothing else, and the next step then runs the
word at the current `pc` (60_exceptions.md R316); `Reset()` zeroes the eight CPU registers and changes nothing else, neither
memory nor ports nor connections (R317). -/
def Obligations.ClearFaultAndResetLeaveFaulted : Prop :=
  ∀ s : State,
    hostAction .clearFault s = .next { s with fault := 0 } ∧
    (s.allocated = true → s.pc.toNat + 1 < s.memCapacity →
      let w := wordOfBytes (s.mem.read s.pc.toNat) (s.mem.read (s.pc.toNat + 1))
      step { s with fault := 0 } = execWord w
        { s with
          fault := 0, ir := w, pc := s.pc + 2, ports := s.settle.pollPhase.ports, ticks := s.ticks + 1
          polls := s.polls.tail }) ∧
    hostAction .reset s =
      .next { s with pc := 0, sr := 0, lr := 0, r0 := 0, r1 := 0, ir := 0, sp := 0, fault := 0 }

/-- `Connect(d, p)` succeeds exactly when the port exists and is free and the device is unconnected, and then writes both
ends of the connection (45_device_port.md R257). `Disconnect(d)` of a connected device forces the port back to the neutral
state, busy or not, and clears both ends (R258). Each changes nothing else, the device's speed and the port's capacity
included, and nothing at all where it fails. That either fails for a device that does not exist is the model's reading
(assumption 18). -/
def Obligations.ConnectAndDisconnectWriteBothEnds : Prop :=
  (∀ (s : State) (d : DeviceId) (a : PortAddr) (dev : Device), deviceAt s.devices d = some dev →
    (∀ p, s.portAt a = some p → p.dev = none → dev.conn = none →
      ∃ t, hostAction (.connect d a) s = .next t ∧
        t = { s with ports := t.ports, devices := t.devices } ∧
        t.portAt a = some { p with dev := some d } ∧ (∀ b, b ≠ a → t.portAt b = s.portAt b) ∧
        deviceAt t.devices d = some { dev with conn := some a } ∧
        (∀ e, e ≠ d → deviceAt t.devices e = deviceAt s.devices e)) ∧
    ((s.portAt a = none ∨ (∃ p, s.portAt a = some p ∧ p.dev ≠ none) ∨ dev.conn ≠ none) →
      hostAction (.connect d a) s = .next s)) ∧
  (∀ (s : State) (d : DeviceId) (dev : Device), deviceAt s.devices d = some dev →
    (∀ a p, dev.conn = some a → s.portAt a = some p →
      ∃ t, hostAction (.disconnect d) s = .next t ∧
        t = { s with ports := t.ports, devices := t.devices } ∧
        t.portAt a = some { p with
          dev := none, owner := none, busy := false, exhausted := false, data := [], rpos := 0 } ∧
        (∀ b, b ≠ a → t.portAt b = s.portAt b) ∧
        deviceAt t.devices d = some { dev with conn := none } ∧
        (∀ e, e ≠ d → deviceAt t.devices e = deviceAt s.devices e)) ∧
    (dev.conn = none → hostAction (.disconnect d) s = .next s)) ∧
  (∀ (s : State) (d : DeviceId) (a : PortAddr), deviceAt s.devices d = none →
    hostAction (.connect d a) s = .next s ∧ hostAction (.disconnect d) s = .next s)

/-- A launch: memory allocated on a created Mainboard, then an image that fits loaded, gives a state that meets the
launch premises with nothing connected, the ports and devices those created, and every byte outside the image as the
environment gave it; connecting the initial devices then gives one that meets them with that `CONNECTION`, memory as it
was (70_reset_and_hazards.md R330 to R333, R336; that the allocation takes the contents as an argument is the model's
choice, assumption 2). `LP_DEVICES` is a premise on what the devices do in a run, which a launch leaves open
(45_device_port.md R262). -/
def Obligations.LaunchMeetsItsPremises : Prop :=
  ∀ (ports : List (PortAddr × Nat)) (devices : List (DeviceId × Nat)) (n : Nat) (contents : List Byte)
    (image : List Word), n ≤ 65536 → 2 * image.length ≤ n →
    ∃ s t, hostAction (.allocate n true contents) (State.created ports devices) = .next s ∧
      hostAction (.loadImage image) s = .next t ∧
      t.LaunchMemory n ∧ t.LaunchImage image ∧ t.LaunchCpu ∧ t.LaunchPorts ports devices [] ∧
      t.ports = (State.created ports devices).ports ∧ t.devices = (State.created ports devices).devices ∧
      (∀ a b, 2 * image.length ≤ a → a < n → contents[a]? = some b → t.mem.read a = b) ∧
      ∀ connection : List (DeviceId × PortAddr), (ports.map fun e => e.1).Pairwise (· < ·) →
        (devices.map fun e => e.1).Pairwise (· < ·) → Connects ports devices connection →
        ∃ u, hostActions (connection.map fun c => .connect c.1 c.2) t = some u ∧
          u = { t with ports := u.ports, devices := u.devices } ∧ u.LaunchPorts ports devices connection

/-- Allocation happens once and before the first tick; when it fails, or asks for more than 65536 bytes, the capacity is
0 (70_reset_and_hazards.md R332). That another allocation is refused is the model's form of
93_implementation_defined.md I18 (assumption 9). -/
def Obligations.AllocationHappensOnce : Prop :=
  ∀ (s : State) (n : Nat) (granted : Bool) (contents : List Byte),
    (s.allocated = true ∨ s.ticks ≠ 0 →
      hostAction (.allocate n granted contents) s = .refused .allocationOutOfTurn) ∧
    (s.allocated = false → s.ticks = 0 →
      ∃ t, hostAction (.allocate n granted contents) s = .next t ∧ t.allocated = true ∧
        t.memCapacity = if granted = true ∧ n ≤ 65536 then n else 0)

/-! ## The memory store -/

/-- `ReadByte` and `WriteByte` succeed exactly below the capacity; a write changes one byte (20_memory.md R72, R73). -/
def Obligations.ByteAccessesCheckTheCapacity : Prop :=
  ∀ (s : State) (a : Nat) (b : Byte),
    (a < s.memCapacity → s.readByte a = some (s.mem.read a) ∧
      ∃ t, s.writeByte a b = some t ∧ t = { s with mem := t.mem } ∧
        t.mem.read a = b ∧ ∀ c, c ≠ a → t.mem.read c = s.mem.read c) ∧
    (s.memCapacity ≤ a → s.readByte a = none ∧ s.writeByte a b = none)

/-- `ReadWord` and `WriteWord`: little-endian, at any address, and they fail unless the whole word fits, a failed write
writing neither byte; at 0xFFFF both always fail; a word written is the word read back (20_memory.md R74, R75, R80). -/
def Obligations.WordAccessesAreLittleEndian : Prop :=
  ∀ (s : State) (a : Nat) (w : Word),
    (a + 1 < s.memCapacity →
      (∃ v, s.readWord a = some v ∧ v.toNat = (s.mem.read a).toNat + 256 * (s.mem.read (a + 1)).toNat) ∧
      ∃ t, s.writeWord a w = some t ∧ t = { s with mem := t.mem } ∧
        (t.mem.read a).toNat = w.toNat % 256 ∧ (t.mem.read (a + 1)).toNat = w.toNat / 256 ∧
        (∀ c, c ≠ a → c ≠ a + 1 → t.mem.read c = s.mem.read c) ∧ t.readWord a = some w) ∧
    (s.memCapacity ≤ a + 1 → s.readWord a = none ∧ s.writeWord a w = none) ∧
    (s.memCapacity ≤ 65536 → s.readWord 0xFFFF = none ∧ s.writeWord 0xFFFF w = none)

/-- When the block range check holds every byte access of the transfer succeeds, and it holds exactly when the block is
empty or its last byte exists (20_memory.md R79). -/
def Obligations.BlockRangeCheckCoversEveryByte : Prop :=
  ∀ (s : State) (a : Word) (c : Nat),
    (s.inRange a c = true ↔ c = 0 ∨ a.toNat + c - 1 < s.memCapacity) ∧
    (s.inRange a c = true → ∀ k, k < c →
      (s.readByte (a.toNat + k)).isSome = true ∧ ∀ b, (s.writeByte (a.toNat + k) b).isSome = true)

/-- The effective address of LD and ST and the target of CBX, as integers modulo 65536 (44_load_store_stack.md R222;
43_control.md R210). -/
def Obligations.AddressesWrapModulo65536 : Prop :=
  ∀ (s : State) (rb : Reg) (off7 : BitVec 7) (off8 : BitVec 8),
    ((s.effectiveAddress rb off7).toNat : Int) = ((s.x rb).toNat + off7.toInt) % 65536 ∧
    ((s.branchTarget off8).toNat : Int) = (s.pc.toNat + 2 * off8.toInt) % 65536

/-! ## Arithmetic (41_arithmetic.md) -/

/-- ADD completes with the truncated sum, `Z` and the unsigned carry, SUB with the wrapped difference, `Z` and the
unsigned borrow (R170, R171), and neither changes anything else. -/
def Obligations.AddAndSubWriteResultAndFlags : Prop :=
  ∀ (rs rd : Reg) (lit : BitVec 8) (s : State),
    let a := (s.x rd).toNat
    let b := if rs = rd then lit.toNat else (s.x rs).toNat
    (∃ t, exec (.add rs rd lit) s = .next t ∧ (t.x rd).toNat = (a + b) % 65536 ∧
      FlagsAre ((a + b) % 65536 = 0) (65535 < a + b) s t ∧ RegisterFrame [rd] s t) ∧
    (∃ t, exec (.sub rs rd lit) s = .next t ∧ ((t.x rd).toNat : Int) = ((a : Int) - b) % 65536 ∧
      FlagsAre (a = b) (a < b) s t ∧ RegisterFrame [rd] s t)

/-- MUL completes with the low half of the unsigned product and `OV` set when it needs more than 16 bits (R172), MULS with
the signed product modulo 65536 and `OV` set when it does not fit the signed range (R173); neither changes anything
else. -/
def Obligations.MulAndMulsWriteLowProductAndFlags : Prop :=
  ∀ (rs rd : Reg) (lit : BitVec 7) (s : State),
    (let a := (s.x rd).toNat
      let b := if rs = rd then lit.toNat else (s.x rs).toNat
      ∃ t, exec (.mul rs rd lit) s = .next t ∧ (t.x rd).toNat = a * b % 65536 ∧
        FlagsAre (a * b % 65536 = 0) (65535 < a * b) s t ∧ RegisterFrame [rd] s t) ∧
    (let a := (s.x rd).toInt
      let b := if rs = rd then lit.toInt else (s.x rs).toInt
      ∃ t, exec (.muls rs rd lit) s = .next t ∧ ((t.x rd).toNat : Int) = a * b % 65536 ∧
        FlagsAre (a * b % 65536 = 0) (a * b < -32768 ∨ 32767 < a * b) s t ∧ RegisterFrame [rd] s t)

/-- DIV by a divisor that is not 0 completes with the quotient rounded down and `OV` clear (R174), and changes nothing
else. -/
def Obligations.DivWritesFloorQuotient : Prop :=
  ∀ (rs rd : Reg) (lit : BitVec 7) (s : State),
    let a := (s.x rd).toNat
    let b := if rs = rd then lit.toNat else (s.x rs).toNat
    b ≠ 0 → ∃ t, exec (.div rs rd lit) s = .next t ∧ (t.x rd).toNat = a / b ∧
      FlagsAre (a / b = 0) False s t ∧ RegisterFrame [rd] s t

/-- DIVS by a divisor that is not 0 completes with the quotient truncated toward zero; `OV` is set only for −32768 by −1
(R175), and nothing else changes. -/
def Obligations.DivsWritesTruncatedQuotient : Prop :=
  ∀ (rs rd : Reg) (lit : BitVec 7) (s : State),
    let a := (s.x rd).toInt
    let b := if rs = rd then lit.toInt else (s.x rs).toInt
    b ≠ 0 → ∃ t, exec (.divs rs rd lit) s = .next t ∧ ((t.x rd).toNat : Int) = a.tdiv b % 65536 ∧
      FlagsAre (a.tdiv b = 0) (a = -32768 ∧ b = -1) s t ∧ RegisterFrame [rd] s t

/-- DIV and DIVS by 0 raise DIVISION_BY_ZERO and change nothing else (R174, R175). -/
def Obligations.DivisionByZeroOnlyRaisesTheFault : Prop :=
  ∀ (rs rd : Reg) (lit : BitVec 7) (s : State), (if rs = rd then lit = 0 else s.x rs = 0) →
    exec (.div rs rd lit) s = .next { s with fault := 5 } ∧ exec (.divs rs rd lit) s = .next { s with fault := 5 }

/-! ## Assign, shift, bitwise (42_assign_shift_bitwise.md) -/

/-- ASGN completes with the operand in the destination and no flag written (R190), and changes nothing else. -/
def Obligations.AsgnCopiesItsOperand : Prop :=
  ∀ (rs rd : Reg) (lit : BitVec 8) (s : State),
    ∃ t, exec (.asgn rs rd lit) s = .next t ∧
      (t.x rd).toNat = (if rs = rd then lit.toNat else (s.x rs).toNat) ∧ t.sr = s.sr ∧ RegisterFrame [rd] s t

/-- SHFT completes with the value times or divided by the power of two, bits shifted out lost and zeros filled in, for
every signed count; `OV` says that a 1 bit was shifted out (R191), and nothing else changes. -/
def Obligations.ShftShiftsByTheSignedCount : Prop :=
  ∀ (rs rd : Reg) (amt : BitVec 5) (s : State),
    let v := (s.x rd).toNat
    let n := if rs = rd then amt.toInt else (s.x rs).toInt
    let r := if 0 ≤ n then v * 2 ^ n.toNat % 65536 else v / 2 ^ (-n).toNat
    ∃ t, exec (.shft rs rd amt) s = .next t ∧ (t.x rd).toNat = r ∧
      FlagsAre (r = 0) (if 0 ≤ n then 65536 ≤ v * 2 ^ n.toNat else v % 2 ^ (-n).toNat ≠ 0) s t ∧
      RegisterFrame [rd] s t

/-- AND, OR and XOR complete with the bitwise result of `Rd` and the second operand, which in literal form has the one
bit `IDX` set; `OV` is clear (R192, R193, R194, R196), and nothing else changes. -/
def Obligations.AndOrXorWorkBitByBit : Prop :=
  ∀ (rs rd : Reg) (idx : BitVec 4) (s : State),
    let b : Nat → Bool := fun k => if rs = rd then decide (k = idx.toNat) else (s.x rs).getLsbD k
    (∃ t, exec (.bitAnd rs rd idx) s = .next t ∧
      (∀ k, k < 16 → (t.x rd).getLsbD k = ((s.x rd).getLsbD k && b k)) ∧
      FlagsAre (t.x rd = 0) False s t ∧ RegisterFrame [rd] s t) ∧
    (∃ t, exec (.bitOr rs rd idx) s = .next t ∧
      (∀ k, k < 16 → (t.x rd).getLsbD k = ((s.x rd).getLsbD k || b k)) ∧
      FlagsAre (t.x rd = 0) False s t ∧ RegisterFrame [rd] s t) ∧
    (∃ t, exec (.bitXor rs rd idx) s = .next t ∧
      (∀ k, k < 16 → (t.x rd).getLsbD k = ((s.x rd).getLsbD k != b k)) ∧
      FlagsAre (t.x rd = 0) False s t ∧ RegisterFrame [rd] s t)

/-- NOT completes with the complement of the source in both forms; `Z` is set exactly when the source was 0xFFFF
(R195, R196), and nothing else changes. -/
def Obligations.NotComplementsItsSource : Prop :=
  ∀ (rs rd : Reg) (s : State),
    ∃ t, exec (.bitNot rs rd) s = .next t ∧ (t.x rd).toNat = 65535 - (s.x rs).toNat ∧
      FlagsAre ((s.x rs).toNat = 65535) False s t ∧ RegisterFrame [rd] s t

/-! ## Control (43_control.md) -/

/-- CBX completes: taken, it goes to the target and links when LNK is set; not taken, it changes nothing (R210, R211).
NOP completes and changes nothing, `pc` having advanced in the fetch (R212). -/
def Obligations.CbxBranchesOnItsConditionAndNopDoesNothing : Prop :=
  (∀ (lnk neg : Bool) (cond : Cond) (off : BitVec 8) (s : State),
    let flag : Bool := match cond with
      | .al => true
      | .z => s.sr.getLsbD 0
      | .ov => s.sr.getLsbD 1
    ∃ t, exec (.cbx lnk cond neg off) s = .next t ∧
      (flag ≠ neg → (t.pc.toNat : Int) = (s.pc.toNat + 2 * off.toInt) % 65536 ∧
        t.lr = (if lnk then s.pc else s.lr)) ∧
      (flag = neg → t = s) ∧ t.sr = s.sr ∧ RegisterFrame [.lr, .pc] s t) ∧
  (∀ s : State, exec .nop s = .next s)

/-! ## Load, store, stack (44_load_store_stack.md) -/

/-- LD of a word that fits completes with it in the target, the byte at the lower address in the low half (R220), and
changes nothing else; LD of one that does not fit only raises INVALID_LOAD. -/
def Obligations.LdLoadsTheWordAtItsAddress : Prop :=
  ∀ (rb rt : Reg) (off : BitVec 7) (s : State),
    let ea := (s.effectiveAddress rb off).toNat
    (ea + 1 < s.memCapacity → ∃ t, exec (.ld rb rt off) s = .next t ∧
      (t.x rt).toNat = (s.mem.read ea).toNat + 256 * (s.mem.read (ea + 1)).toNat ∧
      t.sr = s.sr ∧ RegisterFrame [rt] s t) ∧
    (s.memCapacity ≤ ea + 1 → exec (.ld rb rt off) s = .next { s with fault := 2 })

/-- ST of a word that fits completes with its two bytes stored and every other byte, register and flag unchanged (R221);
ST of one that does not fit only raises INVALID_STORE. -/
def Obligations.StStoresTheWordAtItsAddress : Prop :=
  ∀ (rb rt : Reg) (off : BitVec 7) (s : State),
    let ea := (s.effectiveAddress rb off).toNat
    (ea + 1 < s.memCapacity → ∃ t, exec (.st rb rt off) s = .next t ∧
      (t.mem.read ea).toNat = (s.x rt).toNat % 256 ∧ (t.mem.read (ea + 1)).toNat = (s.x rt).toNat / 256 ∧
      MemKeptOutside ea 2 s t ∧ RegsKept [] s t ∧ t.sr = s.sr ∧ t.sp = s.sp ∧ t.ports = s.ports ∧ RestKept s t) ∧
    (s.memCapacity ≤ ea + 1 → exec (.st rb rt off) s = .next { s with fault := 3 })

/-- A word that ST stores over the word at `pc` is the word the next fetch gives (20_memory.md R87). -/
def Obligations.StoreIsSeenByTheNextFetch : Prop :=
  ∀ (rb rt : Reg) (off : BitVec 7) (s t : State), s.fault = 0 → s.effectiveAddress rb off = s.pc →
    s.pc.toNat + 1 < s.memCapacity → exec (.st rb rt off) s = .next t →
    t.fetch.2 = some (s.x rt) ∧ t.fetch.1.ir = s.x rt ∧ t.fetch.1.pc = s.pc + 2

/-- PUSH of words that all fit completes: the registers of the mask, ascending, at the addresses below `sp`, `sp` below
them, and every other byte, register and flag unchanged (R225). -/
def Obligations.PushStoresTheListedRegisters : Prop :=
  ∀ (mask : BitVec 4) (s : State),
    let regs := maskRegs mask
    let slot : Nat → Nat := fun k => (s.sp - 2#16 * BitVec.ofNat 16 (k + 1)).toNat
    (∀ k, k < regs.length → slot k + 1 < s.memCapacity) →
    ∃ t, exec (.push mask) s = .next t ∧ t.sp = s.sp - 2#16 * BitVec.ofNat 16 regs.length ∧
      (∀ k r, regs[k]? = some r →
        (t.mem.read (slot k)).toNat = (s.x r).toNat % 256 ∧ (t.mem.read (slot k + 1)).toNat = (s.x r).toNat / 256) ∧
      (∀ a, (∀ k, k < regs.length → a ≠ slot k ∧ a ≠ slot k + 1) → t.mem.read a = s.mem.read a) ∧
      RegsKept [] s t ∧ t.sr = s.sr ∧ t.ports = s.ports ∧ RestKept s t

/-- PUSH stops with INVALID_STORE at the first word that does not fit; the words pushed before it stay written and `sp`
stays at the last of them (R225; 92_eei_decisions.md D42). -/
def Obligations.PushStopsAtTheFirstWordThatDoesNotFit : Prop :=
  ∀ (mask : BitVec 4) (s : State) (n : Nat),
    let regs := maskRegs mask
    let slot : Nat → Nat := fun k => (s.sp - 2#16 * BitVec.ofNat 16 (k + 1)).toNat
    n < regs.length → (∀ k, k < n → slot k + 1 < s.memCapacity) → s.memCapacity ≤ slot n + 1 →
    ∃ t, exec (.push mask) s = .next t ∧ t.fault = 3 ∧ t.sp = s.sp - 2#16 * BitVec.ofNat 16 n ∧
      (∀ k r, k < n → regs[k]? = some r →
        (t.mem.read (slot k)).toNat = (s.x r).toNat % 256 ∧ (t.mem.read (slot k + 1)).toNat = (s.x r).toNat / 256) ∧
      (∀ a, (∀ k, k < n → a ≠ slot k ∧ a ≠ slot k + 1) → t.mem.read a = s.mem.read a) ∧
      RegsKept [] s t ∧ t.sr = s.sr ∧ t.ports = s.ports ∧ RestKept s { t with fault := s.fault }

/-- POP of words that all fit completes: the registers of the mask, descending, from the addresses at `sp` upward, `sp`
above them, and every other register, flag and byte unchanged (R224). -/
def Obligations.PopLoadsTheListedRegisters : Prop :=
  ∀ (mask : BitVec 4) (s : State),
    let regs := (maskRegs mask).reverse
    let slot : Nat → Nat := fun k => (s.sp + 2#16 * BitVec.ofNat 16 k).toNat
    (∀ k, k < regs.length → slot k + 1 < s.memCapacity) →
    ∃ t, exec (.pop mask) s = .next t ∧ t.sp = s.sp + 2#16 * BitVec.ofNat 16 regs.length ∧
      (∀ k r, regs[k]? = some r →
        (t.x r).toNat = (s.mem.read (slot k)).toNat + 256 * (s.mem.read (slot k + 1)).toNat) ∧
      RegsKept regs s t ∧ t.sr = s.sr ∧ MemKept s t ∧ t.ports = s.ports ∧ RestKept s t

/-- POP stops with INVALID_LOAD at the first word that does not fit; the registers popped before it keep their new values
and `sp` stays past the last of them (R224; 92_eei_decisions.md D42). -/
def Obligations.PopStopsAtTheFirstWordThatDoesNotFit : Prop :=
  ∀ (mask : BitVec 4) (s : State) (n : Nat),
    let regs := (maskRegs mask).reverse
    let slot : Nat → Nat := fun k => (s.sp + 2#16 * BitVec.ofNat 16 k).toNat
    n < regs.length → (∀ k, k < n → slot k + 1 < s.memCapacity) → s.memCapacity ≤ slot n + 1 →
    ∃ t, exec (.pop mask) s = .next t ∧ t.fault = 2 ∧ t.sp = s.sp + 2#16 * BitVec.ofNat 16 n ∧
      (∀ k r, k < n → regs[k]? = some r →
        (t.x r).toNat = (s.mem.read (slot k)).toNat + 256 * (s.mem.read (slot k + 1)).toNat) ∧
      RegsKept (regs.take n) s t ∧ t.sr = s.sr ∧ MemKept s t ∧ t.ports = s.ports ∧
      RestKept s { t with fault := s.fault }

/-- A POP with the mask of an earlier PUSH restores every listed register and `sp`, whatever the registers became in
between (R224). -/
def Obligations.PopAfterPushRestoresTheRegisters : Prop :=
  ∀ (mask : BitVec 4) (s t u : State),
    (∀ k, k < (maskRegs mask).length →
      (s.sp - 2#16 * BitVec.ofNat 16 (k + 1)).toNat + 1 < s.memCapacity) →
    exec (.push mask) s = .next t → u.mem = t.mem → u.sp = t.sp → u.memCapacity = t.memCapacity →
    ∃ v, exec (.pop mask) u = .next v ∧ v.sp = s.sp ∧ (∀ r ∈ maskRegs mask, v.x r = s.x r) ∧ v.fault = u.fault

/-- SPGET copies `sp` to its register and SPSET its register to `sp`; nothing else changes (R226, R227). -/
def Obligations.SpgetAndSpsetCopyTheStackPointer : Prop :=
  ∀ (r : Reg) (s : State),
    (∃ t, exec (.spget r) s = .next t ∧ t.x r = s.sp ∧ t.sr = s.sr ∧ RegisterFrame [r] s t) ∧
    (∃ t, exec (.spset r) s = .next t ∧ t.sp = s.x r ∧ RegsKept [] s t ∧ t.sr = s.sr ∧ MemKept s t ∧
      t.ports = s.ports ∧ RestKept s t)

/-! ## Ports (45_device_port.md) -/

/-- On a port that keeps the invariants, a read passes its checks exactly when the port is readable, a write exactly
when it is writeable (R244, R245, R250, R251). -/
def Obligations.ChecksPassExactlyWhenTheQueriesHold : Prop :=
  ∀ (p : Port) (side : Side), p.Sound →
    (p.readCheck side = none ↔
      p.dev ≠ none ∧ p.busy = false ∧ p.owner = some side.other ∧ p.rpos < p.data.length) ∧
    (p.isReadableAndNotBusy side = true ↔
      p.dev ≠ none ∧ p.busy = false ∧ p.owner = some side.other ∧ p.rpos < p.data.length) ∧
    (p.writeCheck side = none ↔
      p.dev ≠ none ∧ p.busy = false ∧ (p.owner = none ∨ (p.owner = some side ∧ p.exhausted = false))) ∧
    (p.isWriteableAndNotBusy side = true ↔
      p.dev ≠ none ∧ p.busy = false ∧ (p.owner = none ∨ (p.owner = some side ∧ p.exhausted = false)))

/-- A read answers ok exactly when the port is connected, not busy, owned by the other side, not exhausted and not read to
its end; a write exactly when it is connected, not busy and unowned, or owned by that side and not exhausted; a relinquish
exactly when it is connected, owned by that side, not busy and exhausted. Each fails with the reason of the first check
that fails (R247, R250, R251, R253). A read consumes the next bytes and sets `exhausted` exactly when it takes the last one
(R250, R252). A write places what fits: for no byte it changes nothing, else it appends them, owns the mailbox and sets
`busy` (R251). A relinquish gives an empty mailbox to the other side (R253). -/
def Obligations.ReadConsumesAndWriteAppends : Prop :=
  (∀ (p : Port) (side : Side) (n : Nat),
    (p.dev = none → p.read side n = .error .notConnected) ∧
    (p.dev ≠ none → p.busy = true → p.read side n = .error .busy) ∧
    (p.dev ≠ none → p.busy = false → p.owner ≠ some side.other → p.read side n = .error .notReadable) ∧
    (p.dev ≠ none → p.busy = false → p.owner = some side.other →
      (p.exhausted = true → p.read side n = .error .exhausted) ∧
      (p.exhausted = false → p.rpos = p.data.length → p.read side n = .error .notReadable) ∧
      (p.exhausted = false → p.rpos ≠ p.data.length → ∃ q bytes, p.read side n = .ok (q, bytes)))) ∧
  (∀ (p : Port) (side : Side) (n : Nat) (q : Port) (bytes : List Byte), p.Sound → p.read side n = .ok (q, bytes) →
    bytes = (p.data.drop p.rpos).take n ∧
    q = { p with rpos := p.rpos + min n (p.data.length - p.rpos), exhausted := q.exhausted } ∧
    (q.exhausted = true ↔ q.rpos = p.data.length)) ∧
  (∀ (p : Port) (side : Side) (bytes : List Byte),
    (p.dev = none → p.write side bytes = .error .notConnected) ∧
    (p.dev ≠ none → p.busy = true → p.write side bytes = .error .busy) ∧
    (p.dev ≠ none → p.busy = false →
      (p.owner = some side.other → p.write side bytes = .error .notOwned) ∧
      (p.owner = some side → p.exhausted = true → p.write side bytes = .error .exhausted) ∧
      (p.owner = none ∨ (p.owner = some side ∧ p.exhausted = false) → ∃ q c, p.write side bytes = .ok (q, c)))) ∧
  (∀ (p : Port) (side : Side) (bytes : List Byte) (q : Port) (c : Nat), p.write side bytes = .ok (q, c) →
    c = min bytes.length (p.capacity - p.data.length) ∧ (c = 0 → q = p) ∧
    (0 < c → q = { p with data := p.data ++ bytes.take c, owner := some side, busy := true })) ∧
  (∀ (p : Port) (side : Side),
    (p.dev = none → p.relinquish side = .error .notConnected) ∧
    (p.dev ≠ none → p.owner ≠ some side → p.relinquish side = .error .notOwned) ∧
    (p.dev ≠ none → p.owner = some side →
      (p.busy = true → p.relinquish side = .error .busy) ∧
      (p.busy = false → p.exhausted = false → p.relinquish side = .error .notExhausted) ∧
      (p.busy = false → p.exhausted = true → p.relinquish side =
        .ok { p with owner := some side.other, busy := false, exhausted := false, data := [], rpos := 0 })))

/-- A device's call with a byte budget left. A read or write that passes its checks moves the least of what is asked, what
is available and the budget, changes the port by exactly that and lowers the budget by it; with none to move the port is as
before. A relinquish and a query cost nothing, and a query answers as the program's would for the device's side and changes
nothing. A call that fails changes nothing and gives the device the reason (R241, R244 to R246, R256, R259, R261, R262). -/
def Obligations.DeviceCallsActWithinTheBudget : Prop :=
  (∀ (p : Port) (budget n : Nat), p.dev ≠ none → p.busy = false → p.owner = some .program → p.exhausted = false →
    p.rpos < p.data.length →
    let c := min n (min (p.data.length - p.rpos) budget)
    p.deviceCall budget (.read n) =
      ({ p with rpos := p.rpos + c, exhausted := decide (p.rpos + c = p.data.length) }, budget - c,
        .got ((p.data.drop p.rpos).take c)) ∧
    ((p.data.drop p.rpos).take c).length = c) ∧
  (∀ (p : Port) (budget : Nat) (bytes : List Byte), p.dev ≠ none → p.busy = false →
    p.owner = none ∨ (p.owner = some .device ∧ p.exhausted = false) →
    let c := min bytes.length (min (p.capacity - p.data.length) budget)
    p.deviceCall budget (.write bytes) =
      (if c = 0 then p else { p with data := p.data ++ bytes.take c, owner := some .device, busy := true }, budget - c,
        .wrote c)) ∧
  (∀ (p : Port) (budget : Nat), p.dev ≠ none → p.owner = some .device → p.busy = false → p.exhausted = true →
    p.deviceCall budget .relinquish =
      ({ p with owner := some .program, busy := false, exhausted := false, data := [], rpos := 0 }, budget, .done)) ∧
  (∀ (p : Port) (budget n : Nat) (bytes : List Byte) (reason : PortFail),
    (p.read .device n = .error reason → p.deviceCall budget (.read n) = (p, budget, .failed reason)) ∧
    (p.write .device bytes = .error reason → p.deviceCall budget (.write bytes) = (p, budget, .failed reason)) ∧
    (p.relinquish .device = .error reason → p.deviceCall budget .relinquish = (p, budget, .failed reason))) ∧
  (∀ (p : Port) (budget : Nat), p.Sound →
    let answers (call : DeviceCall) (holds : Prop) : Prop :=
      ∃ b, p.deviceCall budget call = (p, budget, .flag b) ∧ (b = true ↔ holds)
    answers .isConnected (p.dev ≠ none) ∧ answers .isBusy (p.busy = true) ∧ answers .isExhausted (p.exhausted = true) ∧
    answers .isControlledByProgram (p.owner = some .program) ∧
    answers .isControlledByDevice (p.owner = some .device) ∧
    answers .isReadableAndNotBusy
      (p.dev ≠ none ∧ p.busy = false ∧ p.owner = some .program ∧ p.rpos < p.data.length) ∧
    answers .isWriteableAndNotBusy
      (p.dev ≠ none ∧ p.busy = false ∧ (p.owner = none ∨ (p.owner = some .device ∧ p.exhausted = false))) ∧
    p.deviceCall budget .usableByteCount = (p, budget, .usable (
      if p.dev = none ∨ p.busy = true then 0
      else match p.owner with
        | none => p.capacity
        | some .device => if p.exhausted = true then 0 else p.capacity - p.data.length
        | some .program => p.data.length - p.rpos)))

/-- The transitions of the port state machine: a write that places a byte fills, settling makes ready, a read keeps ready
or drains, a relinquish hands an empty mailbox to the other side (R254). -/
def Obligations.PortStateMachineTransitions : Prop :=
  ∀ (p : Port) (side : Side) (phase : PortPhase), p.phase = some phase → p.data.length ≤ p.capacity →
    (∀ bytes q c, p.write side bytes = .ok (q, c) → 0 < c →
      (phase = .neutral ∨ phase = .empty side ∨ phase = .ready side) ∧ q.phase = some (.filled side)) ∧
    (phase = .filled side → { p with busy := false : Port }.phase = some (.ready side)) ∧
    (∀ n q bytes, p.read side n = .ok (q, bytes) → phase = .ready side.other ∧
      q.phase = some (if n < p.data.length - p.rpos then .ready side.other else .drained side.other)) ∧
    (∀ q, p.relinquish side = .ok q → phase = .drained side ∧ q.phase = some (.empty side.other))

/-- The owner of a port changes only by its owner's relinquish of an exhausted mailbox and by the first write to a
neutral port, each while `busy` is clear: in an instruction by the program's SIG on its own port, in a poll by the
device's call (R255). -/
def Obligations.OwnershipMovesOnlyAsRuled : Prop :=
  (∀ (i : Instr) (s t : State) (a : PortAddr) (p q : Port), exec i s = .next t → s.portAt a = some p →
    t.portAt a = some q → q.owner ≠ p.owner →
    a = s.r0 ∧ p.busy = false ∧
    ((i = .sigRelinquish ∧ p.exhausted = true ∧ p.owner = some .program ∧ q.owner = some .device) ∨
      ((∃ cnt, i = .sigWrite cnt) ∧ p.owner = none ∧ q.owner = some .program))) ∧
  (∀ (p : Port) (budget : Nat) (call : DeviceCall), (p.deviceCall budget call).1.owner ≠ p.owner →
    p.busy = false ∧
    ((call = .relinquish ∧ p.exhausted = true ∧ p.owner = some .device ∧
        (p.deviceCall budget call).1.owner = some .program) ∨
      ((∃ bytes, call = .write bytes) ∧ p.owner = none ∧ (p.deviceCall budget call).1.owner = some .device)))

/-! ## SIG (46_sig.md) -/

/-- SIG.QUERY of a port completes with the status word in `lr`, bit by bit, `Z` set exactly when the port is unconnected,
`OV` clear (R281, R287), and changes nothing else. -/
def Obligations.SigQueryReportsThePort : Prop :=
  ∀ (s : State) (p : Port), s.portAt s.r0 = some p → p.Sound →
    ∃ t, exec .sigQuery s = .next t ∧
      (t.lr.getLsbD 0 = true ↔ p.dev ≠ none) ∧ t.lr.getLsbD 1 = p.busy ∧ t.lr.getLsbD 2 = p.exhausted ∧
      (t.lr.getLsbD 3 = true ↔ p.owner = some .program) ∧ (t.lr.getLsbD 4 = true ↔ p.owner = some .device) ∧
      (t.lr.getLsbD 5 = true ↔ p.dev ≠ none ∧ p.busy = false ∧ p.owner = some .device ∧ p.rpos < p.data.length) ∧
      (t.lr.getLsbD 6 = true ↔
        p.dev ≠ none ∧ p.busy = false ∧ (p.owner = none ∨ (p.owner = some .program ∧ p.exhausted = false))) ∧
      (∀ k, 7 ≤ k → t.lr.getLsbD k = false) ∧
      FlagsAre (p.dev = none) False s t ∧ RegisterFrame [.lr] s t

/-- SIG.USABLE of a port completes with the usable byte count in `lr` where it fits a word, `Z` set exactly when the count
is 0, which is when `lr` is 0, `OV` clear (R282; 45_device_port.md R246), and changes nothing else. Of `lr`'s value for a
count that does not fit nothing more is said (assumption 7). -/
def Obligations.SigUsableReportsTheCount : Prop :=
  ∀ (s : State) (p : Port), s.portAt s.r0 = some p →
    let count :=
      if p.dev = none ∨ p.busy = true then 0
      else match p.owner with
        | none => p.capacity
        | some .program => if p.exhausted = true then 0 else p.capacity - p.data.length
        | some .device => p.data.length - p.rpos
    ∃ t, exec .sigUsable s = .next t ∧ (count < 65536 → t.lr.toNat = count) ∧ (t.lr = 0 ↔ count = 0) ∧
      FlagsAre (count = 0) False s t ∧ RegisterFrame [.lr] s t

/-- SIG.RELINQUISH of a mailbox the program owns and the device has drained completes: the device owns it, empty; no
register, flag or byte of memory and no other port changes (R283). -/
def Obligations.SigRelinquishGivesTheMailboxAway : Prop :=
  ∀ (s : State) (p : Port), s.portAt s.r0 = some p → p.dev ≠ none → p.owner = some .program → p.busy = false →
    p.exhausted = true →
    ∃ t, exec .sigRelinquish s = .next t ∧
      t.portAt s.r0 = some { p with
        owner := some .device, busy := false, exhausted := false, data := [], rpos := 0 } ∧
      (∀ a, a ≠ s.r0 → t.portAt a = s.portAt a) ∧
      RegsKept [] s t ∧ t.sr = s.sr ∧ t.sp = s.sp ∧ MemKept s t ∧ RestKept s t

/-- SIG.READ of a readable port, its block in range, completes: the next unread bytes go to memory from `r1` on, in
mailbox order, their count to `lr`, `Z` set exactly when there was none; the port has consumed them; nothing else changes
(R284). -/
def Obligations.SigReadMovesBytesToMemory : Prop :=
  ∀ (s : State) (cnt : BitVec 8) (p : Port), s.portAt s.r0 = some p → p.dev ≠ none → p.busy = false →
    p.owner = some .device → p.exhausted = false → p.rpos < p.data.length →
    let c := min cnt.toNat (p.data.length - p.rpos)
    (c = 0 ∨ s.r1.toNat + c - 1 < s.memCapacity) →
    ∃ t, exec (.sigRead cnt) s = .next t ∧ t.lr.toNat = c ∧ FlagsAre (c = 0) False s t ∧
      t.portAt s.r0 = some { p with
        rpos := p.rpos + c, exhausted := decide (p.rpos + c = p.data.length) } ∧
      (∀ a, a ≠ s.r0 → t.portAt a = s.portAt a) ∧
      (∀ k, k < c → some (t.mem.read (s.r1.toNat + k)) = p.data[p.rpos + k]?) ∧
      MemKeptOutside s.r1.toNat c s t ∧ RegsKept [.lr] s t ∧ t.sp = s.sp ∧ RestKept s t

/-- SIG.WRITE to a writeable port, its block in range, completes: the bytes that fit are appended from memory from `r1`
on, in order, their count goes to `lr`, `Z` is set exactly when there was none; with at least one byte the program owns
the port and `busy` is set, with none the port is unchanged; nothing else changes (R285). -/
def Obligations.SigWriteMovesBytesToTheMailbox : Prop :=
  ∀ (s : State) (cnt : BitVec 8) (p : Port), s.portAt s.r0 = some p → p.dev ≠ none → p.busy = false →
    (p.owner = none ∨ (p.owner = some .program ∧ p.exhausted = false)) →
    let c := min cnt.toNat (p.capacity - p.data.length)
    (c = 0 ∨ s.r1.toNat + c - 1 < s.memCapacity) →
    ∃ t, exec (.sigWrite cnt) s = .next t ∧ t.lr.toNat = c ∧ FlagsAre (c = 0) False s t ∧
      t.portAt s.r0 = some (if c = 0 then p else { p with
        data := p.data ++ (List.range c).map fun k => s.mem.read (s.r1.toNat + k)
        owner := some .program
        busy := true }) ∧
      (∀ a, a ≠ s.r0 → t.portAt a = s.portAt a) ∧
      MemKept s t ∧ RegsKept [.lr] s t ∧ t.sp = s.sp ∧ RestKept s t

/-- SIG.RELINQUISH, SIG.READ and SIG.WRITE on a port that forbids them raise the fault of the first check that fails, in
the order of the table, and change nothing else; every SIG whose `r0` is no port address raises INVALID_PORT and changes
nothing else (60_exceptions.md R304; 46_sig.md R280, R283 to R286). -/
def Obligations.SigFaultsInTheOrderOfItsChecks : Prop :=
  (∀ (s : State) (cnt : BitVec 8), s.portAt s.r0 = none →
    ∀ i ∈ [Instr.sigQuery, .sigUsable, .sigRelinquish, .sigRead cnt, .sigWrite cnt],
      exec i s = .next { s with fault := 6 }) ∧
  ∀ (s : State) (cnt : BitVec 8) (p : Port), s.portAt s.r0 = some p →
    let raises (i : Instr) (code : Word) : Prop := exec i s = .next { s with fault := code }
    (p.dev = none →
      raises .sigRelinquish 7 ∧ raises (.sigRead cnt) 7 ∧ raises (.sigWrite cnt) 7) ∧
    (p.dev ≠ none → p.owner ≠ some .program → raises .sigRelinquish 10) ∧
    (p.dev ≠ none → p.owner = some .program → p.busy = true → raises .sigRelinquish 8) ∧
    (p.dev ≠ none → p.owner = some .program → p.busy = false → p.exhausted = false → raises .sigRelinquish 12) ∧
    (p.dev ≠ none → p.busy = true → raises (.sigRead cnt) 8 ∧ raises (.sigWrite cnt) 8) ∧
    (p.dev ≠ none → p.busy = false → p.owner ≠ some .device → raises (.sigRead cnt) 11) ∧
    (p.dev ≠ none → p.busy = false → p.owner = some .device → p.exhausted = true →
      raises (.sigRead cnt) 9 ∧ raises (.sigWrite cnt) 10) ∧
    (p.dev ≠ none → p.busy = false → p.owner = some .device → p.exhausted = false → p.rpos = p.data.length →
      raises (.sigRead cnt) 11) ∧
    (p.dev ≠ none → p.busy = false → p.owner = some .device → p.exhausted = false → p.rpos < p.data.length →
      0 < min cnt.toNat (p.data.length - p.rpos) →
      s.memCapacity ≤ s.r1.toNat + min cnt.toNat (p.data.length - p.rpos) - 1 → raises (.sigRead cnt) 3) ∧
    (p.dev ≠ none → p.busy = false → p.owner = some .device → raises (.sigWrite cnt) 10) ∧
    (p.dev ≠ none → p.busy = false → p.owner = some .program → p.exhausted = true → raises (.sigWrite cnt) 9) ∧
    (p.dev ≠ none → p.busy = false → (p.owner = none ∨ (p.owner = some .program ∧ p.exhausted = false)) →
      0 < min cnt.toNat (p.capacity - p.data.length) →
      s.memCapacity ≤ s.r1.toNat + min cnt.toNat (p.capacity - p.data.length) - 1 → raises (.sigWrite cnt) 2)

/-! ## Rules of the whole machine -/

/-- Faults are precise: an instruction other than PUSH and POP that raises a fault has changed nothing but `fault`
(60_exceptions.md R306). -/
def Obligations.FaultsArePreciseButForPushAndPop : Prop :=
  ∀ (i : Instr) (s t : State), s.fault = 0 → (∀ mask, i ≠ .push mask ∧ i ≠ .pop mask) → exec i s = .next t →
    t.fault ≠ 0 → t = { s with fault := t.fault }

/-- Each instruction raises only the codes that the table lists it for (60_exceptions.md R301). -/
def Obligations.InstructionsRaiseOnlyTheirCodes : Prop :=
  ∀ (i : Instr) (s t : State), exec i s = .next t → t.fault ≠ s.fault →
    t.fault.toNat ∈ (match i with
      | .div _ _ _ | .divs _ _ _ => [5]
      | .ld _ _ _ | .pop _ => [2]
      | .st _ _ _ | .push _ => [3]
      | .sigQuery | .sigUsable => [6]
      | .sigRelinquish => [6, 7, 8, 10, 12]
      | .sigRead _ => [3, 6, 7, 8, 9, 11]
      | .sigWrite _ => [2, 6, 7, 8, 9, 10]
      | _ => ([] : List Nat))

/-- Only the flag-setting instructions write `sr`, and one that faults leaves it (10_state.md R38). -/
def Obligations.OnlyFlagSettersWriteSr : Prop :=
  ∀ (i : Instr) (s t : State), exec i s = .next t → t.sr ≠ s.sr →
    t.fault = s.fault ∧
    (match i with
      | .add _ _ _ | .sub _ _ _ | .mul _ _ _ | .muls _ _ _ | .div _ _ _ | .divs _ _ _ | .shft _ _ _
      | .bitAnd _ _ _ | .bitOr _ _ _ | .bitXor _ _ _ | .bitNot _ _
      | .sigQuery | .sigUsable | .sigRead _ | .sigWrite _ => True
      | _ => False)

/-- An instruction that is no SIG neither sees nor changes the ports: with other ports it does the same
(60_exceptions.md R305; 10_state.md R57). -/
def Obligations.OnlySigSeesThePorts : Prop :=
  ∀ (i : Instr) (s t : State) (ports : PortMap),
    (i ≠ .sigQuery ∧ i ≠ .sigUsable ∧ i ≠ .sigRelinquish ∧ ∀ cnt, i ≠ .sigRead cnt ∧ i ≠ .sigWrite cnt) →
    exec i s = .next t → exec i { s with ports := ports } = .next { t with ports := ports }
end

