-- ==== Sys2Proof/Laws/Word.lean ====
section
/-! SUPPORT. Bits and numbers of the words that are put together from fields: instruction words, the status register,
words made of bytes. -/

namespace Sys2Proof

theorem word_getLsbD {n : Nat} (bits : BitVec n) (k : Nat) :
    (word bits).getLsbD k = (decide (k < 16) && bits.getLsbD k) := by
  simp [word]

theorem word_toNat {n : Nat} (bits : BitVec n) : (word bits).toNat = bits.toNat % 65536 := by simp [word]

/-- A field of a word as a number (00_scope.md R8). -/
theorem field_toNat (w : Word) (lo width : Nat) : (field w lo width).toNat = w.toNat / 2 ^ lo % 2 ^ width := by
  simp [field, Nat.shiftRight_eq_div_pow]

@[simp] theorem Reg.ofId_id (r : Reg) : Reg.ofId r.id = r := by cases r <;> rfl

theorem Reg.id_ofId (f : BitVec 2) : (Reg.ofId f).id = f := by revert f; decide

/-- A word made of two bytes, as a number: little-endian (20_memory.md R81). -/
theorem wordOfBytes_toNat (low high : Byte) : (wordOfBytes low high).toNat = low.toNat + 256 * high.toNat := by
  have h := Nat.two_pow_add_eq_or_of_lt low.isLt high.toNat
  have hl := low.isLt
  have hh := high.isLt
  simp only [wordOfBytes, BitVec.toNat_setWidth, BitVec.toNat_append, Nat.shiftLeft_eq]
  rw [Nat.mul_comm high.toNat, ← h]
  omega

theorem lowByte_toNat (w : Word) : (lowByte w).toNat = w.toNat % 256 := by
  simp [lowByte]

theorem highByte_toNat (w : Word) : (highByte w).toNat = w.toNat / 256 := by
  have h := w.isLt
  simp only [highByte, BitVec.extractLsb'_toNat, Nat.shiftRight_eq_div_pow]
  omega

/-- The two bytes of a word make it again (20_memory.md R74, R75). -/
@[simp] theorem wordOfBytes_bytes (w : Word) : wordOfBytes (lowByte w) (highByte w) = w := by
  apply BitVec.eq_of_toNat_eq
  have h := w.isLt
  rw [wordOfBytes_toNat, lowByte_toNat, highByte_toNat]
  omega

namespace Machine

/-- Every bit of the status register after a flag write (10_state.md R37). -/
theorem srWithFlags_getLsbD (sr : Word) (z ov : Bool) (k : Nat) :
    (srWithFlags sr z ov).getLsbD k = if k = 0 then z else if k = 1 then ov else sr.getLsbD k := by
  simp only [srWithFlags, word_getLsbD, BitVec.getLsbD_append]
  rcases k with _ | _ | k
  · simp
  · simp
  · have h : 2 + k = k + 1 + 1 := by omega
    by_cases hk : k < 14
    · have hk' : k + 1 + 1 < 16 := by omega
      simp [hk, h, hk']
    · have hk' : sr.getLsbD (k + 1 + 1) = false := BitVec.getLsbD_of_ge _ _ (by omega)
      simp [hk, hk']

@[simp] theorem srWithFlags_reserved (sr : Word) (z ov : Bool) :
    (srWithFlags sr z ov).extractLsb' 2 14 = sr.extractLsb' 2 14 := by
  ext i hi
  have h : ¬ 2 + i = 1 := by omega
  simp [srWithFlags_getLsbD, h]

end Machine

end Sys2Proof
end

