-- ==== Sys2Proof/Laws/State.lean ====
section
/-! SUPPORT. What each update of the state does to each field, and to each register and flag: true by unfolding, for
`simp`. -/

namespace Sys2Proof.Machine

/-! ### `setSp` -/

@[simp] theorem State.setSp_pc (s : State) (v : Word) : (s.setSp v).pc = s.pc := rfl
@[simp] theorem State.setSp_sr (s : State) (v : Word) : (s.setSp v).sr = s.sr := rfl
@[simp] theorem State.setSp_lr (s : State) (v : Word) : (s.setSp v).lr = s.lr := rfl
@[simp] theorem State.setSp_r0 (s : State) (v : Word) : (s.setSp v).r0 = s.r0 := rfl
@[simp] theorem State.setSp_r1 (s : State) (v : Word) : (s.setSp v).r1 = s.r1 := rfl
@[simp] theorem State.setSp_ir (s : State) (v : Word) : (s.setSp v).ir = s.ir := rfl
@[simp] theorem State.setSp_sp (s : State) (v : Word) : (s.setSp v).sp = v := rfl
@[simp] theorem State.setSp_fault (s : State) (v : Word) : (s.setSp v).fault = s.fault := rfl
@[simp] theorem State.setSp_mem (s : State) (v : Word) : (s.setSp v).mem = s.mem := rfl
@[simp] theorem State.setSp_memCapacity (s : State) (v : Word) : (s.setSp v).memCapacity = s.memCapacity := rfl
@[simp] theorem State.setSp_allocated (s : State) (v : Word) : (s.setSp v).allocated = s.allocated := rfl
@[simp] theorem State.setSp_ports (s : State) (v : Word) : (s.setSp v).ports = s.ports := rfl
@[simp] theorem State.setSp_devices (s : State) (v : Word) : (s.setSp v).devices = s.devices := rfl
@[simp] theorem State.setSp_ticks (s : State) (v : Word) : (s.setSp v).ticks = s.ticks := rfl
@[simp] theorem State.setSp_polls (s : State) (v : Word) : (s.setSp v).polls = s.polls := rfl
@[simp] theorem State.setSp_x (s : State) (v : Word) (r : Reg) : (s.setSp v).x r = s.x r := by cases r <;> rfl

/-! ### `setFlags` -/

@[simp] theorem State.setFlags_pc (s : State) (z ov : Bool) : (s.setFlags z ov).pc = s.pc := rfl
@[simp] theorem State.setFlags_sr (s : State) (z ov : Bool) : (s.setFlags z ov).sr = srWithFlags s.sr z ov := rfl
@[simp] theorem State.setFlags_lr (s : State) (z ov : Bool) : (s.setFlags z ov).lr = s.lr := rfl
@[simp] theorem State.setFlags_r0 (s : State) (z ov : Bool) : (s.setFlags z ov).r0 = s.r0 := rfl
@[simp] theorem State.setFlags_r1 (s : State) (z ov : Bool) : (s.setFlags z ov).r1 = s.r1 := rfl
@[simp] theorem State.setFlags_ir (s : State) (z ov : Bool) : (s.setFlags z ov).ir = s.ir := rfl
@[simp] theorem State.setFlags_sp (s : State) (z ov : Bool) : (s.setFlags z ov).sp = s.sp := rfl
@[simp] theorem State.setFlags_fault (s : State) (z ov : Bool) : (s.setFlags z ov).fault = s.fault := rfl
@[simp] theorem State.setFlags_mem (s : State) (z ov : Bool) : (s.setFlags z ov).mem = s.mem := rfl
@[simp] theorem State.setFlags_memCapacity (s : State) (z ov : Bool) : (s.setFlags z ov).memCapacity = s.memCapacity := rfl
@[simp] theorem State.setFlags_allocated (s : State) (z ov : Bool) : (s.setFlags z ov).allocated = s.allocated := rfl
@[simp] theorem State.setFlags_ports (s : State) (z ov : Bool) : (s.setFlags z ov).ports = s.ports := rfl
@[simp] theorem State.setFlags_devices (s : State) (z ov : Bool) : (s.setFlags z ov).devices = s.devices := rfl
@[simp] theorem State.setFlags_ticks (s : State) (z ov : Bool) : (s.setFlags z ov).ticks = s.ticks := rfl
@[simp] theorem State.setFlags_polls (s : State) (z ov : Bool) : (s.setFlags z ov).polls = s.polls := rfl
@[simp] theorem State.setFlags_x (s : State) (z ov : Bool) (r : Reg) : (s.setFlags z ov).x r = s.x r := by cases r <;> rfl

/-! ### `raise` -/

@[simp] theorem State.raise_pc (s : State) (c : FaultCode) : (s.raise c).pc = s.pc := rfl
@[simp] theorem State.raise_sr (s : State) (c : FaultCode) : (s.raise c).sr = s.sr := rfl
@[simp] theorem State.raise_lr (s : State) (c : FaultCode) : (s.raise c).lr = s.lr := rfl
@[simp] theorem State.raise_r0 (s : State) (c : FaultCode) : (s.raise c).r0 = s.r0 := rfl
@[simp] theorem State.raise_r1 (s : State) (c : FaultCode) : (s.raise c).r1 = s.r1 := rfl
@[simp] theorem State.raise_ir (s : State) (c : FaultCode) : (s.raise c).ir = s.ir := rfl
@[simp] theorem State.raise_sp (s : State) (c : FaultCode) : (s.raise c).sp = s.sp := rfl
@[simp] theorem State.raise_fault (s : State) (c : FaultCode) : (s.raise c).fault = c.code := rfl
@[simp] theorem State.raise_mem (s : State) (c : FaultCode) : (s.raise c).mem = s.mem := rfl
@[simp] theorem State.raise_memCapacity (s : State) (c : FaultCode) : (s.raise c).memCapacity = s.memCapacity := rfl
@[simp] theorem State.raise_allocated (s : State) (c : FaultCode) : (s.raise c).allocated = s.allocated := rfl
@[simp] theorem State.raise_ports (s : State) (c : FaultCode) : (s.raise c).ports = s.ports := rfl
@[simp] theorem State.raise_devices (s : State) (c : FaultCode) : (s.raise c).devices = s.devices := rfl
@[simp] theorem State.raise_ticks (s : State) (c : FaultCode) : (s.raise c).ticks = s.ticks := rfl
@[simp] theorem State.raise_polls (s : State) (c : FaultCode) : (s.raise c).polls = s.polls := rfl
@[simp] theorem State.raise_x (s : State) (c : FaultCode) (r : Reg) : (s.raise c).x r = s.x r := by cases r <;> rfl

/-! ### `setPort` -/

@[simp] theorem State.setPort_pc (s : State) (a : PortAddr) (p : Port) : (s.setPort a p).pc = s.pc := rfl
@[simp] theorem State.setPort_sr (s : State) (a : PortAddr) (p : Port) : (s.setPort a p).sr = s.sr := rfl
@[simp] theorem State.setPort_lr (s : State) (a : PortAddr) (p : Port) : (s.setPort a p).lr = s.lr := rfl
@[simp] theorem State.setPort_r0 (s : State) (a : PortAddr) (p : Port) : (s.setPort a p).r0 = s.r0 := rfl
@[simp] theorem State.setPort_r1 (s : State) (a : PortAddr) (p : Port) : (s.setPort a p).r1 = s.r1 := rfl
@[simp] theorem State.setPort_ir (s : State) (a : PortAddr) (p : Port) : (s.setPort a p).ir = s.ir := rfl
@[simp] theorem State.setPort_sp (s : State) (a : PortAddr) (p : Port) : (s.setPort a p).sp = s.sp := rfl
@[simp] theorem State.setPort_fault (s : State) (a : PortAddr) (p : Port) : (s.setPort a p).fault = s.fault := rfl
@[simp] theorem State.setPort_mem (s : State) (a : PortAddr) (p : Port) : (s.setPort a p).mem = s.mem := rfl
@[simp] theorem State.setPort_memCapacity (s : State) (a : PortAddr) (p : Port) : (s.setPort a p).memCapacity = s.memCapacity := rfl
@[simp] theorem State.setPort_allocated (s : State) (a : PortAddr) (p : Port) : (s.setPort a p).allocated = s.allocated := rfl
@[simp] theorem State.setPort_ports (s : State) (a : PortAddr) (p : Port) : (s.setPort a p).ports = portSet s.ports a p := rfl
@[simp] theorem State.setPort_devices (s : State) (a : PortAddr) (p : Port) : (s.setPort a p).devices = s.devices := rfl
@[simp] theorem State.setPort_ticks (s : State) (a : PortAddr) (p : Port) : (s.setPort a p).ticks = s.ticks := rfl
@[simp] theorem State.setPort_polls (s : State) (a : PortAddr) (p : Port) : (s.setPort a p).polls = s.polls := rfl
@[simp] theorem State.setPort_x (s : State) (a : PortAddr) (p : Port) (r : Reg) : (s.setPort a p).x r = s.x r := by cases r <;> rfl

/-! ### `storeBlock` -/

@[simp] theorem State.storeBlock_pc (s : State) (a : Word) (bytes : List Byte) : (s.storeBlock a bytes).pc = s.pc := rfl
@[simp] theorem State.storeBlock_sr (s : State) (a : Word) (bytes : List Byte) : (s.storeBlock a bytes).sr = s.sr := rfl
@[simp] theorem State.storeBlock_lr (s : State) (a : Word) (bytes : List Byte) : (s.storeBlock a bytes).lr = s.lr := rfl
@[simp] theorem State.storeBlock_r0 (s : State) (a : Word) (bytes : List Byte) : (s.storeBlock a bytes).r0 = s.r0 := rfl
@[simp] theorem State.storeBlock_r1 (s : State) (a : Word) (bytes : List Byte) : (s.storeBlock a bytes).r1 = s.r1 := rfl
@[simp] theorem State.storeBlock_ir (s : State) (a : Word) (bytes : List Byte) : (s.storeBlock a bytes).ir = s.ir := rfl
@[simp] theorem State.storeBlock_sp (s : State) (a : Word) (bytes : List Byte) : (s.storeBlock a bytes).sp = s.sp := rfl
@[simp] theorem State.storeBlock_fault (s : State) (a : Word) (bytes : List Byte) : (s.storeBlock a bytes).fault = s.fault := rfl
@[simp] theorem State.storeBlock_mem (s : State) (a : Word) (bytes : List Byte) : (s.storeBlock a bytes).mem = s.mem.writeBytes (translateAddress a) bytes := rfl
@[simp] theorem State.storeBlock_memCapacity (s : State) (a : Word) (bytes : List Byte) : (s.storeBlock a bytes).memCapacity = s.memCapacity := rfl
@[simp] theorem State.storeBlock_allocated (s : State) (a : Word) (bytes : List Byte) : (s.storeBlock a bytes).allocated = s.allocated := rfl
@[simp] theorem State.storeBlock_ports (s : State) (a : Word) (bytes : List Byte) : (s.storeBlock a bytes).ports = s.ports := rfl
@[simp] theorem State.storeBlock_devices (s : State) (a : Word) (bytes : List Byte) : (s.storeBlock a bytes).devices = s.devices := rfl
@[simp] theorem State.storeBlock_ticks (s : State) (a : Word) (bytes : List Byte) : (s.storeBlock a bytes).ticks = s.ticks := rfl
@[simp] theorem State.storeBlock_polls (s : State) (a : Word) (bytes : List Byte) : (s.storeBlock a bytes).polls = s.polls := rfl
@[simp] theorem State.storeBlock_x (s : State) (a : Word) (bytes : List Byte) (r : Reg) : (s.storeBlock a bytes).x r = s.x r := by cases r <;> rfl

/-! ### `clearFault` -/

@[simp] theorem State.clearFault_pc (s : State) : s.clearFault.pc = s.pc := rfl
@[simp] theorem State.clearFault_sr (s : State) : s.clearFault.sr = s.sr := rfl
@[simp] theorem State.clearFault_lr (s : State) : s.clearFault.lr = s.lr := rfl
@[simp] theorem State.clearFault_r0 (s : State) : s.clearFault.r0 = s.r0 := rfl
@[simp] theorem State.clearFault_r1 (s : State) : s.clearFault.r1 = s.r1 := rfl
@[simp] theorem State.clearFault_ir (s : State) : s.clearFault.ir = s.ir := rfl
@[simp] theorem State.clearFault_sp (s : State) : s.clearFault.sp = s.sp := rfl
@[simp] theorem State.clearFault_fault (s : State) : s.clearFault.fault = 0 := rfl
@[simp] theorem State.clearFault_mem (s : State) : s.clearFault.mem = s.mem := rfl
@[simp] theorem State.clearFault_memCapacity (s : State) : s.clearFault.memCapacity = s.memCapacity := rfl
@[simp] theorem State.clearFault_allocated (s : State) : s.clearFault.allocated = s.allocated := rfl
@[simp] theorem State.clearFault_ports (s : State) : s.clearFault.ports = s.ports := rfl
@[simp] theorem State.clearFault_devices (s : State) : s.clearFault.devices = s.devices := rfl
@[simp] theorem State.clearFault_ticks (s : State) : s.clearFault.ticks = s.ticks := rfl
@[simp] theorem State.clearFault_polls (s : State) : s.clearFault.polls = s.polls := rfl
@[simp] theorem State.clearFault_x (s : State) (r : Reg) : s.clearFault.x r = s.x r := by cases r <;> rfl

/-! ### `resetCpu` -/

@[simp] theorem State.resetCpu_pc (s : State) : s.resetCpu.pc = 0 := rfl
@[simp] theorem State.resetCpu_sr (s : State) : s.resetCpu.sr = 0 := rfl
@[simp] theorem State.resetCpu_lr (s : State) : s.resetCpu.lr = 0 := rfl
@[simp] theorem State.resetCpu_r0 (s : State) : s.resetCpu.r0 = 0 := rfl
@[simp] theorem State.resetCpu_r1 (s : State) : s.resetCpu.r1 = 0 := rfl
@[simp] theorem State.resetCpu_ir (s : State) : s.resetCpu.ir = 0 := rfl
@[simp] theorem State.resetCpu_sp (s : State) : s.resetCpu.sp = 0 := rfl
@[simp] theorem State.resetCpu_fault (s : State) : s.resetCpu.fault = 0 := rfl
@[simp] theorem State.resetCpu_mem (s : State) : s.resetCpu.mem = s.mem := rfl
@[simp] theorem State.resetCpu_memCapacity (s : State) : s.resetCpu.memCapacity = s.memCapacity := rfl
@[simp] theorem State.resetCpu_allocated (s : State) : s.resetCpu.allocated = s.allocated := rfl
@[simp] theorem State.resetCpu_ports (s : State) : s.resetCpu.ports = s.ports := rfl
@[simp] theorem State.resetCpu_devices (s : State) : s.resetCpu.devices = s.devices := rfl
@[simp] theorem State.resetCpu_ticks (s : State) : s.resetCpu.ticks = s.ticks := rfl
@[simp] theorem State.resetCpu_polls (s : State) : s.resetCpu.polls = s.polls := rfl

/-! ### `settle` -/

@[simp] theorem State.settle_pc (s : State) : s.settle.pc = s.pc := rfl
@[simp] theorem State.settle_sr (s : State) : s.settle.sr = s.sr := rfl
@[simp] theorem State.settle_lr (s : State) : s.settle.lr = s.lr := rfl
@[simp] theorem State.settle_r0 (s : State) : s.settle.r0 = s.r0 := rfl
@[simp] theorem State.settle_r1 (s : State) : s.settle.r1 = s.r1 := rfl
@[simp] theorem State.settle_ir (s : State) : s.settle.ir = s.ir := rfl
@[simp] theorem State.settle_sp (s : State) : s.settle.sp = s.sp := rfl
@[simp] theorem State.settle_fault (s : State) : s.settle.fault = s.fault := rfl
@[simp] theorem State.settle_mem (s : State) : s.settle.mem = s.mem := rfl
@[simp] theorem State.settle_memCapacity (s : State) : s.settle.memCapacity = s.memCapacity := rfl
@[simp] theorem State.settle_allocated (s : State) : s.settle.allocated = s.allocated := rfl
@[simp] theorem State.settle_ports (s : State) : s.settle.ports = s.ports.map fun e => (e.1, { e.2 with busy := false }) := rfl
@[simp] theorem State.settle_devices (s : State) : s.settle.devices = s.devices := rfl
@[simp] theorem State.settle_ticks (s : State) : s.settle.ticks = s.ticks := rfl
@[simp] theorem State.settle_polls (s : State) : s.settle.polls = s.polls := rfl
@[simp] theorem State.settle_x (s : State) (r : Reg) : s.settle.x r = s.x r := by cases r <;> rfl

/-! ### `setX` -/

@[simp] theorem State.setX_sr (s : State) (r : Reg) (v : Word) : (s.setX r v).sr = s.sr := by cases r <;> rfl
@[simp] theorem State.setX_ir (s : State) (r : Reg) (v : Word) : (s.setX r v).ir = s.ir := by cases r <;> rfl
@[simp] theorem State.setX_sp (s : State) (r : Reg) (v : Word) : (s.setX r v).sp = s.sp := by cases r <;> rfl
@[simp] theorem State.setX_fault (s : State) (r : Reg) (v : Word) : (s.setX r v).fault = s.fault := by cases r <;> rfl
@[simp] theorem State.setX_mem (s : State) (r : Reg) (v : Word) : (s.setX r v).mem = s.mem := by cases r <;> rfl
@[simp] theorem State.setX_memCapacity (s : State) (r : Reg) (v : Word) : (s.setX r v).memCapacity = s.memCapacity := by cases r <;> rfl
@[simp] theorem State.setX_allocated (s : State) (r : Reg) (v : Word) : (s.setX r v).allocated = s.allocated := by cases r <;> rfl
@[simp] theorem State.setX_ports (s : State) (r : Reg) (v : Word) : (s.setX r v).ports = s.ports := by cases r <;> rfl
@[simp] theorem State.setX_devices (s : State) (r : Reg) (v : Word) : (s.setX r v).devices = s.devices := by cases r <;> rfl
@[simp] theorem State.setX_ticks (s : State) (r : Reg) (v : Word) : (s.setX r v).ticks = s.ticks := by cases r <;> rfl
@[simp] theorem State.setX_polls (s : State) (r : Reg) (v : Word) : (s.setX r v).polls = s.polls := by cases r <;> rfl

/-- A register write is seen in that register and in no other (00_scope.md R10). -/
@[simp] theorem State.setX_x (s : State) (r q : Reg) (v : Word) : (s.setX r v).x q = if q = r then v else s.x q := by
  cases r <;> cases q <;> rfl

@[simp] theorem State.x_r0 (s : State) : s.x .r0 = s.r0 := rfl
@[simp] theorem State.x_r1 (s : State) : s.x .r1 = s.r1 := rfl
@[simp] theorem State.x_lr (s : State) : s.x .lr = s.lr := rfl
@[simp] theorem State.x_pc (s : State) : s.x .pc = s.pc := rfl

/-! ### The status register (10_state.md R37) -/

@[simp] theorem State.setFlags_z (s : State) (z ov : Bool) : (s.setFlags z ov).z = z := by
  simp only [State.z, State.setFlags_sr, srWithFlags_getLsbD, ↓reduceIte]
@[simp] theorem State.setFlags_ov (s : State) (z ov : Bool) : (s.setFlags z ov).ov = ov := by
  simp only [State.ov, State.setFlags_sr, srWithFlags_getLsbD, ↓reduceIte, one_ne_zero]

/-! ### `writeResult` and `writeSigResult` -/

/-- Everything a register result does (41_arithmetic.md R177): the register, both flags, and nothing else. -/
theorem State.writeResult_spec (s : State) (rd : Reg) (v : Word) (ov : Bool) :
    (s.writeResult rd v ov).x rd = v ∧ FlagsAre (v = 0) (ov = true) s (s.writeResult rd v ov) ∧
    RegisterFrame [rd] s (s.writeResult rd v ov) := by
  refine ⟨by simp [writeResult], ⟨?_, ?_, ?_⟩, ⟨fun r hr => ?_, ?_, fun a => ?_, ?_, ?_⟩⟩
  · simp [writeResult]
  · simp [writeResult]
  · simp [writeResult]
  · simp at hr
    simp [writeResult, hr]
  all_goals simp [writeResult, RestKept]

/-- Everything a SIG result does (46_sig.md R280): `lr`, both flags, and nothing else. -/
theorem State.writeSigResult_spec (s : State) (v : Word) :
    (s.writeSigResult v).lr = v ∧ FlagsAre (v = 0) False s (s.writeSigResult v) ∧
    RegisterFrame [.lr] s (s.writeSigResult v) := by
  simpa only [writeSigResult, Bool.false_eq_true, State.x_lr] using s.writeResult_spec .lr v false

@[simp] theorem State.writeResult_ir (s : State) (rd : Reg) (v : Word) (ov : Bool) :
    (s.writeResult rd v ov).ir = s.ir := by simp [writeResult]
@[simp] theorem State.writeResult_sp (s : State) (rd : Reg) (v : Word) (ov : Bool) :
    (s.writeResult rd v ov).sp = s.sp := by simp [writeResult]
@[simp] theorem State.writeResult_fault (s : State) (rd : Reg) (v : Word) (ov : Bool) :
    (s.writeResult rd v ov).fault = s.fault := by simp [writeResult]
@[simp] theorem State.writeResult_mem (s : State) (rd : Reg) (v : Word) (ov : Bool) :
    (s.writeResult rd v ov).mem = s.mem := by simp [writeResult]
@[simp] theorem State.writeResult_memCapacity (s : State) (rd : Reg) (v : Word) (ov : Bool) :
    (s.writeResult rd v ov).memCapacity = s.memCapacity := by simp [writeResult]
@[simp] theorem State.writeResult_allocated (s : State) (rd : Reg) (v : Word) (ov : Bool) :
    (s.writeResult rd v ov).allocated = s.allocated := by simp [writeResult]
@[simp] theorem State.writeResult_ports (s : State) (rd : Reg) (v : Word) (ov : Bool) :
    (s.writeResult rd v ov).ports = s.ports := by simp [writeResult]
@[simp] theorem State.writeResult_devices (s : State) (rd : Reg) (v : Word) (ov : Bool) :
    (s.writeResult rd v ov).devices = s.devices := by simp [writeResult]
@[simp] theorem State.writeResult_ticks (s : State) (rd : Reg) (v : Word) (ov : Bool) :
    (s.writeResult rd v ov).ticks = s.ticks := by simp [writeResult]
@[simp] theorem State.writeResult_polls (s : State) (rd : Reg) (v : Word) (ov : Bool) :
    (s.writeResult rd v ov).polls = s.polls := by simp [writeResult]
@[simp] theorem State.writeSigResult_ir (s : State) (v : Word) : (s.writeSigResult v).ir = s.ir := by
  simp [writeSigResult]
@[simp] theorem State.writeSigResult_sp (s : State) (v : Word) : (s.writeSigResult v).sp = s.sp := by
  simp [writeSigResult]
@[simp] theorem State.writeSigResult_fault (s : State) (v : Word) : (s.writeSigResult v).fault = s.fault := by
  simp [writeSigResult]
@[simp] theorem State.writeSigResult_mem (s : State) (v : Word) : (s.writeSigResult v).mem = s.mem := by
  simp [writeSigResult]
@[simp] theorem State.writeSigResult_memCapacity (s : State) (v : Word) : (s.writeSigResult v).memCapacity = s.memCapacity := by
  simp [writeSigResult]
@[simp] theorem State.writeSigResult_allocated (s : State) (v : Word) : (s.writeSigResult v).allocated = s.allocated := by
  simp [writeSigResult]
@[simp] theorem State.writeSigResult_ports (s : State) (v : Word) : (s.writeSigResult v).ports = s.ports := by
  simp [writeSigResult]
@[simp] theorem State.writeSigResult_devices (s : State) (v : Word) : (s.writeSigResult v).devices = s.devices := by
  simp [writeSigResult]
@[simp] theorem State.writeSigResult_ticks (s : State) (v : Word) : (s.writeSigResult v).ticks = s.ticks := by
  simp [writeSigResult]
@[simp] theorem State.writeSigResult_polls (s : State) (v : Word) : (s.writeSigResult v).polls = s.polls := by
  simp [writeSigResult]

end Sys2Proof.Machine
end

