-- ==== Sys2Proof/Laws/Memory.lean ====
section
/-! SUPPORT. The memory store: what each operation does to a byte, and that each keeps the canonical form
(20_memory.md R72 to R79). -/

namespace Sys2Proof.Machine

/-! ### The canonical form -/

theorem Memory.wf_cons (c : Host.Cell) (m : Memory) :
    Memory.wf (c :: m) = true ↔ c.2 ≠ Config.fillByte ∧ (∀ d ∈ m, c.1 < d.1) ∧ Memory.wf m = true := by
  simp [Memory.wf, and_assoc]

theorem Memory.mem_insert {m : Memory} {a : Nat} {b : Byte} {c : Host.Cell} (h : c ∈ m.insert a b) :
    c ∈ m ∨ c = (a, b) := by
  induction m with
  | nil => simpa [Memory.insert] using h
  | cons d m ih =>
    simp only [Memory.insert] at h
    split at h
    · rcases List.mem_cons.mp h with h | h
      · simp [h]
      · rcases ih h with h | h <;> simp [h]
    · rcases List.mem_cons.mp h with h | h
      · simp [h]
      · exact .inl h

theorem Memory.insert_wf {m : Memory} {a : Nat} {b : Byte} (hb : b ≠ Config.fillByte) (ha : ∀ c ∈ m, c.1 ≠ a)
    (h : m.wf = true) : (m.insert a b).wf = true := by
  induction m with
  | nil => simp [Memory.insert, Memory.wf, hb]
  | cons d m ih =>
    obtain ⟨hd, hlt, hm⟩ := (Memory.wf_cons d m).mp h
    have hda := ha d (by simp)
    simp only [Memory.insert]
    split
    · rename_i hk
      refine (Memory.wf_cons _ _).mpr ⟨hd, fun c hc => ?_, ih (fun c hc => ha c (by simp [hc])) hm⟩
      rcases Memory.mem_insert hc with hc | hc
      · exact hlt c hc
      · rw [hc]; exact hk
    · rename_i hk
      refine (Memory.wf_cons _ _).mpr ⟨hb, fun c hc => ?_, h⟩
      rcases List.mem_cons.mp hc with hc | hc
      · rw [hc]; simp only; omega
      · have := hlt c hc; simp only; omega

theorem Memory.filter_wf {m : Memory} (p : Host.Cell → Bool) (h : m.wf = true) : Memory.wf (m.filter p) = true := by
  induction m with
  | nil => rfl
  | cons d m ih =>
    obtain ⟨hd, hlt, hm⟩ := (Memory.wf_cons d m).mp h
    simp only [List.filter_cons]
    split
    · exact (Memory.wf_cons _ _).mpr ⟨hd, fun c hc => hlt c (List.mem_of_mem_filter hc), ih hm⟩
    · exact ih hm

/-- Every entry of a written memory is an old one or the new one. -/
theorem Memory.mem_write {m : Memory} {a : Nat} {b : Byte} {c : Host.Cell} (h : c ∈ m.write a b) :
    c ∈ m ∨ c.1 = a := by
  simp only [Memory.write] at h
  split at h
  · exact .inl (List.mem_of_mem_filter h)
  · rcases Memory.mem_insert h with h | h
    · exact .inl (List.mem_of_mem_filter h)
    · simp [h]

/-- A write keeps the canonical form. -/
theorem Memory.write_wf {m : Memory} (a : Nat) (b : Byte) (h : m.wf = true) : (m.write a b).wf = true := by
  simp only [Memory.write]
  split
  · exact Memory.filter_wf _ h
  · exact Memory.insert_wf ‹_› (fun c hc => by simpa using (List.mem_filter.mp hc).2) (Memory.filter_wf _ h)

theorem Memory.read_insert {m : Memory} (a : Nat) (b : Byte) (c : Nat) (ha : ∀ d ∈ m, d.1 ≠ a) :
    (m.insert a b).read c = if c = a then b else m.read c := by
  induction m with
  | nil => simp [Memory.insert, Memory.read, eq_comm]
  | cons d m ih =>
    have hda := ha d (by simp)
    have ih := ih fun e he => ha e (by simp [he])
    simp only [Memory.insert]
    split
    · simp only [Memory.read, ih]
      split <;> split <;> first | rfl | omega
    · simp only [Memory.read]
      by_cases hc : c = a
      · simp [hc]
      · rw [if_neg (fun h => hc h.symm), if_neg hc]

theorem Memory.read_filter_ne {m : Memory} (a c : Nat) :
    Memory.read (m.filter fun d => d.1 ≠ a) c = if c = a then Config.fillByte else m.read c := by
  induction m with
  | nil => simp [Memory.read]
  | cons d m ih =>
    by_cases hd : d.1 = a
    · simp only [List.filter_cons, hd, ne_eq, not_true_eq_false, decide_false, Bool.false_eq_true, ↓reduceIte, ih,
        Memory.read]
      split
      · rfl
      · rw [if_neg (fun h => by omega)]
    · simp only [List.filter_cons, hd, ne_eq, not_false_eq_true, decide_true, ↓reduceIte, Memory.read, ih]
      split <;> split <;> first | rfl | omega

/-- Read after write: the byte written reads as written, every other as before (20_memory.md R73). -/
theorem Memory.read_write (m : Memory) (a : Nat) (b : Byte) (c : Nat) :
    (m.write a b).read c = if c = a then b else m.read c := by
  simp only [Memory.write]
  split
  · rename_i hb
    rw [Memory.read_filter_ne, hb]
  · rw [Memory.read_insert _ _ _ fun d hd => by simpa using (List.mem_filter.mp hd).2, Memory.read_filter_ne]
    split <;> rfl

/-! ### Blocks -/

theorem Memory.writeBytes_wf {m : Memory} (a : Nat) (bytes : List Byte) (h : m.wf = true) :
    (m.writeBytes a bytes).wf = true := by
  induction bytes generalizing m a with
  | nil => exact h
  | cons b rest ih => exact ih (a + 1) (Memory.write_wf a b h)

theorem Memory.mem_writeBytes {m : Memory} {a : Nat} {bytes : List Byte} {c : Host.Cell}
    (h : c ∈ m.writeBytes a bytes) : c ∈ m ∨ (a ≤ c.1 ∧ c.1 < a + bytes.length) := by
  induction bytes generalizing m a with
  | nil => exact .inl h
  | cons b rest ih =>
    rcases ih h with h | h
    · rcases Memory.mem_write h with h | h
      · exact .inl h
      · simp only [List.length_cons]; omega
    · simp only [List.length_cons]; omega

/-- A block written: byte `k` at `a + k`, every other byte as before. -/
theorem Memory.read_writeBytes (m : Memory) (a : Nat) (bytes : List Byte) (c : Nat) :
    (m.writeBytes a bytes).read c =
      if a ≤ c ∧ c < a + bytes.length then (bytes[c - a]?).getD Config.fillByte else m.read c := by
  induction bytes generalizing m a with
  | nil => simp only [Memory.writeBytes, List.length_nil]; rw [if_neg (by omega)]
  | cons b rest ih =>
    rw [Memory.writeBytes, ih, Memory.read_write]
    simp only [List.length_cons]
    by_cases hc : c = a
    · subst hc
      rw [if_neg (by omega), if_pos rfl, if_pos (by omega), Nat.sub_self]
      rfl
    · rw [if_neg hc]
      by_cases hin : a + 1 ≤ c ∧ c < a + 1 + rest.length
      · rw [if_pos hin, if_pos (by omega)]
        have : c - a = c - (a + 1) + 1 := by omega
        rw [this, List.getElem?_cons_succ]
      · rw [if_neg hin, if_neg (by omega)]

@[simp] theorem Memory.readBytes_length (m : Memory) (a n : Nat) : (m.readBytes a n).length = n := by
  induction n generalizing a with
  | zero => rfl
  | succ n ih => simp [Memory.readBytes, ih]

theorem Memory.readBytes_eq_map (m : Memory) (a n : Nat) :
    m.readBytes a n = (List.range n).map fun k => m.read (a + k) := by
  induction n generalizing a with
  | zero => rfl
  | succ n ih =>
    rw [Memory.readBytes, ih, List.range_succ_eq_map]
    simp [Function.comp_def, Nat.add_assoc, Nat.add_comm 1]

/-! ### Accesses (20_memory.md R72 to R75, R78) -/

/-- Everything a word load can do (20_memory.md R74). -/
theorem State.loadWord_spec (s : State) (ea : Word) :
    (ea.toNat + 1 < s.memCapacity ∧
      s.loadWord ea = some (wordOfBytes (s.mem.read ea.toNat) (s.mem.read (ea.toNat + 1)))) ∨
    (s.memCapacity ≤ ea.toNat + 1 ∧ s.loadWord ea = none) := by
  simp only [State.loadWord, State.readWord, translateAddress]
  by_cases h : ea.toNat + 1 < s.memCapacity
  · simp [h]
  · simp [h]; omega

/-- The memory after a word store. -/
def storedWord (m : Memory) (a : Nat) (w : Word) : Memory := (m.write a (lowByte w)).write (a + 1) (highByte w)

/-- Everything a word store can do (20_memory.md R75). -/
theorem State.storeWord_spec (s : State) (ea w : Word) :
    (ea.toNat + 1 < s.memCapacity ∧ s.storeWord ea w = some { s with mem := storedWord s.mem ea.toNat w }) ∨
    (s.memCapacity ≤ ea.toNat + 1 ∧ s.storeWord ea w = none) := by
  simp only [State.storeWord, State.writeWord, translateAddress, storedWord]
  by_cases h : ea.toNat + 1 < s.memCapacity
  · simp [h]
  · simp [h]; omega

theorem storedWord_wf {m : Memory} (a : Nat) (w : Word) (h : m.wf = true) : (storedWord m a w).wf = true :=
  Memory.write_wf _ _ (Memory.write_wf _ _ h)

theorem mem_storedWord {m : Memory} {a : Nat} {w : Word} {c : Host.Cell} (h : c ∈ storedWord m a w) :
    c ∈ m ∨ c.1 = a ∨ c.1 = a + 1 := by
  rcases Memory.mem_write h with h | h
  · rcases Memory.mem_write h with h | h <;> simp [h]
  · simp [h]

/-- Every byte after a word store (20_memory.md R75). -/
theorem read_storedWord (m : Memory) (a : Nat) (w : Word) (c : Nat) :
    (storedWord m a w).read c = if c = a then lowByte w else if c = a + 1 then highByte w else m.read c := by
  rw [storedWord, Memory.read_write, Memory.read_write]
  split <;> split <;> first | rfl | omega

/-- The range check of a block, on integers (20_memory.md R79). -/
theorem State.inRange_iff (s : State) (a : Word) (c : Nat) :
    s.inRange a c = true ↔ c = 0 ∨ a.toNat + c - 1 < s.memCapacity := by
  rw [State.inRange, Bool.or_eq_true, decide_eq_true_iff, decide_eq_true_iff]
  exact Iff.rfl

end Sys2Proof.Machine
end

