-- ==== Sys2Proof/Laws/Ports.lean ====
section
/-! SUPPORT. The maps of ports and devices, and for each port operation everything it can do
(45_device_port.md R250 to R262). -/

namespace Sys2Proof.Machine

/-! ### The maps -/

/-- The port at an address after one was replaced. -/
theorem portAt_portSet (ports : PortMap) (a b : PortAddr) (p : Port) :
    portAt (portSet ports a p) b = if b = a then (portAt ports a).map fun _ => p else portAt ports b := by
  induction ports with
  | nil => simp [portSet, portAt]
  | cons e rest ih =>
    have ih' : portAt (List.map (fun e => if e.1 = a then (e.1, p) else e) rest) b = _ := ih
    by_cases hea : e.1 = a
    · by_cases hb : b = a
      · subst hb; simp [portSet, portAt, hea]
      · simp [portSet, portAt, hea, Ne.symm hb, ih', hb]
    · by_cases heb : e.1 = b
      · have : ¬ b = a := fun h => hea (heb.trans h)
        simp [portSet, portAt, heb, this]
      · simp [portSet, portAt, hea, heb, ih']

/-- The device of a name after one was replaced. -/
theorem deviceAt_deviceSet (devices : DeviceMap) (a b : DeviceId) (d : Device) :
    deviceAt (deviceSet devices a d) b = if b = a then (deviceAt devices a).map fun _ => d else deviceAt devices b := by
  induction devices with
  | nil => simp [deviceSet, deviceAt]
  | cons e rest ih =>
    have ih' : deviceAt (List.map (fun e => if e.1 = a then (e.1, d) else e) rest) b = _ := ih
    by_cases hea : e.1 = a
    · by_cases hb : b = a
      · subst hb; simp [deviceSet, deviceAt, hea]
      · simp [deviceSet, deviceAt, hea, Ne.symm hb, ih', hb]
    · by_cases heb : e.1 = b
      · have : ¬ b = a := fun h => hea (heb.trans h)
        simp [deviceSet, deviceAt, heb, this]
      · simp [deviceSet, deviceAt, hea, heb, ih']

@[simp] theorem portSet_keys (ports : PortMap) (a : PortAddr) (p : Port) :
    (portSet ports a p).map (fun e => e.1) = ports.map fun e => e.1 := by
  simp only [portSet, List.map_map]
  refine List.map_congr_left fun e _ => ?_
  simp only [Function.comp_apply]
  split <;> rfl

@[simp] theorem deviceSet_keys (devices : DeviceMap) (a : DeviceId) (d : Device) :
    (deviceSet devices a d).map (fun e => e.1) = devices.map fun e => e.1 := by
  simp only [deviceSet, List.map_map]
  refine List.map_congr_left fun e _ => ?_
  simp only [Function.comp_apply]
  split <;> rfl

/-- Every entry of a map with one port replaced is an old one or the new port at that address. -/
theorem mem_portSet {ports : PortMap} {a : PortAddr} {p : Port} {e : PortAddr × Port} (h : e ∈ portSet ports a p) :
    (e ∈ ports ∧ e.1 ≠ a) ∨ e = (a, p) := by
  simp only [portSet, List.mem_map] at h
  obtain ⟨x, hx, hxe⟩ := h
  split at hxe
  · rename_i hxa; exact .inr (by rw [← hxe, hxa])
  · exact .inl ⟨hxe ▸ hx, hxe ▸ ‹_›⟩

theorem mem_deviceSet {devices : DeviceMap} {a : DeviceId} {d : Device} {e : DeviceId × Device}
    (h : e ∈ deviceSet devices a d) : (e ∈ devices ∧ e.1 ≠ a) ∨ e = (a, d) := by
  simp only [deviceSet, List.mem_map] at h
  obtain ⟨x, hx, hxe⟩ := h
  split at hxe
  · rename_i hxa; exact .inr (by rw [← hxe, hxa])
  · exact .inl ⟨hxe ▸ hx, hxe ▸ ‹_›⟩

theorem mem_of_portAt {ports : PortMap} {a : PortAddr} {p : Port} (h : portAt ports a = some p) : (a, p) ∈ ports := by
  induction ports with
  | nil => simp [portAt] at h
  | cons e rest ih =>
    simp only [portAt] at h
    split at h
    · rename_i he; simp at h; simp [← he, ← h]
    · simp [ih h]

theorem mem_of_deviceAt {devices : DeviceMap} {a : DeviceId} {d : Device} (h : deviceAt devices a = some d) :
    (a, d) ∈ devices := by
  induction devices with
  | nil => simp [deviceAt] at h
  | cons e rest ih =>
    simp only [deviceAt] at h
    split at h
    · rename_i he; simp at h; simp [← he, ← h]
    · simp [ih h]

/-- In a map whose addresses rise, an entry is what its address finds. -/
theorem portAt_of_mem {ports : PortMap} {e : PortAddr × Port} (hr : (ports.map fun e => e.1).Pairwise (· < ·))
    (h : e ∈ ports) : portAt ports e.1 = some e.2 := by
  induction ports with
  | nil => simp at h
  | cons x rest ih =>
    simp only [List.map_cons, List.pairwise_cons] at hr
    rcases List.mem_cons.mp h with h | h
    · simp [portAt, h]
    · have : x.1 < e.1 := hr.1 _ (List.mem_map_of_mem h)
      have : ¬ x.1 = e.1 := fun he => by rw [he] at this; exact absurd this (BitVec.lt_irrefl _)
      simp [portAt, this, ih hr.2 h]

theorem deviceAt_of_mem {devices : DeviceMap} {e : DeviceId × Device}
    (hr : (devices.map fun e => e.1).Pairwise (· < ·)) (h : e ∈ devices) : deviceAt devices e.1 = some e.2 := by
  induction devices with
  | nil => simp at h
  | cons x rest ih =>
    simp only [List.map_cons, List.pairwise_cons] at hr
    rcases List.mem_cons.mp h with h | h
    · simp [deviceAt, h]
    · have : x.1 < e.1 := hr.1 _ (List.mem_map_of_mem h)
      simp [deviceAt, Nat.ne_of_lt this, ih hr.2 h]

/-- The ports after `setPort`. -/
theorem State.portAt_setPort (s : State) (a b : PortAddr) (p : Port) :
    (s.setPort a p).portAt b = if b = a then (s.portAt a).map fun _ => p else s.portAt b := by
  simp only [State.portAt, State.setPort_ports, portAt_portSet]

/-! ### The checks (R250, R251) -/

theorem Port.isConnected_iff (p : Port) : p.isConnected = true ↔ p.dev ≠ none := by simp [Port.isConnected]

theorem Side.other_ne (side : Side) : side.other ≠ side := by cases side <;> decide

@[simp] theorem Side.other_other (side : Side) : side.other.other = side := by cases side <;> rfl

/-- A read passes its checks exactly then (R250). -/
theorem Port.readCheck_eq_none (p : Port) (side : Side) :
    p.readCheck side = none ↔
      p.dev ≠ none ∧ p.busy = false ∧ p.owner = some side.other ∧ p.exhausted = false ∧ p.rpos ≠ p.data.length := by
  obtain ⟨dev, owner, busy, exhausted, data, rpos, capacity⟩ := p
  simp only [Port.readCheck, Port.isConnected]
  cases dev <;> cases busy <;> by_cases h : owner = some side.other <;> cases exhausted <;> simp [h]

/-- A write passes its checks exactly then (R251). -/
theorem Port.writeCheck_eq_none (p : Port) (side : Side) :
    p.writeCheck side = none ↔
      p.dev ≠ none ∧ p.busy = false ∧ (p.owner = none ∨ (p.owner = some side ∧ p.exhausted = false)) := by
  obtain ⟨dev, owner, busy, exhausted, data, rpos, capacity⟩ := p
  simp only [Port.writeCheck, Port.isConnected]
  cases dev <;> cases busy <;> rcases owner with _ | ⟨_ | _⟩ <;> cases exhausted <;> cases side <;> simp [Side.other]

/-! ### What each operation does when it succeeds -/

/-- Everything a successful read does (R250, R252). -/
theorem Port.read_spec {p q : Port} {side : Side} {n : Nat} {bytes : List Byte} (h : p.read side n = .ok (q, bytes)) :
    p.readCheck side = none ∧ (q, bytes) = p.take (p.readCount n) := by
  simp only [Port.read] at h
  split at h
  · simp at h
  · exact ⟨‹_›, by simpa using h.symm⟩

/-- Everything a successful write does (R251). -/
theorem Port.write_spec {p q : Port} {side : Side} {bytes : List Byte} {c : Nat} (h : p.write side bytes = .ok (q, c)) :
    p.writeCheck side = none ∧ c = p.writeCount bytes.length ∧ q = p.place side (bytes.take c) := by
  simp only [Port.write] at h
  split at h
  · simp at h
  · simp only [Except.ok.injEq, Prod.mk.injEq] at h
    exact ⟨‹_›, h.2.symm, by rw [← h.2]; exact h.1.symm⟩

/-- Everything a successful relinquish does (R253). -/
theorem Port.relinquish_spec {p q : Port} {side : Side} (h : p.relinquish side = .ok q) :
    p.dev ≠ none ∧ p.owner = some side ∧ p.busy = false ∧ p.exhausted = true ∧
    q = { p with owner := some side.other, busy := false, exhausted := false, data := [], rpos := 0 } := by
  simp only [Port.relinquish] at h
  split at h
  · simp at h
  · split at h
    · simp at h
    · split at h
      · simp at h
      · split at h
        · simp at h
        · simp_all [Port.isConnected]

@[simp] theorem Port.take_bytes_length (p : Port) (c : Nat) : (p.take c).2.length = min c (p.data.length - p.rpos) := by
  simp [Port.take]

theorem Port.take_keeps (p : Port) (c : Nat) :
    (p.take c).1.dev = p.dev ∧ (p.take c).1.owner = p.owner ∧ (p.take c).1.capacity = p.capacity ∧
    (p.take c).1.busy = p.busy ∧ (p.take c).1.data = p.data ∧ (p.take c).1.rpos = p.rpos + c := by
  simp [Port.take]

theorem Port.place_keeps (p : Port) (side : Side) (bytes : List Byte) :
    (p.place side bytes).dev = p.dev ∧ (p.place side bytes).capacity = p.capacity ∧
    (p.place side bytes).rpos = p.rpos ∧ (p.place side bytes).exhausted = p.exhausted ∧
    (p.place side bytes).data = p.data ++ bytes := by
  simp only [Port.place]
  split
  · simp_all
  · simp

/-- A read that passed its checks keeps the five invariants (10_state.md R50). -/
theorem Port.take_sound {p : Port} {side : Side} (n : Nat) (h : p.Sound) (hc : p.readCheck side = none) :
    (p.take (p.readCount n)).1.Sound := by
  obtain ⟨hdev, hbusy, howner, hexh, hpos⟩ := (Port.readCheck_eq_none p side).mp hc
  obtain ⟨_, _, h3, _, h5, h6⟩ := h
  have hmin := Nat.min_le_right n (p.data.length - p.rpos)
  refine ⟨?_, ?_, ?_, ?_, ?_, ?_⟩ <;> simp only [Port.take, Port.readCount]
  · simp [hbusy]
  · simp [howner]
  · exact h3
  · simp only [hexh, Bool.false_or, Bool.and_eq_true]
    exact fun h => ⟨of_decide_eq_true h.1, of_decide_eq_true h.2⟩
  · omega
  · exact h6

/-- A write of bytes that fit, which passed its checks, keeps the five invariants (10_state.md R50). -/
theorem Port.place_sound {p : Port} {side : Side} {bytes : List Byte} (h : p.Sound) (hc : p.writeCheck side = none)
    (hfit : bytes.length ≤ p.capacity - p.data.length) : (p.place side bytes).Sound := by
  obtain ⟨hdev, hbusy, howner⟩ := (Port.writeCheck_eq_none p side).mp hc
  simp only [Port.place]
  split
  · exact h
  · obtain ⟨_, h2, h3, h4, h5, h6⟩ := h
    have hexh : p.exhausted = false := by
      rcases howner with ho | ho
      · exact (h2 ho).2.2.2
      · exact ho.2
    refine ⟨?_, ?_, ?_, ?_, ?_, ?_⟩ <;> simp [hexh, hdev]
    · omega
    · omega

/-- A relinquish keeps the five invariants (10_state.md R50). -/
theorem Port.relinquish_sound {p q : Port} {side : Side} (h : p.relinquish side = .ok q) : q.Sound := by
  obtain ⟨hdev, _, _, _, rfl⟩ := Port.relinquish_spec h
  simp [Port.Sound, hdev]

/-! ### A device's calls (R259 to R262) -/

/-- Everything one device-side call can do to the port: nothing, or one of the three operations. -/
theorem Port.deviceCall_cases (p : Port) (budget : Nat) (c : DeviceCall) :
    (p.deviceCall budget c).1 = p ∨
    (∃ n bytes, c = .read n ∧ p.read .device (min n budget) = .ok ((p.deviceCall budget c).1, bytes)) ∨
    (∃ bytes n, c = .write bytes ∧ p.write .device (bytes.take budget) = .ok ((p.deviceCall budget c).1, n)) ∨
    (c = .relinquish ∧ p.relinquish .device = .ok (p.deviceCall budget c).1) := by
  cases c with
  | read n =>
    cases hq : p.read .device (min n budget) with
    | ok r => exact .inr (.inl ⟨n, r.2, rfl, by simp [Port.deviceCall, hq]⟩)
    | error f => exact .inl (by simp [Port.deviceCall, hq])
  | write bytes =>
    cases hq : p.write .device (bytes.take budget) with
    | ok r => exact .inr (.inr (.inl ⟨bytes, r.2, rfl, by simp [Port.deviceCall, hq]⟩))
    | error f => exact .inl (by simp [Port.deviceCall, hq])
  | relinquish =>
    cases hq : p.relinquish .device with
    | ok r => exact .inr (.inr (.inr ⟨rfl, by simp [Port.deviceCall, hq]⟩))
    | error f => exact .inl (by simp [Port.deviceCall, hq])
  | _ => exact .inl rfl

/-- A property of ports that the three operations of the device keep is kept by a whole poll. -/
theorem Port.deviceCalls_induction {P : Port → Prop} (budget : Nat) (calls : List DeviceCall) (p : Port) (h : P p)
    (hread : ∀ p q n bytes, P p → p.read .device n = .ok (q, bytes) → P q)
    (hwrite : ∀ p q bytes c, P p → p.write .device bytes = .ok (q, c) → P q)
    (hrelinquish : ∀ p q, P p → p.relinquish .device = .ok q → P q) : P (p.deviceCalls budget calls).1 := by
  induction calls generalizing p budget with
  | nil => exact h
  | cons c rest ih =>
    simp only [Port.deviceCalls]
    refine ih _ _ ?_
    rcases Port.deviceCall_cases p budget c with hq | ⟨n, bytes, _, hq⟩ | ⟨bytes, n, _, hq⟩ | ⟨_, hq⟩
    · rw [hq]; exact h
    · exact hread _ _ _ _ h hq
    · exact hwrite _ _ _ _ h hq
    · exact hrelinquish _ _ h hq

/-- A poll changes neither the connection nor the capacity of its port (R262). -/
theorem Port.deviceCalls_keeps (p : Port) (budget : Nat) (calls : List DeviceCall) :
    (p.deviceCalls budget calls).1.dev = p.dev ∧ (p.deviceCalls budget calls).1.capacity = p.capacity := by
  refine Port.deviceCalls_induction (P := fun q => q.dev = p.dev ∧ q.capacity = p.capacity) budget calls p ⟨rfl, rfl⟩
    ?_ ?_ ?_
  · intro a q n bytes ha hq
    obtain ⟨_, hq⟩ := Port.read_spec hq
    have := Port.take_keeps a (a.readCount n)
    rw [← hq] at this
    exact ⟨this.1.trans ha.1, this.2.2.1.trans ha.2⟩
  · intro a q bytes c ha hq
    obtain ⟨_, _, rfl⟩ := Port.write_spec hq
    have := Port.place_keeps a .device (bytes.take c)
    exact ⟨this.1.trans ha.1, this.2.1.trans ha.2⟩
  · intro a q ha hq
    obtain ⟨_, _, _, _, rfl⟩ := Port.relinquish_spec hq
    exact ha

end Sys2Proof.Machine
end

