-- ==== Sys2Proof/Laws/Launch.lean ====
section
/-! SUPPORT. The bytes of an image (70_reset_and_hazards.md R333), and everything a connect or disconnect can do
(45_device_port.md R257, R258). -/

namespace Sys2Proof.Machine

@[simp] theorem imageBytes_length (words : List Word) : (imageBytes words).length = 2 * words.length := by
  induction words with
  | nil => rfl
  | cons w rest ih => simp only [imageBytes, List.length_cons, ih]; omega

/-- Word `k` of an image lies at byte `2k`, its low byte first. -/
theorem imageBytes_get {words : List Word} {k : Nat} {w : Word} (h : words[k]? = some w) :
    (imageBytes words)[2 * k]? = some (lowByte w) ∧ (imageBytes words)[2 * k + 1]? = some (highByte w) := by
  induction words generalizing k with
  | nil => simp at h
  | cons x rest ih =>
    cases k with
    | zero => simp at h; subst h; exact ⟨rfl, rfl⟩
    | succ k => simpa [imageBytes, Nat.mul_add] using ih (by simpa using h)

/-- Everything a connect that succeeds can do (45_device_port.md R257). -/
theorem State.connect_eq_some {s t : State} {d : DeviceId} {a : PortAddr} :
    s.connect d a = some t ↔
      ∃ p dev, s.portAt a = some p ∧ deviceAt s.devices d = some dev ∧ p.dev = none ∧ dev.conn = none ∧
        t = { s with
          ports := portSet s.ports a { p with dev := some d }
          devices := deviceSet s.devices d { dev with conn := some a } } := by
  cases hp : s.portAt a <;> cases hd : deviceAt s.devices d <;> simp [connect, hp, hd, eq_comm, and_assoc]

/-- Everything a disconnect that succeeds can do (45_device_port.md R258). -/
theorem State.disconnect_eq_some {s t : State} {d : DeviceId} :
    s.disconnect d = some t ↔
      ∃ dev a p, deviceAt s.devices d = some dev ∧ dev.conn = some a ∧ s.portAt a = some p ∧
        t = { s with
          ports := portSet s.ports a p.disconnected
          devices := deviceSet s.devices d { dev with conn := none } } := by
  cases hd : deviceAt s.devices d with
  | none => simp [disconnect, hd]
  | some dev =>
    obtain ⟨conn, speed⟩ := dev
    cases conn with
    | none => simp [disconnect, hd]
    | some a => cases hp : s.portAt a <;> simp [disconnect, hd, hp, eq_comm]

@[simp] theorem hostActions_nil (s : State) : hostActions [] s = some s := rfl

/-- An action that is not refused, then the rest. -/
theorem hostActions_cons {a : HostAction} {s t : State} (h : hostAction a s = .next t) (rest : List HostAction) :
    hostActions (a :: rest) s = hostActions rest t := by
  rw [hostActions, h]

end Sys2Proof.Machine
end

