-- ==== Sys2Proof/Laws/Operands.lean ====
section
/-! SUPPORT. The operands and the shift as numbers, and the bits of the words that are made of bits (30_encoding.md R119;
41_arithmetic.md R176; 42_assign_shift_bitwise.md R191; 46_sig.md R287). -/

namespace Sys2Proof.Machine

/-- The second operand of ADD, SUB and ASGN as a number (30_encoding.md R119). -/
theorem State.operand_literal8 (s : State) (rs rd : Reg) (lit : BitVec 8) :
    (s.operand rs rd (literal8 lit)).toNat = if rs = rd then lit.toNat else (s.x rs).toNat := by
  simp only [State.operand, literal8]
  split <;> simp
  omega

/-- The second operand of MUL and DIV as a number (30_encoding.md R119). -/
theorem State.operand_literal7 (s : State) (rs rd : Reg) (lit : BitVec 7) :
    (s.operand rs rd (literal7 lit)).toNat = if rs = rd then lit.toNat else (s.x rs).toNat := by
  simp only [State.operand, literal7]
  split <;> simp
  omega

/-- The second operand of MULS and DIVS as a signed number (30_encoding.md R119). -/
theorem State.operand_literalSigned7 (s : State) (rs rd : Reg) (lit : BitVec 7) :
    (s.operand rs rd (literalSigned7 lit)).toInt = if rs = rd then lit.toInt else (s.x rs).toInt := by
  simp only [State.operand, literalSigned7]
  split
  · exact BitVec.toInt_signExtend_of_le (by decide)
  · rfl

/-- The count of SHFT as a signed number (30_encoding.md R119). -/
theorem State.operand_shiftLiteral (s : State) (rs rd : Reg) (amt : BitVec 5) :
    (s.operand rs rd (shiftLiteral amt)).toInt = if rs = rd then amt.toInt else (s.x rs).toInt := by
  simp only [State.operand, shiftLiteral]
  split
  · exact BitVec.toInt_signExtend_of_le (by decide)
  · rfl

/-- The bits of the literal operand of AND, OR and XOR (30_encoding.md R119). -/
theorem bitLiteral_getLsbD (idx : BitVec 4) (k : Nat) (hk : k < 16) :
    (bitLiteral idx).getLsbD k = decide (k = idx.toNat) :=
  (by decide : ∀ (idx : BitVec 4) (k : Fin 16), (bitLiteral idx).getLsbD k = decide (k.val = idx.toNat)) idx ⟨k, hk⟩

/-- SHFT's result as a number: a multiplication or division by a power of two (42_assign_shift_bitwise.md R191). -/
theorem shiftValue_toNat (v : Word) (n : Int) :
    (shiftValue v n).toNat = if 0 ≤ n then v.toNat * 2 ^ n.toNat % 65536 else v.toNat / 2 ^ (-n).toNat := by
  have hv := v.isLt
  simp only [shiftValue]
  by_cases h0 : n = 0
  · subst h0; simp; omega
  · rw [if_neg h0]
    by_cases h1 : 0 < n ∧ n < 16
    · rw [if_pos h1, if_pos (by omega), BitVec.toNat_shiftLeft, Nat.shiftLeft_eq]
    · rw [if_neg h1]
      by_cases h2 : 16 ≤ n
      · rw [if_pos h2, if_pos (by omega)]
        have hn : n.toNat = (n.toNat - 16) + 16 := by omega
        rw [hn, pow_add, ← Nat.mul_assoc]
        simp
      · rw [if_neg h2, if_neg (show ¬ 0 ≤ n by omega)]
        by_cases h3 : -16 < n
        · rw [if_pos h3, BitVec.toNat_ushiftRight, Nat.shiftRight_eq_div_pow]
        · have hp : 2 ^ 16 ≤ 2 ^ (-n).toNat := Nat.pow_le_pow_right (by decide) (by omega)
          rw [if_neg h3, Nat.div_eq_of_lt (by omega)]
          rfl

/-- The bits of the QUERY status word (46_sig.md R287). -/
theorem statusWord_getLsbD (p : Port) (k : Nat) :
    (statusWord p).getLsbD k =
      if k = 0 then p.isConnected else if k = 1 then p.isBusy else if k = 2 then p.isExhausted
      else if k = 3 then p.isControlledByProgram else if k = 4 then p.isControlledByDevice
      else if k = 5 then p.isReadableAndNotBusy .program else if k = 6 then p.isWriteableAndNotBusy .program
      else false := by
  rw [statusWord]
  generalize p.isConnected = b0
  generalize p.isBusy = b1
  generalize p.isExhausted = b2
  generalize p.isControlledByProgram = b3
  generalize p.isControlledByDevice = b4
  generalize p.isReadableAndNotBusy .program = b5
  generalize p.isWriteableAndNotBusy .program = b6
  simp only [word_getLsbD, BitVec.getLsbD_append]
  rcases k with _ | _ | _ | _ | _ | _ | _ | k <;> simp

/-- What SIG.USABLE leaves in `lr` for a count that fits a word (46_sig.md R282). -/
theorem State.usableWord_toNat (s : State) {count : Nat} (h : count < 65536) : (s.usableWord count).toNat = count := by
  rw [usableWord, if_pos h]
  simpa using h

/-- SIG.USABLE leaves 0 exactly for the count 0 (46_sig.md R282). -/
theorem State.usableWord_eq_zero (s : State) (count : Nat) : s.usableWord count = 0 ↔ count = 0 := by
  rw [← BitVec.toNat_inj]
  by_cases h : count < 65536
  · simp [s.usableWord_toNat h]
  · have := (Config.wideUsableCountPred s.ticks count).isLt
    rw [usableWord, if_neg h, BitVec.toNat_ofNat, Nat.mod_eq_of_lt (by omega)]
    simp
    omega

end Sys2Proof.Machine
end

