-- ==== Sys2Proof/Laws/PerInstr.lean ====
section
/-! SUPPORT. One property of every instruction as syntax, constructor by constructor: its encoding selects its row of the
opcode map (30_encoding.md R122). -/

namespace Sys2Proof.Laws

/-- The encoding of an instruction selects the row of the opcode map that has its mnemonic (30_encoding.md R122). -/
def OpcodeRowSelects.Statement (i : Instr) : Prop :=
  ∃ row ∈ opcodeMap, row.mnemonic = i.mnemonic ∧ row.selects (encode i) = true

/-- A word selects a row when its bits under the mask are the row's, bit by bit. -/
theorem selects_of_bits {mnemonic : String} {bits mask w : Word}
    (h : ∀ k, k < 16 → (w.getLsbD k && mask.getLsbD k) = bits.getLsbD k) :
    OpcodeRow.selects ⟨mnemonic, bits, mask⟩ w = true :=
  decide_eq_true (BitVec.eq_of_getLsbD_eq fun k hk => by rw [BitVec.getLsbD_and]; exact h k hk)

theorem OpcodeRowSelects.nop : OpcodeRowSelects.Statement .nop :=
  ⟨⟨"NOP", 0x0000, 0xF000⟩, by simp [opcodeMap], rfl, selects_of_bits fun k hk => by
    simp only [encode, word_getLsbD, BitVec.getLsbD_append]
    interval_cases k <;> simp⟩

theorem OpcodeRowSelects.add (rs rd : Reg) (lit : BitVec 8) : OpcodeRowSelects.Statement (.add rs rd lit) :=
  ⟨⟨"ADD", 0x1000, 0xF000⟩, by simp [opcodeMap], rfl, selects_of_bits fun k hk => by
    simp only [encode, word_getLsbD, BitVec.getLsbD_append]
    interval_cases k <;> simp⟩

theorem OpcodeRowSelects.sub (rs rd : Reg) (lit : BitVec 8) : OpcodeRowSelects.Statement (.sub rs rd lit) :=
  ⟨⟨"SUB", 0x2000, 0xF000⟩, by simp [opcodeMap], rfl, selects_of_bits fun k hk => by
    simp only [encode, word_getLsbD, BitVec.getLsbD_append]
    interval_cases k <;> simp⟩

theorem OpcodeRowSelects.mul (rs rd : Reg) (lit : BitVec 7) : OpcodeRowSelects.Statement (.mul rs rd lit) :=
  ⟨⟨"MUL", 0x3000, 0xF080⟩, by simp [opcodeMap], rfl, selects_of_bits fun k hk => by
    simp only [encode, word_getLsbD, BitVec.getLsbD_append]
    interval_cases k <;> simp⟩

theorem OpcodeRowSelects.muls (rs rd : Reg) (lit : BitVec 7) : OpcodeRowSelects.Statement (.muls rs rd lit) :=
  ⟨⟨"MULS", 0x3080, 0xF080⟩, by simp [opcodeMap], rfl, selects_of_bits fun k hk => by
    simp only [encode, word_getLsbD, BitVec.getLsbD_append]
    interval_cases k <;> simp⟩

theorem OpcodeRowSelects.div (rs rd : Reg) (lit : BitVec 7) : OpcodeRowSelects.Statement (.div rs rd lit) :=
  ⟨⟨"DIV", 0x4000, 0xF080⟩, by simp [opcodeMap], rfl, selects_of_bits fun k hk => by
    simp only [encode, word_getLsbD, BitVec.getLsbD_append]
    interval_cases k <;> simp⟩

theorem OpcodeRowSelects.divs (rs rd : Reg) (lit : BitVec 7) : OpcodeRowSelects.Statement (.divs rs rd lit) :=
  ⟨⟨"DIVS", 0x4080, 0xF080⟩, by simp [opcodeMap], rfl, selects_of_bits fun k hk => by
    simp only [encode, word_getLsbD, BitVec.getLsbD_append]
    interval_cases k <;> simp⟩

theorem OpcodeRowSelects.asgn (rs rd : Reg) (lit : BitVec 8) : OpcodeRowSelects.Statement (.asgn rs rd lit) :=
  ⟨⟨"ASGN", 0x5000, 0xF000⟩, by simp [opcodeMap], rfl, selects_of_bits fun k hk => by
    simp only [encode, word_getLsbD, BitVec.getLsbD_append]
    interval_cases k <;> simp⟩

theorem OpcodeRowSelects.shft (rs rd : Reg) (amt : BitVec 5) : OpcodeRowSelects.Statement (.shft rs rd amt) :=
  ⟨⟨"SHFT", 0x6000, 0xF000⟩, by simp [opcodeMap], rfl, selects_of_bits fun k hk => by
    simp only [encode, word_getLsbD, BitVec.getLsbD_append]
    interval_cases k <;> simp⟩

theorem OpcodeRowSelects.bitAnd (rs rd : Reg) (idx : BitVec 4) : OpcodeRowSelects.Statement (.bitAnd rs rd idx) :=
  ⟨⟨"AND", 0x7000, 0xF0C0⟩, by simp [opcodeMap], rfl, selects_of_bits fun k hk => by
    simp only [encode, word_getLsbD, BitVec.getLsbD_append]
    interval_cases k <;> simp⟩

theorem OpcodeRowSelects.bitOr (rs rd : Reg) (idx : BitVec 4) : OpcodeRowSelects.Statement (.bitOr rs rd idx) :=
  ⟨⟨"OR", 0x7040, 0xF0C0⟩, by simp [opcodeMap], rfl, selects_of_bits fun k hk => by
    simp only [encode, word_getLsbD, BitVec.getLsbD_append]
    interval_cases k <;> simp⟩

theorem OpcodeRowSelects.bitXor (rs rd : Reg) (idx : BitVec 4) : OpcodeRowSelects.Statement (.bitXor rs rd idx) :=
  ⟨⟨"XOR", 0x7080, 0xF0C0⟩, by simp [opcodeMap], rfl, selects_of_bits fun k hk => by
    simp only [encode, word_getLsbD, BitVec.getLsbD_append]
    interval_cases k <;> simp⟩

theorem OpcodeRowSelects.bitNot (rs rd : Reg) : OpcodeRowSelects.Statement (.bitNot rs rd) :=
  ⟨⟨"NOT", 0x70C0, 0xF0C0⟩, by simp [opcodeMap], rfl, selects_of_bits fun k hk => by
    simp only [encode, word_getLsbD, BitVec.getLsbD_append]
    interval_cases k <;> simp⟩

theorem OpcodeRowSelects.cbx (lnk : Bool) (cond : Cond) (neg : Bool) (off : BitVec 8) : OpcodeRowSelects.Statement (.cbx lnk cond neg off) :=
  ⟨⟨"CBX", 0x8000, 0xF000⟩, by simp [opcodeMap], rfl, selects_of_bits fun k hk => by
    simp only [encode, word_getLsbD, BitVec.getLsbD_append]
    interval_cases k <;> simp⟩

theorem OpcodeRowSelects.ld (rb rt : Reg) (off : BitVec 7) : OpcodeRowSelects.Statement (.ld rb rt off) :=
  ⟨⟨"LD", 0x9000, 0xF080⟩, by simp [opcodeMap], rfl, selects_of_bits fun k hk => by
    simp only [encode, word_getLsbD, BitVec.getLsbD_append]
    interval_cases k <;> simp⟩

theorem OpcodeRowSelects.st (rb rt : Reg) (off : BitVec 7) : OpcodeRowSelects.Statement (.st rb rt off) :=
  ⟨⟨"ST", 0x9080, 0xF080⟩, by simp [opcodeMap], rfl, selects_of_bits fun k hk => by
    simp only [encode, word_getLsbD, BitVec.getLsbD_append]
    interval_cases k <;> simp⟩

theorem OpcodeRowSelects.pop (mask : BitVec 4) : OpcodeRowSelects.Statement (.pop mask) :=
  ⟨⟨"POP", 0xA000, 0xFC00⟩, by simp [opcodeMap], rfl, selects_of_bits fun k hk => by
    simp only [encode, word_getLsbD, BitVec.getLsbD_append]
    interval_cases k <;> simp⟩

theorem OpcodeRowSelects.push (mask : BitVec 4) : OpcodeRowSelects.Statement (.push mask) :=
  ⟨⟨"PUSH", 0xA400, 0xFC00⟩, by simp [opcodeMap], rfl, selects_of_bits fun k hk => by
    simp only [encode, word_getLsbD, BitVec.getLsbD_append]
    interval_cases k <;> simp⟩

theorem OpcodeRowSelects.spget (r : Reg) : OpcodeRowSelects.Statement (.spget r) :=
  ⟨⟨"SPGET", 0xA800, 0xFC00⟩, by simp [opcodeMap], rfl, selects_of_bits fun k hk => by
    simp only [encode, word_getLsbD, BitVec.getLsbD_append]
    interval_cases k <;> simp⟩

theorem OpcodeRowSelects.spset (r : Reg) : OpcodeRowSelects.Statement (.spset r) :=
  ⟨⟨"SPSET", 0xAC00, 0xFC00⟩, by simp [opcodeMap], rfl, selects_of_bits fun k hk => by
    simp only [encode, word_getLsbD, BitVec.getLsbD_append]
    interval_cases k <;> simp⟩

theorem OpcodeRowSelects.sigQuery : OpcodeRowSelects.Statement .sigQuery :=
  ⟨⟨"SIG.QUERY", 0xB000, 0xFF00⟩, by simp [opcodeMap], rfl, selects_of_bits fun k hk => by
    simp only [encode, word_getLsbD, BitVec.getLsbD_append]
    interval_cases k <;> simp⟩

theorem OpcodeRowSelects.sigUsable : OpcodeRowSelects.Statement .sigUsable :=
  ⟨⟨"SIG.USABLE", 0xB100, 0xFF00⟩, by simp [opcodeMap], rfl, selects_of_bits fun k hk => by
    simp only [encode, word_getLsbD, BitVec.getLsbD_append]
    interval_cases k <;> simp⟩

theorem OpcodeRowSelects.sigRelinquish : OpcodeRowSelects.Statement .sigRelinquish :=
  ⟨⟨"SIG.RELINQUISH", 0xB200, 0xFF00⟩, by simp [opcodeMap], rfl, selects_of_bits fun k hk => by
    simp only [encode, word_getLsbD, BitVec.getLsbD_append]
    interval_cases k <;> simp⟩

theorem OpcodeRowSelects.sigRead (cnt : BitVec 8) : OpcodeRowSelects.Statement (.sigRead cnt) :=
  ⟨⟨"SIG.READ", 0xB300, 0xFF00⟩, by simp [opcodeMap], rfl, selects_of_bits fun k hk => by
    simp only [encode, word_getLsbD, BitVec.getLsbD_append]
    interval_cases k <;> simp⟩

theorem OpcodeRowSelects.sigWrite (cnt : BitVec 8) : OpcodeRowSelects.Statement (.sigWrite cnt) :=
  ⟨⟨"SIG.WRITE", 0xB400, 0xFF00⟩, by simp [opcodeMap], rfl, selects_of_bits fun k hk => by
    simp only [encode, word_getLsbD, BitVec.getLsbD_append]
    interval_cases k <;> simp⟩

end Sys2Proof.Laws
end

