-- ==== Sys2Proof/Laws/Stack.lean ====
section
/-! SUPPORT. What the loops of PUSH and POP do, word by word (44_load_store_stack.md R224, R225). -/

namespace Sys2Proof.Machine

/-- The address of the word that is pushed after `k` others (R225). -/
def pushSlot (sp : Word) (k : Nat) : Word := sp - 2#16 * BitVec.ofNat 16 (k + 1)

/-- The address of the word that is popped after `k` others (R224). -/
def popSlot (sp : Word) (k : Nat) : Word := sp + 2#16 * BitVec.ofNat 16 k

theorem pushSlot_zero (sp : Word) : pushSlot sp 0 = sp - 2#16 := by simp [pushSlot]

theorem pushSlot_succ (sp : Word) (k : Nat) : pushSlot (sp - 2#16) k = pushSlot sp (k + 1) := by
  simp only [pushSlot]
  have h : BitVec.ofNat 16 (k + 1 + 1) = BitVec.ofNat 16 (k + 1) + 1#16 := by simp [BitVec.ofNat_add]
  rw [h, BitVec.mul_add]
  generalize 2#16 * BitVec.ofNat 16 (k + 1) = y
  simp only [BitVec.mul_one]
  rw [BitVec.sub_sub, BitVec.add_comm]

theorem popSlot_zero (sp : Word) : popSlot sp 0 = sp := by simp [popSlot]

theorem popSlot_succ (sp : Word) (k : Nat) : popSlot (sp + 2#16) k = popSlot sp (k + 1) := by
  simp only [popSlot]
  have h : BitVec.ofNat 16 (k + 1) = BitVec.ofNat 16 k + 1#16 := by simp [BitVec.ofNat_add]
  rw [h, BitVec.mul_add]
  generalize 2#16 * BitVec.ofNat 16 k = y
  simp only [BitVec.mul_one]
  rw [BitVec.add_assoc, BitVec.add_comm 2#16]

/-- The word popped `k` words up from a stack that `n` pushes have lowered is the one pushed after `n - 1 - k`
others. -/
theorem popSlot_pushed (sp : Word) (n k : Nat) (h : k < n) :
    popSlot (sp - 2#16 * BitVec.ofNat 16 n) k = pushSlot sp (n - 1 - k) := by
  have hn : n = (n - 1 - k + 1) + k := by omega
  simp only [popSlot, pushSlot]
  generalize n - 1 - k + 1 = m at hn
  subst hn
  rw [BitVec.ofNat_add, BitVec.mul_add]
  generalize 2#16 * BitVec.ofNat 16 m = y
  generalize 2#16 * BitVec.ofNat 16 k = z
  rw [← BitVec.sub_sub, BitVec.sub_add_cancel]

/-- Two of the first eight stack words are at least two bytes apart. -/
theorem pushSlot_apart (sp : Word) {j k : Nat} (hj : j < 8) (hk : k < 8) (h : j ≠ k) :
    (pushSlot sp j).toNat + 2 ≤ (pushSlot sp k).toNat ∨ (pushSlot sp k).toNat + 2 ≤ (pushSlot sp j).toNat := by
  have hsp := sp.isLt
  simp only [pushSlot, BitVec.toNat_sub, BitVec.toNat_mul, BitVec.toNat_ofNat]
  omega

/-- The state after pushing every register of a list, no word checked. -/
def pushedAll : List Reg → State → State
  | [], s => s
  | r :: rest, s =>
    pushedAll rest { s with mem := storedWord s.mem (s.sp - 2#16).toNat (s.x r), sp := s.sp - 2#16 }

/-- The state after popping every register of a list, no word checked. -/
def poppedAll : List Reg → State → State
  | [], s => s
  | r :: rest, s =>
    poppedAll rest
      ((s.setX r (wordOfBytes (s.mem.read s.sp.toNat) (s.mem.read (s.sp.toNat + 1)))).setSp (s.sp + 2#16))

/-- A push changes `sp` and the memory only. -/
theorem pushedAll_frame (regs : List Reg) (s : State) :
    pushedAll regs s = { s with
      mem := (pushedAll regs s).mem, sp := s.sp - 2#16 * BitVec.ofNat 16 regs.length } := by
  induction regs generalizing s with
  | nil => simp [pushedAll]
  | cons r rest ih =>
    rw [pushedAll, ih]
    have h := pushSlot_succ s.sp rest.length
    have h' : s.sp - 2#16 - 2#16 * BitVec.ofNat 16 rest.length = s.sp - 2#16 * BitVec.ofNat 16 (rest.length + 1) := by
      have h1 : BitVec.ofNat 16 (rest.length + 1) = BitVec.ofNat 16 rest.length + 1#16 := by simp [BitVec.ofNat_add]
      rw [h1, BitVec.mul_add, BitVec.sub_sub, BitVec.add_comm]
      simp
    simp [h']

theorem pushedAll_x (regs : List Reg) (s : State) (r : Reg) : (pushedAll regs s).x r = s.x r := by
  rw [pushedAll_frame]
  cases r <;> rfl

/-- A byte outside every pushed word reads as before. -/
theorem pushedAll_read_other (regs : List Reg) (s : State) (a : Nat)
    (h : ∀ k, k < regs.length → a ≠ (pushSlot s.sp k).toNat ∧ a ≠ (pushSlot s.sp k).toNat + 1) :
    (pushedAll regs s).mem.read a = s.mem.read a := by
  induction regs generalizing s with
  | nil => rfl
  | cons r rest ih =>
    have h0 := h 0 (by simp)
    rw [pushSlot_zero] at h0
    rw [pushedAll, ih]
    · simp only [read_storedWord, if_neg h0.1, if_neg h0.2]
    · intro k hk
      simp only [pushSlot_succ]
      exact h (k + 1) (by simpa using hk)

/-- Each pushed word holds its register (R225), for a list of at most eight. -/
theorem pushedAll_read_slot (regs : List Reg) (s : State) (k : Nat) (r : Reg) (hlen : regs.length ≤ 8)
    (hr : regs[k]? = some r) :
    (pushedAll regs s).mem.read (pushSlot s.sp k).toNat = lowByte (s.x r) ∧
    (pushedAll regs s).mem.read ((pushSlot s.sp k).toNat + 1) = highByte (s.x r) := by
  induction regs generalizing s k with
  | nil => simp at hr
  | cons q rest ih =>
    simp only [List.length_cons] at hlen
    rw [pushedAll]
    cases k with
    | zero =>
      simp only [List.getElem?_cons_zero, Option.some.injEq] at hr
      subst hr
      have hother : ∀ a, a = (pushSlot s.sp 0).toNat ∨ a = (pushSlot s.sp 0).toNat + 1 →
          (pushedAll rest { s with mem := storedWord s.mem (s.sp - 2#16).toNat (s.x q), sp := s.sp - 2#16 }).mem.read a =
            (storedWord s.mem (s.sp - 2#16).toNat (s.x q)).read a := by
        intro a ha
        rw [pushedAll_read_other]
        intro k hk
        simp only [pushSlot_succ]
        have := pushSlot_apart s.sp (j := 0) (k := k + 1) (by omega) (by omega) (by omega)
        omega
      rw [hother _ (.inl rfl), hother _ (.inr rfl), pushSlot_zero]
      simp [read_storedWord]
    | succ k =>
      have := ih { s with mem := storedWord s.mem (s.sp - 2#16).toNat (s.x q), sp := s.sp - 2#16 } k (by omega)
        (by simpa using hr)
      simp only [pushSlot_succ] at this
      exact this

/-- A push of words that fit keeps the memory's canonical form and lists only bytes that exist. -/
theorem pushedAll_wf (regs : List Reg) (s : State) (hwf : s.mem.wf = true) (hmem : ∀ c ∈ s.mem, c.1 < s.memCapacity)
    (hfit : ∀ k, k < regs.length → (pushSlot s.sp k).toNat + 1 < s.memCapacity) :
    (pushedAll regs s).mem.wf = true ∧ ∀ c ∈ (pushedAll regs s).mem, c.1 < s.memCapacity := by
  induction regs generalizing s with
  | nil => exact ⟨hwf, hmem⟩
  | cons r rest ih =>
    rw [pushedAll]
    have h0 := hfit 0 (by simp)
    rw [pushSlot_zero] at h0
    refine ih { s with mem := storedWord s.mem (s.sp - 2#16).toNat (s.x r), sp := s.sp - 2#16 } (storedWord_wf _ _ hwf)
      (fun c hc => ?_) fun k hk => ?_
    · have := hmem c
      rcases mem_storedWord hc with h | h | h
      · exact this h
      all_goals simp only; omega
    · simp only [pushSlot_succ]
      exact hfit (k + 1) (by simpa using hk)

/-- Everything PUSH's loop can do: push the whole list, or push the words before the first that does not fit and raise
INVALID_STORE (R225). -/
theorem pushRegs_spec (regs : List Reg) (s : State) :
    ((∀ k, k < regs.length → (pushSlot s.sp k).toNat + 1 < s.memCapacity) ∧ pushRegs regs s = pushedAll regs s) ∨
    (∃ n, n < regs.length ∧ (∀ k, k < n → (pushSlot s.sp k).toNat + 1 < s.memCapacity) ∧
      s.memCapacity ≤ (pushSlot s.sp n).toNat + 1 ∧
      pushRegs regs s = (pushedAll (regs.take n) s).raise .invalidStore) := by
  induction regs generalizing s with
  | nil => exact .inl ⟨by simp, rfl⟩
  | cons r rest ih =>
    rw [pushRegs]
    rcases s.storeWord_spec (s.sp - 2#16) (s.x r) with ⟨hfit, hs⟩ | ⟨hfit, hs⟩
    · rw [hs]
      have hcons : ∀ n, (∀ k, k < n → (pushSlot (s.sp - 2#16) k).toNat + 1 < s.memCapacity) →
          ∀ k, k < n + 1 → (pushSlot s.sp k).toNat + 1 < s.memCapacity := by
        intro n hn k hk
        cases k with
        | zero => rw [pushSlot_zero]; exact hfit
        | succ k => rw [← pushSlot_succ]; exact hn k (by omega)
      rcases ih { s with mem := storedWord s.mem (s.sp - 2#16).toNat (s.x r), sp := s.sp - 2#16 } with
        ⟨hall, heq⟩ | ⟨n, hn, hall, hstop, heq⟩
      · exact .inl ⟨hcons _ hall, heq⟩
      · refine .inr ⟨n + 1, by simpa using hn, hcons _ hall, ?_, heq⟩
        rw [← pushSlot_succ]; exact hstop
    · rw [hs]
      refine .inr ⟨0, by simp, by simp, ?_, rfl⟩
      rw [pushSlot_zero]; exact hfit

/-- A pop changes `sp` and the registers of its list only. -/
theorem poppedAll_frame (regs : List Reg) (s : State) :
    poppedAll regs s = { s with
      r0 := (poppedAll regs s).r0, r1 := (poppedAll regs s).r1, lr := (poppedAll regs s).lr
      pc := (poppedAll regs s).pc, sp := s.sp + 2#16 * BitVec.ofNat 16 regs.length } := by
  induction regs generalizing s with
  | nil => simp [poppedAll]
  | cons r rest ih =>
    rw [poppedAll, ih]
    have h : s.sp + 2#16 + 2#16 * BitVec.ofNat 16 rest.length = s.sp + 2#16 * BitVec.ofNat 16 (rest.length + 1) :=
      popSlot_succ s.sp rest.length
    cases r <;> simp [h, State.setX, State.setSp]

theorem poppedAll_x_other (regs : List Reg) (s : State) (r : Reg) (h : r ∉ regs) : (poppedAll regs s).x r = s.x r := by
  induction regs generalizing s with
  | nil => rfl
  | cons q rest ih =>
    simp only [List.mem_cons, not_or] at h
    rw [poppedAll, ih _ h.2]
    simp [h.1]

/-- Each register of a list without repeats holds its word (R224). -/
theorem poppedAll_x_slot (regs : List Reg) (s : State) (k : Nat) (r : Reg) (hnodup : regs.Nodup)
    (hr : regs[k]? = some r) :
    (poppedAll regs s).x r =
      wordOfBytes (s.mem.read (popSlot s.sp k).toNat) (s.mem.read ((popSlot s.sp k).toNat + 1)) := by
  induction regs generalizing s k with
  | nil => simp at hr
  | cons q rest ih =>
    rw [List.nodup_cons] at hnodup
    rw [poppedAll]
    cases k with
    | zero =>
      simp only [List.getElem?_cons_zero, Option.some.injEq] at hr
      subst hr
      rw [poppedAll_x_other _ _ _ hnodup.1, popSlot_zero]
      simp
    | succ k =>
      rw [ih _ k hnodup.2 (by simpa using hr)]
      simp [popSlot_succ]

/-- Everything POP's loop can do: pop the whole list, or pop the words before the first that does not fit and raise
INVALID_LOAD (R224). -/
theorem popRegs_spec (regs : List Reg) (s : State) :
    ((∀ k, k < regs.length → (popSlot s.sp k).toNat + 1 < s.memCapacity) ∧ popRegs regs s = poppedAll regs s) ∨
    (∃ n, n < regs.length ∧ (∀ k, k < n → (popSlot s.sp k).toNat + 1 < s.memCapacity) ∧
      s.memCapacity ≤ (popSlot s.sp n).toNat + 1 ∧
      popRegs regs s = (poppedAll (regs.take n) s).raise .invalidLoad) := by
  induction regs generalizing s with
  | nil => exact .inl ⟨by simp, rfl⟩
  | cons r rest ih =>
    rw [popRegs]
    rcases s.loadWord_spec s.sp with ⟨hfit, hs⟩ | ⟨hfit, hs⟩
    · rw [hs]
      have hcons : ∀ n, (∀ k, k < n → (popSlot (s.sp + 2#16) k).toNat + 1 < s.memCapacity) →
          ∀ k, k < n + 1 → (popSlot s.sp k).toNat + 1 < s.memCapacity := by
        intro n hn k hk
        cases k with
        | zero => rw [popSlot_zero]; exact hfit
        | succ k => rw [← popSlot_succ]; exact hn k (by omega)
      rcases ih ((s.setX r (wordOfBytes (s.mem.read s.sp.toNat) (s.mem.read (s.sp.toNat + 1)))).setSp (s.sp + 2#16)) with
        ⟨hall, heq⟩ | ⟨n, hn, hall, hstop, heq⟩
      · simp only [State.setSp_sp, State.setSp_memCapacity, State.setX_memCapacity] at hall
        exact .inl ⟨hcons _ hall, heq⟩
      · simp only [State.setSp_sp, State.setSp_memCapacity, State.setX_memCapacity] at hall hstop
        refine .inr ⟨n + 1, by simpa using hn, hcons _ hall, ?_, heq⟩
        rw [← popSlot_succ]; exact hstop
    · rw [hs]
      refine .inr ⟨0, by simp, by simp, ?_, rfl⟩
      rw [popSlot_zero]; exact hfit

/-- A mask names at most four registers, none twice (R223). -/
theorem maskRegs_length (mask : BitVec 4) : (maskRegs mask).length ≤ 4 := by revert mask; decide

theorem maskRegs_nodup (mask : BitVec 4) : (maskRegs mask).Nodup := by revert mask; decide

theorem mem_maskRegs (mask : BitVec 4) (r : Reg) : r ∈ maskRegs mask ↔ mask.getLsbD r.id.toNat = true := by
  revert mask; cases r <;> decide

end Sys2Proof.Machine
end

