-- ==== Sys2Proof/Laws/Tick.lean ====
section
/-! SUPPORT. What a tick does around its instruction: the settle phase, the poll phase, the fetch (40_step.md R150 to
R152; 45_device_port.md R260 to R262). -/

namespace Sys2Proof.Machine

/-- What devices can do to the ports, as a relation: the addresses, connections and capacities are kept, and ports that
keep the five invariants go on keeping them (10_state.md R50). -/
structure PortsEvolve (old new : PortMap) : Prop where
  keys : new.map (fun e => e.1) = old.map fun e => e.1
  params : ∀ a, (portAt new a).map (fun p => (p.dev, p.capacity)) = (portAt old a).map fun p => (p.dev, p.capacity)
  sound : (∀ e ∈ old, 1 ≤ e.2.capacity ∧ e.2.Sound) → ∀ e ∈ new, 1 ≤ e.2.capacity ∧ e.2.Sound

theorem PortsEvolve.refl (ports : PortMap) : PortsEvolve ports ports := ⟨rfl, fun _ => rfl, id⟩

theorem PortsEvolve.trans {a b c : PortMap} (h : PortsEvolve a b) (k : PortsEvolve b c) : PortsEvolve a c :=
  ⟨k.keys.trans h.keys, fun x => (k.params x).trans (h.params x), fun hs => k.sound (h.sound hs)⟩

/-- One port replaced by one of the same connection and capacity that keeps the five invariants where the old one
did. -/
theorem PortsEvolve.set {ports : PortMap} {a : PortAddr} {p q : Port} (hp : portAt ports a = some p)
    (hdev : q.dev = p.dev) (hcap : q.capacity = p.capacity) (hs : p.Sound → q.Sound) :
    PortsEvolve ports (portSet ports a q) := by
  refine ⟨portSet_keys _ _ _, fun x => ?_, fun h e he => ?_⟩
  · rw [portAt_portSet]
    split
    · rename_i hx; subst hx; simp [hp, hdev, hcap]
    · rfl
  · rcases mem_portSet he with ⟨he, _⟩ | rfl
    · exact h e he
    · have := h _ (mem_of_portAt hp)
      exact ⟨by rw [hcap]; exact this.1, hs this.2⟩

/-! ### Settle (40_step.md R151) -/

theorem portAt_settle (ports : PortMap) (a : PortAddr) :
    portAt (ports.map fun e => (e.1, { e.2 with busy := false })) a =
      (portAt ports a).map fun p => { p with busy := false } := by
  induction ports with
  | nil => rfl
  | cons e rest ih =>
    simp only [List.map_cons, portAt]
    split
    · rfl
    · exact ih

theorem Port.settled_sound {p : Port} (h : p.Sound) : ({ p with busy := false } : Port).Sound :=
  ⟨by simp, fun ho => ⟨(h.2.1 ho).1, (h.2.1 ho).2.1, rfl, (h.2.1 ho).2.2.2⟩, h.2.2.1, h.2.2.2.1, h.2.2.2.2⟩

theorem State.settle_evolves (s : State) : PortsEvolve s.ports s.settle.ports := by
  refine ⟨by simp [Function.comp_def], fun a => ?_, fun h e he => ?_⟩
  · rw [State.settle_ports, portAt_settle, Option.map_map]
    rfl
  · simp only [State.settle_ports, List.mem_map] at he
    obtain ⟨x, hx, rfl⟩ := he
    exact ⟨(h x hx).1, Port.settled_sound (h x hx).2⟩

/-! ### The polls (45_device_port.md R260 to R262) -/

/-- A poll keeps the five invariants of its port (10_state.md R50). -/
theorem Port.deviceCalls_sound {p : Port} (budget : Nat) (calls : List DeviceCall) (h : p.Sound) :
    (p.deviceCalls budget calls).1.Sound := by
  refine Port.deviceCalls_induction (P := Port.Sound) budget calls p h ?_ ?_ ?_
  · intro a q n bytes ha hq
    obtain ⟨hc, hq⟩ := Port.read_spec hq
    have := Port.take_sound n ha hc
    rwa [← hq] at this
  · intro a q bytes c ha hq
    obtain ⟨hc, rfl, rfl⟩ := Port.write_spec hq
    refine Port.place_sound ha hc ?_
    rw [List.length_take]
    simp only [Port.writeCount]
    omega
  · intro a q _ hq
    exact Port.relinquish_sound hq

/-- Everything a poll can do to the machine. -/
theorem State.pollDevice_spec (s : State) (d : DeviceId) (calls : List DeviceCall) :
    ∃ ports, (s.pollDevice d calls).1 = { s with ports := ports } ∧ PortsEvolve s.ports ports := by
  simp only [pollDevice]
  split
  · exact ⟨s.ports, rfl, .refl _⟩
  · split
    · exact ⟨s.ports, rfl, .refl _⟩
    · split
      · exact ⟨s.ports, rfl, .refl _⟩
      · rename_i dev _ _ a _ _ p hp
        have hk := Port.deviceCalls_keeps p dev.speed calls
        exact ⟨_, rfl, .set hp hk.1 hk.2 (Port.deviceCalls_sound _ _)⟩

theorem State.pollAll_spec (round : PollRound) (s : State) :
    ∃ ports, s.pollAll round = { s with ports := ports } ∧ PortsEvolve s.ports ports := by
  induction round generalizing s with
  | nil => exact ⟨s.ports, rfl, .refl _⟩
  | cons e rest ih =>
    obtain ⟨ports, hp, he⟩ := s.pollDevice_spec e.1 e.2
    obtain ⟨ports', hp', he'⟩ := ih (s.pollDevice e.1 e.2).1
    rw [pollAll, hp']
    rw [hp] at he' ⊢
    exact ⟨ports', rfl, he.trans he'⟩

theorem State.mem_connectedDevices (s : State) (d : DeviceId) :
    d ∈ s.connectedDevices ↔ ∃ dev, (d, dev) ∈ s.devices ∧ dev.conn ≠ none := by
  simp [connectedDevices, Option.isSome_iff_ne_none]

/-- In the poll order a connected device has the calls of its first entry in the round. -/
theorem roundCalls_pollOrder (round : PollRound) (connected : List DeviceId) (d : DeviceId) (h : d ∈ connected) :
    roundCalls (pollOrder round connected) d = roundCalls round d := by
  induction round generalizing connected with
  | nil =>
    simp only [pollOrder, roundCalls]
    clear h
    induction connected with
    | nil => rfl
    | cons e rest ih => simp [roundCalls, ih]
  | cons e rest ih =>
    simp only [pollOrder]
    split
    · by_cases he : e.1 = d
      · simp [roundCalls, he]
      · simp only [roundCalls, if_neg he]
        exact ih _ ((List.mem_erase_of_ne (Ne.symm he)).mpr h)
    · rename_i hne
      have he : e.1 ≠ d := fun he => hne (he ▸ h)
      simp only [roundCalls, if_neg he]
      exact ih _ h

/-- The ports after the poll of a connected device: its own has taken the calls, every other is as before. -/
theorem State.pollDevice_portAt {s : State} {d : DeviceId} {dev : Device} {a : PortAddr} {p : Port}
    (calls : List DeviceCall) (hd : deviceAt s.devices d = some dev) (hc : dev.conn = some a) (hp : s.portAt a = some p)
    (b : PortAddr) :
    (s.pollDevice d calls).1.portAt b = if b = a then some (p.deviceCalls dev.speed calls).1 else s.portAt b := by
  simp only [pollDevice, hd, hc, hp, portAt_setPort, Option.map_some]

/-- The poll of a device that is not connected to a port leaves it. -/
theorem State.pollDevice_portAt_other {s : State} {d : DeviceId} {b : PortAddr} (calls : List DeviceCall)
    (h : s.conn d ≠ some b) : (s.pollDevice d calls).1.portAt b = s.portAt b := by
  simp only [pollDevice]
  split
  · rfl
  · split
    · rfl
    · split
      · rfl
      · rename_i dev hd _ a hc _ p _
        rw [portAt_setPort, if_neg]
        rintro rfl
        exact h (by simp [conn, hd, hc])

@[simp] theorem State.pollDevice_devices (s : State) (d : DeviceId) (calls : List DeviceCall) :
    (s.pollDevice d calls).1.devices = s.devices := by
  obtain ⟨_, h, _⟩ := s.pollDevice_spec d calls
  rw [h]

/-- The polls of a round leave a port to which none of its devices is connected. -/
theorem State.pollAll_portAt_other {round : PollRound} {s : State} {b : PortAddr}
    (h : ∀ e ∈ round, s.conn e.1 ≠ some b) : (s.pollAll round).portAt b = s.portAt b := by
  induction round generalizing s with
  | nil => rfl
  | cons e rest ih =>
    rw [pollAll, ih, pollDevice_portAt_other _ (h e (by simp))]
    intro x hx
    rw [conn, pollDevice_devices]
    exact h x (by simp [hx])

/-- Everything the poll phase can do to the machine (40_step.md R150; 10_state.md R44). -/
theorem State.pollPhase_spec (s : State) :
    ∃ ports, s.pollPhase = { s with ports := ports } ∧ PortsEvolve s.ports ports := by
  simp only [pollPhase]
  split
  · exact ⟨s.ports, rfl, .refl _⟩
  · exact s.pollAll_spec _

/-- Everything a tick does before its step phase: the ports evolve, the tick is counted, its round is used up. -/
theorem State.beginTick_spec (s : State) :
    ∃ ports, s.beginTick = { s with ports := ports, ticks := s.ticks + 1, polls := s.polls.tail } ∧
      ports = s.settle.pollPhase.ports ∧ PortsEvolve s.ports ports := by
  obtain ⟨ports, hp, he⟩ := s.settle.pollPhase_spec
  refine ⟨ports, ?_, by rw [hp], s.settle_evolves.trans he⟩
  rw [beginTick, hp]
  rfl

/-! ### The fetch (40_step.md R152) -/

/-- Everything the fetch can do. -/
theorem State.fetch_spec (s : State) :
    (s.fault ≠ 0 ∧ s.fetch = (s, none)) ∨
    (s.fault = 0 ∧ s.memCapacity ≤ s.pc.toNat + 1 ∧ s.fetch = ({ s with ir := 0, fault := 1 }, none)) ∨
    (s.fault = 0 ∧ s.pc.toNat + 1 < s.memCapacity ∧
      s.fetch = ({ s with ir := wordOfBytes (s.mem.read s.pc.toNat) (s.mem.read (s.pc.toNat + 1)), pc := s.pc + 2 },
        some (wordOfBytes (s.mem.read s.pc.toNat) (s.mem.read (s.pc.toNat + 1))))) := by
  by_cases hf : s.fault = 0
  · by_cases hc : s.pc.toNat + 1 < s.memCapacity
    · exact .inr (.inr ⟨hf, hc, by simp [fetch, running, hf, readWord, hc]⟩)
    · exact .inr (.inl ⟨hf, by omega, by simp [fetch, running, hf, readWord, hc, raise, FaultCode.code]⟩)
  · have hr : s.running = false := decide_eq_false hf
    exact .inl ⟨hf, by simp [fetch, hr]⟩

end Sys2Proof.Machine
end

