-- ==== Sys2Proof/Tests/Slice0.lean ====
section
/-! SUPPORT. Tests. Expected results come from spec/: the decode words are written out bit by bit from 30_encoding.md
R115, the one-step tests are vectors of 95_test_vectors.md (named in each comment). The last part shows, for each
obligation with hypotheses, that something meets them. -/

open Sys2Proof Sys2Proof.Machine

namespace Sys2Proof.Tests

/-! ## WellFormed: one ill-formed term for each check (30_encoding.md R116) -/

theorem test_wf_add : ¬ (Instr.add .r0 .r1 1).WellFormed := by decide
theorem test_wf_sub : ¬ (Instr.sub .r0 .r1 1).WellFormed := by decide
theorem test_wf_mul : ¬ (Instr.mul .r0 .lr 1).WellFormed := by decide
theorem test_wf_muls : ¬ (Instr.muls .r0 .lr 1).WellFormed := by decide
theorem test_wf_div : ¬ (Instr.div .pc .r1 1).WellFormed := by decide
theorem test_wf_divs : ¬ (Instr.divs .pc .r1 1).WellFormed := by decide
theorem test_wf_asgn : ¬ (Instr.asgn .r1 .r0 1).WellFormed := by decide
theorem test_wf_shft : ¬ (Instr.shft .r1 .r0 1).WellFormed := by decide
theorem test_wf_and : ¬ (Instr.bitAnd .r1 .r0 1).WellFormed := by decide
theorem test_wf_or : ¬ (Instr.bitOr .r1 .r0 1).WellFormed := by decide
theorem test_wf_xor : ¬ (Instr.bitXor .r1 .r0 1).WellFormed := by decide
theorem test_wf_cbx : ¬ (Instr.cbx false .al true 0).WellFormed := by decide
theorem test_wf_pop : ¬ (Instr.pop 0).WellFormed := by decide
theorem test_wf_push : ¬ (Instr.push 0).WellFormed := by decide

/-! ## Decode: for every constructor a word written out from its pattern (30_encoding.md R115) -/

theorem test_decode_nop : decode 0b0000000000000000 = .ok .nop := by decide
theorem test_decode_arithmetic :
    decode 0b0001010100000011 = .ok (.add .r1 .r1 3) ∧ decode 0b0010011000000000 = .ok (.sub .r1 .lr 0) ∧
    decode 0b0011000001111111 = .ok (.mul .r0 .r0 127) ∧ decode 0b0011111111000000 = .ok (.muls .pc .pc 64) ∧
    decode 0b0100010000000000 = .ok (.div .r1 .r0 0) ∧ decode 0b0100101011111110 = .ok (.divs .lr .lr 126) := by decide
theorem test_decode_assign_shift_bitwise :
    decode 0b0101101100000000 = .ok (.asgn .lr .pc 0) ∧ decode 0b0110010100011111 = .ok (.shft .r1 .r1 31) ∧
    decode 0b0111101000000101 = .ok (.bitAnd .lr .lr 5) ∧ decode 0b0111111101001111 = .ok (.bitOr .pc .pc 15) ∧
    decode 0b0111010010000000 = .ok (.bitXor .r1 .r0 0) ∧ decode 0b0111010011000000 = .ok (.bitNot .r1 .r0) := by decide
theorem test_decode_cbx :
    decode 0b1000101001111111 = .ok (.cbx true .z false 127) ∧ decode 0b1000001111111101 = .ok (.cbx false .z true 253) ∧
    decode 0b1000010010000000 = .ok (.cbx false .ov false 128) ∧ decode 0b1000100000000101 = .ok (.cbx true .al false 5) :=
  by decide
theorem test_decode_load_store_stack :
    decode 0b1001000101111111 = .ok (.ld .r0 .r1 127) ∧ decode 0b1001010010000000 = .ok (.st .r1 .r0 0) ∧
    decode 0b1010000000001000 = .ok (.pop 8) ∧ decode 0b1010010000000011 = .ok (.push 3) ∧
    decode 0b1010100000000001 = .ok (.spget .r1) ∧ decode 0b1010110000000011 = .ok (.spset .pc) := by decide
theorem test_decode_sig :
    decode 0b1011000000000000 = .ok .sigQuery ∧ decode 0b1011000100000000 = .ok .sigUsable ∧
    decode 0b1011001000000000 = .ok .sigRelinquish ∧ decode 0b1011001100001000 = .ok (.sigRead 8) ∧
    decode 0b1011010011111111 = .ok (.sigWrite 255) := by decide

/-- The words V-DE-1, 4, 11, 14, 17, 20 to 22 and those of the reserved vectors are `Invalid`, each for its reason. -/
theorem test_decode_invalid :
    decode 0x0FFF = .error .reservedField ∧ decode 0x1E01 = .error .literalInRegisterForm ∧
    decode 0x3401 = .error .literalInRegisterForm ∧ decode 0x6020 = .error .reservedField ∧
    decode 0x6401 = .error .literalInRegisterForm ∧ decode 0x7010 = .error .reservedField ∧
    decode 0x70CF = .error .literalInRegisterForm ∧ decode 0x8100 = .error .reservedCondition ∧
    decode 0x8700 = .error .reservedCondition ∧ decode 0xA000 = .error .reservedStackArgument ∧
    decode 0xA411 = .error .reservedField ∧ decode 0xA80F = .error .reservedStackArgument ∧
    decode 0xAC04 = .error .reservedStackArgument ∧ decode 0xB001 = .error .reservedSignal ∧
    decode 0xBF00 = .error .reservedSignal ∧ decode 0xD123 = .error .unassignedType ∧
    decode 0xFFFF = .error .unassignedType := by decide

/-- The decoder on bytes, little-endian, gives back the rest, and refuses half a word. -/
theorem test_decode_bytes :
    decodeBytes [0x20, 0x10, 0xFF] = .ok (.add .r0 .r0 0x20, [0xFF]) ∧ decodeBytes [0x20] = .error .truncated ∧
    decodeTableWord 16 0x1020 = some (.add .r0 .r0 0x20) ∧ decodeTableWord 16 0xB500 = none := by decide

/-! ## One step: vectors of 95_test_vectors.md -/

/-- The state the CPU step of a vector sees once the word is fetched, with the given port 1. -/
def base (p : Port) : State :=
  { State.created [] [] with
    pc := 0x0102, memCapacity := 0x200, allocated := true, ports := [(1, p)], devices := [(0, ⟨some 1, 16⟩)] }

/-- Port 1 of the vectors, connected. -/
def port (owner : Option Side) (busy exhausted : Bool) (data : List Byte) (rpos : Nat) : Port :=
  ⟨some 0, owner, busy, exhausted, data, rpos, 16⟩

/-- The base state with a neutral port. -/
def base0 : State := base (port none false false [] 0)

/-- The state after a word, if there is one. -/
def after (w : Word) (s : State) : Option State :=
  match execWord w s with
  | .next t => some t
  | _ => none

/-- The state after a step, if there is one. -/
def afterStep (s : State) : Option State :=
  match step s with
  | .next t => some t
  | _ => none

/-- V-NP-1, V-NP-3. -/
theorem test_nop : after 0x0000 { base0 with r0 := 1, sr := 3 } = some { base0 with r0 := 1, sr := 3 } := by decide
theorem test_illegal : after 0xC000 base0 = some { base0 with fault := 4 } := by decide
/-- V-AR-1, V-AR-5. -/
theorem test_add_overflows : after 0x1020 { base0 with r0 := 0xFFF0 } = some { base0 with r0 := 0x10, sr := 2 } := by
  decide
theorem test_add_pc : after 0x1F04 base0 = some { base0 with pc := 0x0106 } := by decide
/-- V-AR-6, V-AR-8. -/
theorem test_sub_borrows : after 0x2502 { base0 with r1 := 1 } = some { base0 with r1 := 0xFFFF, sr := 2 } := by decide
theorem test_sub_order :
    after 0x2100 { base0 with r0 := 0x8000, r1 := 0x7FFF } = some { base0 with r0 := 0x8000, r1 := 0xFFFF, sr := 2 } := by
  decide
/-- V-AR-10, V-AR-12. -/
theorem test_mul_overflows :
    after 0x3400 { base0 with r0 := 0xFFFF, r1 := 0xFFFF } = some { base0 with r0 := 1, r1 := 0xFFFF, sr := 2 } := by
  decide
theorem test_mul_literal : after 0x307F { base0 with r0 := 2 } = some { base0 with r0 := 0xFE } := by decide
/-- V-AR-14, V-AR-15. -/
theorem test_muls_literal : after 0x30FF { base0 with r0 := 5 } = some { base0 with r0 := 0xFFFB } := by decide
theorem test_muls_overflows :
    after 0x3480 { base0 with r0 := 0x8000, r1 := 0xFFFF } = some { base0 with r0 := 0x8000, r1 := 0xFFFF, sr := 2 } := by
  decide
/-- V-AR-19, V-AR-20. -/
theorem test_div : after 0x4400 { base0 with r0 := 3, r1 := 5, sr := 2 } = some { base0 with r1 := 5, sr := 1 } := by
  decide
theorem test_div_zero :
    after 0x4000 { base0 with r0 := 0x1234, sr := 3 } = some { base0 with r0 := 0x1234, sr := 3, fault := 5 } := by decide
/-- V-AR-24, V-AR-26. -/
theorem test_divs_literal : after 0x40FE { base0 with r0 := 7 } = some { base0 with r0 := 0xFFFD } := by decide
theorem test_divs_overflows :
    after 0x4480 { base0 with r0 := 0x8000, r1 := 0xFFFF } = some { base0 with r0 := 0x8000, r1 := 0xFFFF, sr := 2 } := by
  decide
/-- V-AS-1, V-AS-3. -/
theorem test_asgn_literal : after 0x5005 { base0 with r0 := 0x1234, sr := 3 } = some { base0 with r0 := 5, sr := 3 } := by
  decide
theorem test_asgn_reads_pc : after 0x5D00 base0 = some { base0 with r1 := 0x0102 } := by decide
/-- V-SH-1, V-SH-8. -/
theorem test_shft_right : after 0x651F { base0 with r1 := 3 } = some { base0 with r1 := 1, sr := 2 } := by decide
theorem test_shft_far :
    after 0x6400 { base0 with r0 := 0x8000, r1 := 0x8000 } = some { base0 with r1 := 0x8000, sr := 3 } := by decide
/-- V-BW-1, V-BW-3. -/
theorem test_and_bit : after 0x7A05 { base0 with lr := 0x31 } = some { base0 with lr := 0x20 } := by decide
theorem test_and_register :
    after 0x7400 { base0 with r0 := 0xFF0F, r1 := 0x0FF0, sr := 2 } = some { base0 with r0 := 0x0F00, r1 := 0x0FF0 } := by
  decide
/-- V-BW-4, V-BW-5. -/
theorem test_or_bit : after 0x704F { base0 with r0 := 1 } = some { base0 with r0 := 0x8001 } := by decide
theorem test_or_zero : after 0x7440 base0 = some { base0 with sr := 1 } := by decide
/-- V-BW-6, V-BW-7. -/
theorem test_xor_register :
    after 0x7480 { base0 with r0 := 0xFF, r1 := 0xFF } = some { base0 with r1 := 0xFF, sr := 1 } := by decide
theorem test_xor_bit : after 0x7080 { base0 with r0 := 0xFFFF } = some { base0 with r0 := 0xFFFE } := by decide
/-- V-BW-8, V-BW-9. -/
theorem test_not_self : after 0x70C0 { base0 with r0 := 0x0F0F } = some { base0 with r0 := 0xF0F0 } := by decide
theorem test_not_source :
    after 0x74C0 { base0 with r0 := 0x1234, r1 := 0xFFFF } = some { base0 with r1 := 0xFFFF, sr := 1 } := by decide
/-- V-CB-5, V-CB-4. -/
theorem test_cbx_links : after 0x8805 { base0 with lr := 0x5555 } = some { base0 with lr := 0x102, pc := 0x10C } := by
  decide
theorem test_cbx_not_taken : after 0x8A01 { base0 with lr := 0x5555 } = some { base0 with lr := 0x5555 } := by decide
/-- V-LS-6, V-LS-4. -/
theorem test_ld_odd :
    after 0x9400 { base0 with r1 := 0x91, mem := [(0x91, 0x12), (0x92, 0x56)] } =
      some { base0 with r0 := 0x5612, r1 := 0x91, mem := [(0x91, 0x12), (0x92, 0x56)] } := by decide
theorem test_ld_end : after 0x9400 { base0 with r1 := 0x1FF } = some { base0 with r1 := 0x1FF, fault := 2 } := by decide
/-- V-LS-12, V-LS-10. -/
theorem test_st_pc : after 0x9F80 base0 = some { base0 with mem := [(0x102, 0x02), (0x103, 0x01)] } := by decide
theorem test_st_end :
    after 0x9480 { base0 with r0 := 0xBEEF, r1 := 0x1FF } =
      some { base0 with r0 := 0xBEEF, r1 := 0x1FF, fault := 3 } := by decide
/-- V-ST-2, V-ST-5. -/
theorem test_push :
    after 0xA403 { base0 with r0 := 0x1111, r1 := 0x2222, sp := 0x80 } =
      some { base0 with
        r0 := 0x1111, r1 := 0x2222, sp := 0x7C, mem := [(0x7C, 0x22), (0x7D, 0x22), (0x7E, 0x11), (0x7F, 0x11)] } := by
  decide
theorem test_push_partly :
    after 0xA403 { base0 with r0 := 0x1111, r1 := 0x2222, sp := 2 } =
      some { base0 with r0 := 0x1111, r1 := 0x2222, sp := 0, fault := 3, mem := [(0, 0x11), (1, 0x11)] } := by decide
/-- V-ST-3, V-ST-6. -/
theorem test_pop :
    after 0xA003 { base0 with sp := 0x7C, mem := [(0x7C, 0x22), (0x7D, 0x22), (0x7E, 0x11), (0x7F, 0x11)] } =
      some { base0 with
        r0 := 0x1111, r1 := 0x2222, sp := 0x80, mem := [(0x7C, 0x22), (0x7D, 0x22), (0x7E, 0x11), (0x7F, 0x11)] } := by
  decide
theorem test_pop_partly :
    after 0xA007 { base0 with sp := 0x1FC, mem := [(0x1FC, 3), (0x1FE, 2)] } =
      some { base0 with lr := 3, r1 := 2, sp := 0x200, fault := 2, mem := [(0x1FC, 3), (0x1FE, 2)] } := by decide
/-- V-ST-9, V-ST-10. -/
theorem test_spget : after 0xA801 { base0 with sp := 0x7E } = some { base0 with r1 := 0x7E, sp := 0x7E } := by decide
theorem test_spset : after 0xAC00 { base0 with r0 := 0x80 } = some { base0 with r0 := 0x80, sp := 0x80 } := by decide
/-- V-SG-5, V-SG-1. -/
theorem test_sig_query :
    after 0xB000 { base (port (some .device) false false [0x41, 0x42, 0x43] 0) with r0 := 1 } =
      some { base (port (some .device) false false [0x41, 0x42, 0x43] 0) with r0 := 1, lr := 0x31 } := by decide
theorem test_sig_no_port : after 0xB000 { base0 with r0 := 2 } = some { base0 with r0 := 2, fault := 6 } := by decide
/-- V-SG-12, V-SG-14. -/
theorem test_sig_usable :
    after 0xB100 { base (port (some .program) false false [0x34, 0x12] 0) with r0 := 1 } =
      some { base (port (some .program) false false [0x34, 0x12] 0) with r0 := 1, lr := 14 } := by decide
theorem test_sig_usable_busy :
    after 0xB100 { base (port (some .device) true false [0x41] 0) with r0 := 1 } =
      some { base (port (some .device) true false [0x41] 0) with r0 := 1, sr := 1 } := by decide
/-- V-SG-16, V-SG-17. -/
theorem test_sig_relinquish :
    after 0xB200 { base (port (some .program) false true [0x34, 0x12] 2) with r0 := 1, sr := 1 } =
      some { base (port (some .device) false false [] 0) with r0 := 1, sr := 1 } := by decide
theorem test_sig_relinquish_early :
    after 0xB200 { base (port (some .program) false false [0x34, 0x12] 1) with r0 := 1 } =
      some { base (port (some .program) false false [0x34, 0x12] 1) with r0 := 1, fault := 12 } := by decide
/-- V-SG-22, V-SG-30. -/
theorem test_sig_read :
    after 0xB308 { base (port (some .device) false false [0x41, 0x42, 0x43] 0) with r0 := 1, r1 := 0x40 } =
      some { base (port (some .device) false true [0x41, 0x42, 0x43] 3) with
        r0 := 1, r1 := 0x40, lr := 3, mem := [(0x40, 0x41), (0x41, 0x42), (0x42, 0x43)] } := by decide
theorem test_sig_read_range :
    after 0xB308 { base (port (some .device) false false [0x41, 0x42, 0x43] 0) with r0 := 1, r1 := 0x1FE } =
      some { base (port (some .device) false false [0x41, 0x42, 0x43] 0) with r0 := 1, r1 := 0x1FE, fault := 3 } := by
  decide
/-- V-SG-33, V-SG-36. -/
theorem test_sig_write :
    after 0xB402 { base (port (some .program) false false [0x34, 0x12] 1) with
      r0 := 1, r1 := 0x90, mem := [(0x90, 0x56), (0x91, 0x78)] } =
      some { base (port (some .program) true false [0x34, 0x12, 0x56, 0x78] 1) with
        r0 := 1, r1 := 0x90, lr := 2, mem := [(0x90, 0x56), (0x91, 0x78)] } := by decide
theorem test_sig_write_none :
    after 0xB400 { base0 with r0 := 1, r1 := 0x90 } = some { base0 with r0 := 1, r1 := 0x90, sr := 1 } := by decide

/-! ## The tick -/

/-- V-L1-7 and V-L1-8: the fetch at the capacity and one byte below it. -/
theorem test_fetch_at_capacity :
    ({ base0 with pc := 0x200, ir := 7 }).fetch = ({ base0 with pc := 0x200, fault := 1 }, none) := by decide
theorem test_fetch_below_capacity :
    ({ base0 with pc := 0x1FF, ir := 7 }).fetch = ({ base0 with pc := 0x1FF, fault := 1 }, none) := by decide

/-- V-L1-10, tick t: the device writes three bytes and the CPU's SIG.READ faults PORT_BUSY (V-SG-28). -/
theorem test_tick_device_writes :
    afterStep { base0 with
      pc := 0x100, r0 := 1, mem := [(0x100, 0x08), (0x101, 0xB3)], polls := [[(0, [.write [0x41, 0x42, 0x43]])]] } =
      some { base (port (some .device) true false [0x41, 0x42, 0x43] 0) with
        pc := 0x102, ir := 0xB308, r0 := 1, fault := 8, mem := [(0x100, 0x08), (0x101, 0xB3)], ticks := 1 } := by decide

/-- V-L1-10, ticks t+1 and t+2: settling lets the program read, then the device relinquishes. -/
theorem test_tick_program_reads :
    afterStep { base (port (some .device) true false [0x41] 0) with
      pc := 0x100, r0 := 1, r1 := 0x40, mem := [(0x100, 0x08), (0x101, 0xB3)], polls := [[]] } =
      some { base (port (some .device) false true [0x41] 1) with
        pc := 0x102, ir := 0xB308, r0 := 1, r1 := 0x40, lr := 1
        mem := [(0x40, 0x41), (0x100, 0x08), (0x101, 0xB3)], ticks := 1 } := by decide
theorem test_tick_device_relinquishes :
    afterStep { base (port (some .device) false true [0x41] 1) with fault := 4, polls := [[(0, [.relinquish])]] } =
      some { base (port (some .program) false false [] 0) with fault := 4, ticks := 1 } := by decide

/-- V-PT-2 to V-PT-5: the budget of a poll. -/
theorem test_poll_budget :
    (port none false false [] 0).deviceCalls 2 [.write [1, 2, 3], .write [3]] =
      (port (some .device) true false [1, 2] 0, [.wrote 2, .failed .busy]) ∧
    (port (some .program) false false [0x34, 0x12] 0).deviceCalls 1 [.read 2, .read 1] =
      (port (some .program) false false [0x34, 0x12] 1, [.got [0x34], .got []]) ∧
    (port (some .program) false false [0x34, 0x12] 1).deviceCalls 1 [.read 1] =
      (port (some .program) false true [0x34, 0x12] 2, [.got [0x12]]) := by decide

/-- The polls of two ticks: the port is seen with the transfer of the tick before complete, and in the second tick, which
names no call, unchanged; no poll follows a disconnect (45_device_port.md R260; 40_step.md R151). -/
theorem test_poll_history :
    pollHistory 0 [.tick, .tick, .disconnect 0, .tick]
      { base (port (some .device) true false [0x41] 0) with fault := 4, polls := [[(0, [.write [0x42]])], [], []] } =
      [(port (some .device) false false [0x41] 0, [.write [0x42]]),
        (port (some .device) false false [0x41, 0x42] 0, [])] := by decide

/-- The device of program P6: in every poll in which its port is readable it reads one byte, and it does nothing else. -/
def readsOneByte (history : List (Port × List DeviceCall)) : Prop :=
  ∀ e ∈ history, e.2 = if e.1.isReadableAndNotBusy .device then [.read 1] else []

/-- Program P6 after its SIG.WRITE, the CPU stopped so that only the devices act, with the rounds of the ticks to come. -/
def afterWrite (polls : List PollRound) : State :=
  { base (port (some .program) true false [0x34, 0x12] 0) with fault := 4, polls := polls }

/-- `LP_DEVICES` for the device of P6, in a run in which it drains the mailbox and then finds nothing, and in a run in which
the host reconnects it before: each run has the rounds that device makes in it (70_reset_and_hazards.md R336). -/
theorem test_launch_devices_p6 :
    (afterWrite [[(0, [.read 1])], [(0, [.read 1])], []]).LaunchDevices [.tick, .tick, .tick]
      (fun d history => d = 0 → readsOneByte history) ∧
    (afterWrite [[(0, [.read 1])], []]).LaunchDevices [.tick, .disconnect 0, .connect 0 1, .tick]
      (fun d history => d = 0 → readsOneByte history) := by
  refine ⟨?_, ?_⟩ <;> rintro _ rfl <;> rw [readsOneByte] <;> decide

/-- SIG.USABLE of a mailbox too large for a word: `Z` is clear, for the count is not 0 (46_sig.md R282). -/
theorem test_sig_usable_wide :
    ∃ t, exec .sigUsable { base { port none false false [] 0 with capacity := 65536 } with r0 := 1, sr := 1 } = .next t ∧
      t.z = false :=
  ⟨_, rfl, Bool.eq_false_iff.mpr fun h =>
    absurd ((State.usableWord_eq_zero _ _).mp ((State.writeSigResult_spec _ _).2.1.1.mp h)) (by decide)⟩

/-- The host's question: the word placed by `withFetchWord` is the first instruction after reset. -/
theorem test_with_fetch_word :
    afterStep (State.reset.withFetchWord 16 0x5005) =
      some { State.reset with pc := 2, ir := 0x5005, r0 := 5, mem := [(0, 0x05), (1, 0x50)], ticks := 1 } := by decide

/-- V-L1-1 and V-L1-3: words in a memory of four bytes. -/
theorem test_memory_word :
    (({ base0 with memCapacity := 4 }).writeWord 2 0xABCD).map (fun s : State => (s.readByte 2, s.readByte 3, s.readWord 2)) =
      some (some 0xCD, some 0xAB, some 0xABCD) ∧
    ({ base0 with memCapacity := 4 }).writeWord 3 0xFFFF = none ∧
    ({ base0 with memCapacity := 4 }).readWord 0xFFFF = none ∧
    (({ base0 with memCapacity := 4, mem := [(3, 0x44)] }).readByte 3) = some 0x44 := by decide

/-- A write of the fill byte removes the entry, one between two others goes between them. -/
theorem test_memory_canonical :
    Memory.write [(1, 5), (9, 6)] 1 0 = [(9, 6)] ∧ Memory.write [(1, 5), (9, 6)] 4 7 = [(1, 5), (4, 7), (9, 6)] ∧
    Memory.write [(1, 5), (9, 6)] 9 8 = [(1, 5), (9, 8)] := by decide

/-! ## The hypotheses of the obligations are met

Each theorem is named after its obligation and gives a state and operands that meet all hypotheses of the statement, or
of one of its clauses, at a boundary value where the clause has a range. -/

/-- A port that the device owns and the program can read. -/
def readyPort : Port := port (some .device) false false [0x41, 0x42, 0x43] 0

/-- A port that the program owns and the device has drained. -/
def drainedPort : Port := port (some .program) false true [0x34, 0x12] 2

/-- A port without a device. -/
def freePort : Port := Port.initial 16

/-- The base state with the given port 1 and `r0` naming it. -/
def sig (p : Port) : State := { base p with r0 := 1 }

theorem test_meets_DecodeOfEncodeIsTheInstruction : (Instr.cbx true .ov true 0x80).WellFormed := by decide
theorem test_meets_decode_ok :
    decode 0x1503 = .ok (.add .r1 .r1 3) ∧ decode 0xA40F = .ok (.push 15) ∧ decode 0xB4FF = .ok (.sigWrite 255) := by
  decide
theorem test_meets_OperandsHaveTheLayoutTablesValue :
    decode 0x1400 = .ok (.add .r1 .r0 0) ∧ decode 0x96BF = .ok (.st .r1 .lr 0x3F) ∧ decode 0xA803 = .ok (.spget .pc) ∧
    decode 0x10FF = .ok (.add .r0 .r0 0xFF) ∧ decode 0x4F7F = .ok (.div .pc .pc 0x7F) ∧
    decode 0x30C0 = .ok (.muls .r0 .r0 0x40) ∧ decode 0x6010 = .ok (.shft .r0 .r0 0x10) ∧
    decode 0x8480 = .ok (.cbx false .ov false 0x80) ∧ decode 0x9F40 = .ok (.ld .pc .pc 0x40) ∧
    decode 0xB3FF = .ok (.sigRead 0xFF) := by decide

theorem test_meets_StepRunsTheDecodedInstruction :
    ∃ (s : State) (i : Instr), s.allocated = true ∧ s.fault = 0 ∧ s.pc.toNat + 1 < s.memCapacity ∧ i.WellFormed ∧
      decode (wordOfBytes (s.mem.read s.pc.toNat) (s.mem.read (s.pc.toNat + 1))) = .ok i :=
  ⟨{ base0 with pc := 0x1FE, mem := [(0x1FE, 0x20), (0x1FF, 0x10)] }, .add .r0 .r0 0x20, by decide⟩
theorem test_meets_InvalidWordOnlyRaisesInvalidInstruction : decode 0xC000 = .error .unassignedType := by decide
theorem test_meets_FailedFetchRaisesInvalidFetch :
    ∃ s : State, s.allocated = true ∧ s.fault = 0 ∧ s.memCapacity ≤ s.pc.toNat + 1 := ⟨{ base0 with pc := 0x1FF }, by decide⟩
theorem test_meets_FaultedStepKeepsTheCpu : ∃ s : State, s.allocated = true ∧ s.Faulted :=
  ⟨{ base0 with fault := 12 }, by decide⟩
theorem test_meets_HaltedStepStaysHalted : ∃ s : State, s.allocated = true ∧ s.Halted :=
  ⟨{ base0 with pc := 0x100, mem := [(0x100, 0xFF), (0x101, 0x80)] }, by decide⟩

theorem test_meets_ResetMeetsTheInvariant :
    ∃ (ports : List (PortAddr × Nat)) (devices : List (DeviceId × Nat)),
      (ports.map fun e => e.1).Pairwise (· < ·) ∧ (∀ e ∈ ports, 1 ≤ e.2) ∧
      (devices.map fun e => e.1).Pairwise (· < ·) := ⟨[(1, 1), (0xFFFF, 9)], [(0, 0), (3, 4)], by decide⟩

/-- A state of a running machine, about to read from port 1. -/
def reading : State :=
  { sig readyPort with pc := 0x100, mem := [(0x100, 0x08), (0x101, 0xB3)], polls := [[]] }

theorem test_reading_links : reading.LinksOk := by
  refine ⟨by decide, ?_, ?_⟩ <;> simp [reading, sig, base, readyPort, port, State.conn, deviceAt, State.portAt, portAt]
theorem test_reading_inv : reading.Inv :=
  ⟨⟨by decide, by decide, (by decide : 0x200 ≤ 65536)⟩, by decide, by decide, by decide, test_reading_links,
    fun h => Bool.noConfusion h⟩
theorem test_meets_StepKeepsTheInvariant : ∃ s t : State, s.Inv ∧ step s = .next t := ⟨reading, _, test_reading_inv, rfl⟩
theorem test_meets_HostActionsKeepTheInvariant :
    ∃ (a : HostAction) (s t : State), s.Inv ∧ hostAction a s = .next t := ⟨.disconnect 0, reading, _, test_reading_inv, rfl⟩

theorem test_meets_ClearFaultAndResetLeaveFaulted :
    ∃ s : State, s.allocated = true ∧ s.pc.toNat + 1 < s.memCapacity := ⟨{ base0 with pc := 0x1FE, fault := 2 }, by decide⟩
theorem test_meets_Connect :
    ∃ (s : State) (d : DeviceId) (a : PortAddr) (dev : Device) (p : Port), deviceAt s.devices d = some dev ∧
      s.portAt a = some p ∧ p.dev = none ∧ dev.conn = none :=
  ⟨State.created [(1, 16)] [(0, 4)], 0, 1, ⟨none, 4⟩, freePort, by decide⟩
/-- A state in which the device is connected and another, which polls nothing, is not; a port without a device. -/
theorem test_meets_PollsAreOneEachAndWithinTheBudget :
    ∃ (s : State) (dev : Device) (p q : Port), s.Inv ∧ (0, dev) ∈ s.devices ∧ dev.conn = some 1 ∧ s.portAt 1 = some p ∧
      s.conn 7 = none ∧ s.portAt 2 = some q ∧ q.dev = none := by
  refine ⟨{ reading with ports := reading.ports ++ [(2, freePort)] }, ⟨some 1, 16⟩, readyPort, freePort,
    ⟨⟨by decide, by decide, (by decide : 0x200 ≤ 65536)⟩, by decide, by decide, by decide, ⟨by decide, ?_, ?_⟩,
      fun h => Bool.noConfusion h⟩, by decide⟩ <;>
    simp [reading, sig, base, readyPort, freePort, Port.initial, port, State.conn, deviceAt, State.portAt, portAt]
theorem test_meets_Connect_fails :
    ∃ (s : State) (dev : Device), deviceAt s.devices 0 = some dev ∧ s.portAt 2 = none ∧
      (∃ p, s.portAt 1 = some p ∧ p.dev ≠ none) ∧ dev.conn ≠ none :=
  ⟨base0, ⟨some 1, 16⟩, by decide, by decide, ⟨port none false false [] 0, by decide⟩, by decide⟩
theorem test_meets_Disconnect :
    ∃ (s t : State) (dev free : Device) (p : Port), deviceAt s.devices 0 = some dev ∧ dev.conn = some 1 ∧
      s.portAt 1 = some p ∧ deviceAt t.devices 0 = some free ∧ free.conn = none ∧ deviceAt s.devices 9 = none :=
  ⟨base readyPort, State.created [(1, 16)] [(0, 4)], ⟨some 1, 16⟩, ⟨none, 4⟩, readyPort, by decide⟩
theorem test_meets_LaunchMeetsItsPremises :
    ∃ (n : Nat) (image : List Word) (contents : List Byte), n ≤ 65536 ∧ 2 * image.length ≤ n ∧
      2 * image.length ≤ 4 ∧ 4 < n ∧ contents[4]? = some 9 := ⟨5, [0x5005, 0x80FF], [1, 2, 3, 4, 9], by decide⟩
theorem test_meets_Launch_connection :
    ∃ (ports : List (PortAddr × Nat)) (devices : List (DeviceId × Nat)) (connection : List (DeviceId × PortAddr)),
      (ports.map fun e => e.1).Pairwise (· < ·) ∧ (devices.map fun e => e.1).Pairwise (· < ·) ∧
      Connects ports devices connection :=
  ⟨[(1, 16), (0xFFFF, 1)], [(0, 4), (3, 0)], [(3, 1), (0, 0xFFFF)], by decide⟩
theorem test_meets_AllocationHappensOnce :
    (∃ s : State, s.allocated = true ∨ s.ticks ≠ 0) ∧ ∃ s : State, s.allocated = false ∧ s.ticks = 0 :=
  ⟨⟨base0, by decide⟩, ⟨State.created [] [], by decide⟩⟩

theorem test_meets_ByteAccessesCheckTheCapacity :
    ∃ (s : State) (a b : Nat), a < s.memCapacity ∧ s.memCapacity ≤ b ∧ b = a + 1 := ⟨base0, 0x1FF, 0x200, by decide⟩
theorem test_meets_WordAccessesAreLittleEndian :
    ∃ (s : State) (a b : Nat), a + 1 < s.memCapacity ∧ s.memCapacity ≤ b + 1 ∧ b = a + 1 ∧ s.memCapacity ≤ 65536 :=
  ⟨base0, 0x1FE, 0x1FF, by decide⟩
theorem test_meets_BlockRangeCheckCoversEveryByte :
    ∃ (s : State) (a : Word) (c k : Nat), s.inRange a c = true ∧ k < c := ⟨base0, 0x1FC, 4, 3, by decide⟩

theorem test_meets_DivWritesFloorQuotient :
    ∃ (rs rd : Reg) (lit : BitVec 7) (s : State), (if rs = rd then lit.toNat else (s.x rs).toNat) ≠ 0 ∧
      (if rs = rd then lit.toInt else (s.x rs).toInt) ≠ 0 := ⟨.r1, .r0, 0, { base0 with r1 := 0x8000 }, by decide⟩
theorem test_meets_DivisionByZeroOnlyRaisesTheFault :
    ∃ (rs rd : Reg) (lit : BitVec 7) (s : State), if rs = rd then lit = 0 else s.x rs = 0 :=
  ⟨.r1, .r0, 0, { base0 with r0 := 7 }, by decide⟩
theorem test_meets_CbxBranchesOnItsCondition :
    ∃ s t : State, s.sr.getLsbD 0 = true ∧ t.sr.getLsbD 0 = false := ⟨{ base0 with sr := 1 }, base0, by decide⟩

theorem test_meets_LdLoadsTheWordAtItsAddress :
    ∃ s t : State, (s.effectiveAddress .r1 0).toNat + 1 < s.memCapacity ∧
      t.memCapacity ≤ (t.effectiveAddress .r1 0).toNat + 1 :=
  ⟨{ base0 with r1 := 0x1FE }, { base0 with r1 := 0x1FF }, by decide⟩
theorem test_meets_StStoresTheWordAtItsAddress :
    ∃ s t : State, (s.effectiveAddress .pc 0x7F).toNat + 1 < s.memCapacity ∧
      t.memCapacity ≤ (t.effectiveAddress .pc 0x7F).toNat + 1 :=
  ⟨{ base0 with pc := 0x1FF }, { base0 with pc := 0x200 }, by decide⟩
theorem test_meets_StoreIsSeenByTheNextFetch :
    ∃ s t : State, s.fault = 0 ∧ s.effectiveAddress .pc 0 = s.pc ∧ s.pc.toNat + 1 < s.memCapacity ∧
      exec (.st .pc .r0 0) s = .next t := ⟨{ base0 with r0 := 0x80FF }, _, by decide, by decide, by decide, rfl⟩

theorem test_meets_PushStoresTheListedRegisters :
    ∃ s : State, ∀ k, k < (maskRegs 3).length → (s.sp - 2#16 * BitVec.ofNat 16 (k + 1)).toNat + 1 < s.memCapacity :=
  ⟨{ base0 with sp := 4 }, by decide⟩
theorem test_meets_PushStopsAtTheFirstWordThatDoesNotFit :
    ∃ (s : State) (n : Nat), n < (maskRegs 3).length ∧
      (∀ k, k < n → (s.sp - 2#16 * BitVec.ofNat 16 (k + 1)).toNat + 1 < s.memCapacity) ∧
      s.memCapacity ≤ (s.sp - 2#16 * BitVec.ofNat 16 (n + 1)).toNat + 1 := ⟨{ base0 with sp := 2 }, 1, by decide⟩
theorem test_meets_PopLoadsTheListedRegisters :
    ∃ s : State, ∀ k, k < (maskRegs 3).reverse.length → (s.sp + 2#16 * BitVec.ofNat 16 k).toNat + 1 < s.memCapacity :=
  ⟨{ base0 with sp := 0x1FC }, by decide⟩
theorem test_meets_PopStopsAtTheFirstWordThatDoesNotFit :
    ∃ (s : State) (n : Nat), n < (maskRegs 7).reverse.length ∧
      (∀ k, k < n → (s.sp + 2#16 * BitVec.ofNat 16 k).toNat + 1 < s.memCapacity) ∧
      s.memCapacity ≤ (s.sp + 2#16 * BitVec.ofNat 16 n).toNat + 1 := ⟨{ base0 with sp := 0x1FC }, 2, by decide⟩
theorem test_meets_PopAfterPushRestoresTheRegisters :
    ∃ s t u : State,
      (∀ k, k < (maskRegs 3).length → (s.sp - 2#16 * BitVec.ofNat 16 (k + 1)).toNat + 1 < s.memCapacity) ∧
      exec (.push 3) s = .next t ∧ u.mem = t.mem ∧ u.sp = t.sp ∧ u.memCapacity = t.memCapacity :=
  ⟨{ base0 with sp := 4, r0 := 0x1111 }, _, { base0 with sp := 0, r0 := 9, mem := [(2, 0x11), (3, 0x11)] },
    by decide, rfl, by decide, by decide, by decide⟩

theorem test_meets_ChecksPassExactlyWhenTheQueriesHold : ∃ p : Port, p.Sound := ⟨readyPort, by decide⟩
theorem test_meets_Read :
    ∃ (p q : Port) (bytes : List Byte), p.Sound ∧ p.read .program 3 = .ok (q, bytes) := ⟨readyPort, _, _, by decide, rfl⟩
theorem test_meets_Write :
    ∃ (p q r : Port) (c d : Nat), p.write .device [] = .ok (q, c) ∧ c = 0 ∧ p.write .device [7] = .ok (r, d) ∧ 0 < d :=
  ⟨port none false false [] 0, _, _, _, _, rfl, by decide, rfl, by decide⟩
/-- For each answer of a read, a write and a relinquish, a port that gets it. -/
theorem test_meets_port_answers :
    freePort.read .program 1 = .error .notConnected ∧
    (port (some .device) true false [1] 0).read .program 1 = .error .busy ∧
    readyPort.read .device 1 = .error .notReadable ∧ drainedPort.read .device 1 = .error .exhausted ∧
    (port (some .program) false false [] 0).read .device 1 = .error .notReadable ∧
    freePort.write .device [7] = .error .notConnected ∧
    (port (some .device) true false [1] 0).write .device [7] = .error .busy ∧
    readyPort.write .program [7] = .error .notOwned ∧ drainedPort.write .program [7] = .error .exhausted ∧
    freePort.relinquish .device = .error .notConnected ∧ readyPort.relinquish .program = .error .notOwned ∧
    (port (some .device) true false [1] 0).relinquish .device = .error .busy ∧
    readyPort.relinquish .device = .error .notExhausted ∧
    drainedPort.relinquish .program = .ok (port (some .device) false false [] 0) := by
  refine ⟨rfl, rfl, rfl, rfl, rfl, rfl, rfl, rfl, rfl, rfl, rfl, rfl, rfl, rfl⟩
theorem test_meets_DeviceCallsActWithinTheBudget :
    (∃ p : Port, p.dev ≠ none ∧ p.busy = false ∧ p.owner = some .program ∧ p.exhausted = false ∧ p.rpos < p.data.length) ∧
    (∃ p q : Port, p.dev ≠ none ∧ p.busy = false ∧ p.owner = none ∧ q.dev ≠ none ∧ q.busy = false ∧
      q.owner = some .device ∧ q.exhausted = false) ∧
    (∃ p : Port, p.dev ≠ none ∧ p.owner = some .device ∧ p.busy = false ∧ p.exhausted = true) ∧
    (∃ p : Port, p.read .device 1 = .error .notReadable ∧ p.write .device [7] = .error .exhausted) ∧
    (∃ p : Port, p.relinquish .device = .error .notExhausted) ∧ readyPort.Sound :=
  ⟨⟨port (some .program) false false [1] 0, by decide⟩,
    ⟨port none false false [] 0, port (some .device) false false [] 0, by decide⟩,
    ⟨port (some .device) false true [1] 1, by decide⟩, ⟨port (some .device) false true [1] 1, rfl, rfl⟩,
    ⟨readyPort, rfl⟩, by decide⟩
theorem test_meets_PortStateMachineTransitions :
    (∃ (p q : Port) (c : Nat), p.phase = some .neutral ∧ p.data.length ≤ p.capacity ∧
      p.write .program [7] = .ok (q, c) ∧ 0 < c) ∧
    (∃ p : Port, p.phase = some (.filled .device) ∧ p.data.length ≤ p.capacity) ∧
    (∃ (p q : Port) (bytes : List Byte), p.phase = some (.ready .device) ∧ p.data.length ≤ p.capacity ∧
      p.read .program 2 = .ok (q, bytes)) ∧
    (∃ p q : Port, p.phase = some (.drained .program) ∧ p.data.length ≤ p.capacity ∧ p.relinquish .program = .ok q) :=
  ⟨⟨port none false false [] 0, _, _, by decide, by decide, rfl, by decide⟩,
    ⟨port (some .device) true false [1] 0, by decide⟩, ⟨readyPort, _, _, by decide, by decide, rfl⟩,
    ⟨drainedPort, _, by decide, by decide, rfl⟩⟩
theorem test_meets_OwnershipMovesOnlyAsRuled :
    (∃ (s t : State) (p q : Port), exec .sigRelinquish s = .next t ∧ s.portAt 1 = some p ∧ t.portAt 1 = some q ∧
      q.owner ≠ p.owner) ∧
    (∃ p : Port, (p.deviceCall 4 (.write [7])).1.owner ≠ p.owner) :=
  ⟨⟨sig drainedPort, _, drainedPort, port (some .device) false false [] 0, rfl, by decide, by decide, by decide⟩,
    ⟨port none false false [] 0, by decide⟩⟩

theorem test_meets_SigQueryReportsThePort : ∃ (s : State) (p : Port), s.portAt s.r0 = some p ∧ p.Sound :=
  ⟨sig readyPort, readyPort, by decide⟩
theorem test_meets_SigUsableReportsTheCount :
    ∃ (s : State) (p : Port), s.portAt s.r0 = some p ∧ p.data.length - p.rpos < 65536 := ⟨sig readyPort, readyPort, by decide⟩
theorem test_meets_SigRelinquishGivesTheMailboxAway :
    ∃ (s : State) (p : Port), s.portAt s.r0 = some p ∧ p.dev ≠ none ∧ p.owner = some .program ∧ p.busy = false ∧
      p.exhausted = true := ⟨sig drainedPort, drainedPort, by decide⟩
theorem test_meets_SigReadMovesBytesToMemory :
    ∃ (s : State) (cnt : BitVec 8) (p : Port), s.portAt s.r0 = some p ∧ p.dev ≠ none ∧ p.busy = false ∧
      p.owner = some .device ∧ p.exhausted = false ∧ p.rpos < p.data.length ∧
      s.r1.toNat + min cnt.toNat (p.data.length - p.rpos) - 1 < s.memCapacity :=
  ⟨{ sig readyPort with r1 := 0x1FD }, 8, readyPort, by decide⟩
theorem test_meets_SigWriteMovesBytesToTheMailbox :
    ∃ (s : State) (cnt : BitVec 8) (p : Port), s.portAt s.r0 = some p ∧ p.dev ≠ none ∧ p.busy = false ∧
      p.owner = none ∧ s.r1.toNat + min cnt.toNat (p.capacity - p.data.length) - 1 < s.memCapacity :=
  ⟨{ sig (port none false false [] 0) with r1 := 0x1F0 }, 255, port none false false [] 0, by decide⟩

/-- The clauses of SigFaultsInTheOrderOfItsChecks, in their order: the ports that meet them, then the two block ranges. -/
theorem test_meets_SigFaultsInTheOrderOfItsChecks :
    ({ base0 with r0 := 2 }).portAt 2 = none ∧ (∀ p, (sig p).portAt (sig p).r0 = some p) ∧ freePort.dev = none ∧
    (readyPort.dev ≠ none ∧ readyPort.owner ≠ some .program ∧ readyPort.busy = false) ∧
    (∃ p : Port, p.dev ≠ none ∧ p.owner = some .program ∧ p.busy = true) ∧
    (∃ p : Port, p.dev ≠ none ∧ p.owner = some .program ∧ p.busy = false ∧ p.exhausted = false) ∧
    (∃ p : Port, p.dev ≠ none ∧ p.busy = false ∧ p.owner = some .device ∧ p.exhausted = true) ∧
    (∃ p : Port, p.dev ≠ none ∧ p.busy = false ∧ p.owner = some .device ∧ p.exhausted = false ∧ p.rpos = p.data.length) ∧
    (drainedPort.dev ≠ none ∧ drainedPort.busy = false ∧ drainedPort.owner ≠ some .device ∧
      drainedPort.owner = some .program ∧ drainedPort.exhausted = true) ∧
    (readyPort.exhausted = false ∧ readyPort.rpos < readyPort.data.length ∧
      0 < min (8#8).toNat (readyPort.data.length - readyPort.rpos) ∧
      0x200 ≤ (0x1FE#16).toNat + min (8#8).toNat (readyPort.data.length - readyPort.rpos) - 1) ∧
    (∃ p : Port, p.dev ≠ none ∧ p.busy = false ∧ p.owner = none ∧ 0 < min (2#8).toNat (p.capacity - p.data.length) ∧
      0x200 ≤ (0x1FF#16).toNat + min (2#8).toNat (p.capacity - p.data.length) - 1) :=
  ⟨by decide, fun _ => rfl, by decide, by decide, ⟨port (some .program) true false [1] 0, by decide⟩,
    ⟨port (some .program) false false [1] 0, by decide⟩, ⟨port (some .device) false true [1] 1, by decide⟩,
    ⟨port (some .device) false false [] 0, by decide⟩, by decide, by decide, ⟨port none false false [] 0, by decide⟩⟩

theorem test_meets_FaultsArePreciseButForPushAndPop :
    ∃ (i : Instr) (s t : State), s.fault = 0 ∧ (∀ mask, i ≠ .push mask ∧ i ≠ .pop mask) ∧ exec i s = .next t ∧
      t.fault ≠ 0 := ⟨.sigQuery, base0, _, by decide, fun _ => by simp, rfl, by decide⟩
theorem test_meets_InstructionsRaiseOnlyTheirCodes :
    ∃ (i : Instr) (s t : State), exec i s = .next t ∧ t.fault ≠ s.fault :=
  ⟨.sigRelinquish, sig readyPort, _, rfl, by decide⟩
theorem test_meets_OnlyFlagSettersWriteSr : ∃ (i : Instr) (s t : State), exec i s = .next t ∧ t.sr ≠ s.sr :=
  ⟨.sub .r0 .r0 1, base0, _, rfl, by decide⟩
theorem test_meets_OnlySigSeesThePorts :
    ∃ (i : Instr) (s t : State),
      (i ≠ .sigQuery ∧ i ≠ .sigUsable ∧ i ≠ .sigRelinquish ∧ ∀ cnt, i ≠ .sigRead cnt ∧ i ≠ .sigWrite cnt) ∧
      exec i s = .next t := ⟨.push 1, { base0 with sp := 2 }, _, by simp, rfl⟩

end Sys2Proof.Tests
end

section
/-! PROOFS. The statements about the state and its invariant (10_state.md R37, R38, R43, R44, R50, R51). -/

namespace Sys2Proof.Machine

/-! ## What an instruction can do -/

/-- The data part of an instruction: it may write numbered registers, `sp`, bytes of memory that exist and a port, and it
writes neither `sr` nor `fault`. The ports evolve as they do under a device. -/
structure DataEffect (s t : State) : Prop where
  sr : t.sr = s.sr
  fault : t.fault = s.fault
  memory : s.MemoryOk → t.MemoryOk
  memCapacity : t.memCapacity = s.memCapacity
  allocated : t.allocated = s.allocated
  ticks : t.ticks = s.ticks
  devices : t.devices = s.devices
  ports : PortsEvolve s.ports t.ports

theorem DataEffect.refl (s : State) : DataEffect s s := ⟨rfl, rfl, id, rfl, rfl, rfl, rfl, .refl _⟩

theorem DataEffect.trans {s t u : State} (h : DataEffect s t) (k : DataEffect t u) : DataEffect s u where
  sr := k.sr.trans h.sr
  fault := k.fault.trans h.fault
  memory := k.memory ∘ h.memory
  memCapacity := k.memCapacity.trans h.memCapacity
  allocated := k.allocated.trans h.allocated
  ticks := k.ticks.trans h.ticks
  devices := k.devices.trans h.devices
  ports := h.ports.trans k.ports

theorem DataEffect.setX (s : State) (r : Reg) (v : Word) : DataEffect s (s.setX r v) := by
  cases r <;> exact ⟨rfl, rfl, id, rfl, rfl, rfl, rfl, .refl _⟩

theorem DataEffect.setSp (s : State) (v : Word) : DataEffect s (s.setSp v) :=
  ⟨rfl, rfl, id, rfl, rfl, rfl, rfl, .refl _⟩

theorem DataEffect.setPort {s : State} {a : PortAddr} {p q : Port} (hp : s.portAt a = some p) (hdev : q.dev = p.dev)
    (hcap : q.capacity = p.capacity) (hs : p.Sound → q.Sound) : DataEffect s (s.setPort a q) :=
  ⟨rfl, rfl, id, rfl, rfl, rfl, rfl, .set hp hdev hcap hs⟩

/-- A word stored where it fits (20_memory.md R75). -/
theorem DataEffect.storedWord (s : State) (w : Word) {a : Nat} (h : a + 1 < s.memCapacity) :
    DataEffect s { s with mem := storedWord s.mem a w } := by
  refine ⟨rfl, rfl, fun ⟨hwf, hmem, hcap⟩ => ⟨storedWord_wf _ _ hwf, fun c hc => ?_, hcap⟩, rfl, rfl, rfl, rfl, .refl _⟩
  rcases mem_storedWord hc with hc | hc | hc
  · exact hmem c hc
  all_goals simp only; omega

/-- A block stored in range (20_memory.md R79). -/
theorem DataEffect.storeBlock (s : State) {a : Word} {bytes : List Byte} (h : s.inRange a bytes.length = true) :
    DataEffect s (s.storeBlock a bytes) := by
  refine ⟨rfl, rfl, fun ⟨hwf, hmem, hcap⟩ => ⟨Memory.writeBytes_wf _ _ hwf, fun c hc => ?_, hcap⟩,
    rfl, rfl, rfl, rfl, .refl _⟩
  have hin := (s.inRange_iff a _).mp h
  rcases Memory.mem_writeBytes hc with hc | hc
  · exact hmem c hc
  · simp only [translateAddress, State.storeBlock_memCapacity] at hc ⊢
    omega

/-- Words pushed where they fit (44_load_store_stack.md R225). -/
theorem DataEffect.pushedAll {regs : List Reg} {s : State}
    (hfit : ∀ k, k < regs.length → (pushSlot s.sp k).toNat + 1 < s.memCapacity) : DataEffect s (pushedAll regs s) := by
  have hwf := pushedAll_wf regs s
  rw [pushedAll_frame]
  exact ⟨rfl, rfl, fun ⟨h, hmem, hcap⟩ => ⟨(hwf h hmem hfit).1, (hwf h hmem hfit).2, hcap⟩, rfl, rfl, rfl, rfl, .refl _⟩

theorem DataEffect.poppedAll (regs : List Reg) (s : State) : DataEffect s (poppedAll regs s) := by
  rw [poppedAll_frame]
  exact ⟨rfl, rfl, id, rfl, rfl, rfl, rfl, .refl _⟩

/-- The instructions that set `Z` and `OV` (10_state.md R38). -/
def setsFlags : Instr → Prop
  | .add _ _ _ | .sub _ _ _ | .mul _ _ _ | .muls _ _ _ | .div _ _ _ | .divs _ _ _ | .shft _ _ _
  | .bitAnd _ _ _ | .bitOr _ _ _ | .bitXor _ _ _ | .bitNot _ _
  | .sigQuery | .sigUsable | .sigRead _ | .sigWrite _ => True
  | _ => False

/-- Everything an instruction can do: its data part, after which it ends, raises a fault, or, if it is one that sets
flags, writes its result with them. -/
inductive InstrEffect (i : Instr) (s : State) : State → Prop
  | ends {u : State} (data : DataEffect s u) : InstrEffect i s u
  | raises {u : State} (data : DataEffect s u) (c : FaultCode) : InstrEffect i s (u.raise c)
  | result {u : State} (data : DataEffect s u) (rd : Reg) (v : Word) (ov : Bool)
      (flags : setsFlags i := by exact trivial) : InstrEffect i s (u.writeResult rd v ov)

theorem InstrEffect.raise (i : Instr) (s : State) (c : FaultCode) : InstrEffect i s (s.raise c) :=
  .raises (.refl s) c

theorem execDiv_effect (rs rd : Reg) (lit : BitVec 7) (s : State) :
    ∃ t, execDiv rs rd lit s = .next t ∧ InstrEffect (.div rs rd lit) s t := by
  simp only [execDiv]
  split
  · exact ⟨_, rfl, .raise _ s _⟩
  · exact ⟨_, rfl, .result (.refl s) _ _ _⟩

theorem execDivs_effect (rs rd : Reg) (lit : BitVec 7) (s : State) :
    ∃ t, execDivs rs rd lit s = .next t ∧ InstrEffect (.divs rs rd lit) s t := by
  simp only [execDivs]
  split
  · exact ⟨_, rfl, .raise _ s _⟩
  · exact ⟨_, rfl, .result (.refl s) _ _ _⟩

theorem execCbx_effect (lnk : Bool) (cond : Cond) (neg : Bool) (off : BitVec 8) (s : State) :
    ∃ t, execCbx lnk cond neg off s = .next t ∧ InstrEffect (.cbx lnk cond neg off) s t := by
  simp only [execCbx]
  split
  · cases lnk with
    | false => exact ⟨_, rfl, .ends (.setX s _ _)⟩
    | true => exact ⟨_, rfl, .ends ((DataEffect.setX s .lr s.pc).trans (.setX _ _ _))⟩
  · exact ⟨_, rfl, .ends (.refl s)⟩

theorem execLd_effect (rb rt : Reg) (off : BitVec 7) (s : State) :
    ∃ t, execLd rb rt off s = .next t ∧ InstrEffect (.ld rb rt off) s t := by
  simp only [execLd]
  split
  · exact ⟨_, rfl, .ends (.setX s _ _)⟩
  · exact ⟨_, rfl, .raise _ s _⟩

theorem execSt_effect (rb rt : Reg) (off : BitVec 7) (s : State) :
    ∃ t, execSt rb rt off s = .next t ∧ InstrEffect (.st rb rt off) s t := by
  rw [execSt]
  rcases s.storeWord_spec (s.effectiveAddress rb off) (s.x rt) with ⟨hfit, hs⟩ | ⟨_, hs⟩
  · rw [hs]; exact ⟨_, rfl, .ends (.storedWord s _ hfit)⟩
  · rw [hs]; exact ⟨_, rfl, .raise _ s _⟩

theorem execPop_effect (mask : BitVec 4) (s : State) :
    ∃ t, execPop mask s = .next t ∧ InstrEffect (.pop mask) s t := by
  refine ⟨_, rfl, ?_⟩
  rcases popRegs_spec (maskRegs mask).reverse s with ⟨_, heq⟩ | ⟨n, _, _, _, heq⟩
  · rw [heq]; exact .ends (.poppedAll _ s)
  · rw [heq]; exact .raises (.poppedAll _ s) _

theorem execPush_effect (mask : BitVec 4) (s : State) :
    ∃ t, execPush mask s = .next t ∧ InstrEffect (.push mask) s t := by
  refine ⟨_, rfl, ?_⟩
  rcases pushRegs_spec (maskRegs mask) s with ⟨hfit, heq⟩ | ⟨n, _, hfit, _, heq⟩
  · rw [heq]; exact .ends (.pushedAll hfit)
  · rw [heq]
    refine .raises (.pushedAll fun k hk => hfit k ?_) _
    rw [List.length_take] at hk
    omega

theorem execSigQuery_effect (s : State) : ∃ t, execSigQuery s = .next t ∧ InstrEffect .sigQuery s t := by
  simp only [execSigQuery]
  split
  · exact ⟨_, rfl, .raise _ s _⟩
  · exact ⟨_, rfl, .result (.refl s) _ _ _⟩

theorem execSigUsable_effect (s : State) : ∃ t, execSigUsable s = .next t ∧ InstrEffect .sigUsable s t := by
  simp only [execSigUsable]
  split
  · exact ⟨_, rfl, .raise _ s _⟩
  · exact ⟨_, rfl, .result (.refl s) _ _ _⟩

theorem execSigRelinquish_effect (s : State) :
    ∃ t, execSigRelinquish s = .next t ∧ InstrEffect .sigRelinquish s t := by
  simp only [execSigRelinquish]
  split
  · exact ⟨_, rfl, .raise _ s _⟩
  · next p hp =>
    split
    · exact ⟨_, rfl, .raise _ s _⟩
    · next q hq =>
      obtain ⟨_, _, _, _, heq⟩ := Port.relinquish_spec hq
      refine ⟨_, rfl, .ends (.setPort hp ?_ ?_ fun _ => Port.relinquish_sound hq)⟩ <;> rw [heq]

/-- A read that passes both checks consumes the port's bytes and stores them in range (46_sig.md R284). -/
theorem execSigRead_effect (cnt : BitVec 8) (s : State) :
    ∃ t, execSigRead cnt s = .next t ∧ InstrEffect (.sigRead cnt) s t := by
  simp only [execSigRead]
  split
  · exact ⟨_, rfl, .raise _ s _⟩
  · next p hp =>
    split
    · exact ⟨_, rfl, .raise _ s _⟩
    · next hcheck =>
      split
      · next hrange =>
        obtain ⟨hdev, _, hcap, _⟩ := Port.take_keeps p (p.readCount cnt.toNat)
        have hlen : (p.take (p.readCount cnt.toNat)).2.length = p.readCount cnt.toNat := by
          rw [Port.take_bytes_length, Port.readCount]
          omega
        refine ⟨_, rfl, .result ((DataEffect.setPort hp hdev hcap fun h => ?_).trans (.storeBlock _ ?_)) _ _ _⟩
        · exact Port.take_sound _ h hcheck
        · rw [hlen]; exact hrange
      · exact ⟨_, rfl, .raise _ s _⟩

/-- A write that passes both checks places bytes that fit in the mailbox (46_sig.md R285). -/
theorem execSigWrite_effect (cnt : BitVec 8) (s : State) :
    ∃ t, execSigWrite cnt s = .next t ∧ InstrEffect (.sigWrite cnt) s t := by
  simp only [execSigWrite]
  split
  · exact ⟨_, rfl, .raise _ s _⟩
  · next p hp =>
    split
    · exact ⟨_, rfl, .raise _ s _⟩
    · next hcheck =>
      split
      · obtain ⟨hdev, hcap, _⟩ := Port.place_keeps p .program (s.loadBlock s.r1 (p.writeCount cnt.toNat))
        refine ⟨_, rfl, .result (.setPort hp hdev hcap fun h => Port.place_sound h hcheck ?_) _ _ _⟩
        rw [State.loadBlock, Memory.readBytes_length]
        exact Nat.min_le_right _ _
      · exact ⟨_, rfl, .raise _ s _⟩

/-- Every instruction completes, with an effect of its kind. -/
theorem exec_effect (i : Instr) (s : State) : ∃ t, exec i s = .next t ∧ InstrEffect i s t := by
  cases i with
  | nop => exact ⟨_, rfl, .ends (.refl s)⟩
  | add rs rd lit => exact ⟨_, rfl, .result (.refl s) _ _ _⟩
  | sub rs rd lit => exact ⟨_, rfl, .result (.refl s) _ _ _⟩
  | mul rs rd lit => exact ⟨_, rfl, .result (.refl s) _ _ _⟩
  | muls rs rd lit => exact ⟨_, rfl, .result (.refl s) _ _ _⟩
  | div rs rd lit => exact execDiv_effect rs rd lit s
  | divs rs rd lit => exact execDivs_effect rs rd lit s
  | asgn rs rd lit => exact ⟨_, rfl, .ends (.setX s _ _)⟩
  | shft rs rd amt => exact ⟨_, rfl, .result (.refl s) _ _ _⟩
  | bitAnd rs rd idx => exact ⟨_, rfl, .result (.refl s) _ _ _⟩
  | bitOr rs rd idx => exact ⟨_, rfl, .result (.refl s) _ _ _⟩
  | bitXor rs rd idx => exact ⟨_, rfl, .result (.refl s) _ _ _⟩
  | bitNot rs rd => exact ⟨_, rfl, .result (.refl s) _ _ _⟩
  | cbx lnk cond neg off => exact execCbx_effect lnk cond neg off s
  | ld rb rt off => exact execLd_effect rb rt off s
  | st rb rt off => exact execSt_effect rb rt off s
  | pop mask => exact execPop_effect mask s
  | push mask => exact execPush_effect mask s
  | spget r => exact ⟨_, rfl, .ends (.setX s _ _)⟩
  | spset r => exact ⟨_, rfl, .ends (.setSp s _)⟩
  | sigQuery => exact execSigQuery_effect s
  | sigUsable => exact execSigUsable_effect s
  | sigRelinquish => exact execSigRelinquish_effect s
  | sigRead cnt => exact execSigRead_effect cnt s
  | sigWrite cnt => exact execSigWrite_effect cnt s

/-- The inversion of `exec`. -/
theorem effect_of_exec {i : Instr} {s t : State} (h : exec i s = .next t) : InstrEffect i s t := by
  obtain ⟨u, hu, heffect⟩ := exec_effect i s
  obtain rfl : u = t := Host.Outcome.next.inj (hu.symm.trans h)
  exact heffect

/-! ## What keeps the invariant -/

/-- Ports that evolve keep their rising addresses, their capacities and the five invariants (10_state.md R50). -/
theorem PortsEvolve.portsOk {s t : State} (h : PortsEvolve s.ports t.ports) (hports : s.PortsOk) : t.PortsOk :=
  ⟨by rw [h.keys]; exact hports.1, h.sound hports.2⟩

/-- The device of a port is kept where ports evolve (10_state.md R51). -/
theorem PortsEvolve.dev_eq {old new : PortMap} (h : PortsEvolve old new) (a : PortAddr) :
    (portAt new a).bind Port.dev = (portAt old a).bind Port.dev := by
  have hparams := congrArg (fun o => o.bind Prod.fst) (h.params a)
  simpa only [Option.bind_map, Function.comp_def] using hparams

/-- Connections agree at both ends after the ports evolve (10_state.md R51). -/
theorem PortsEvolve.linksOk {s t : State} (h : PortsEvolve s.ports t.ports) (hdevices : t.devices = s.devices)
    (hports : s.PortsOk) (hlinks : s.LinksOk) : t.LinksOk := by
  obtain ⟨hrise, hportEnd, hdeviceEnd⟩ := hlinks
  refine ⟨by rw [hdevices]; exact hrise, fun e he d hd => ?_, fun e he a ha => ?_⟩
  · have hnew : (portAt t.ports e.1).bind Port.dev = some d := by
      rw [portAt_of_mem (h.portsOk hports).1 he]
      exact hd
    rw [h.dev_eq, Option.bind_eq_some_iff] at hnew
    obtain ⟨p, hp, hpd⟩ := hnew
    rw [State.conn, hdevices]
    exact hportEnd _ (mem_of_portAt hp) d hpd
  · rw [hdevices] at he
    exact (h.dev_eq a).trans (hdeviceEnd e he a ha)

theorem DataEffect.inv {s t : State} (h : DataEffect s t) (hinv : s.Inv) : t.Inv := by
  obtain ⟨hmemory, hstatus, hfault, hports, hlinks, hlaunch⟩ := hinv
  refine ⟨h.memory hmemory, ?_, ?_, h.ports.portsOk hports, h.ports.linksOk h.devices hports hlinks, ?_⟩
  · rw [State.StatusOk, h.sr]; exact hstatus
  · rw [State.FaultOk, h.fault]; exact hfault
  · rw [State.LaunchOk, h.allocated, h.memCapacity, h.ticks]; exact hlaunch

theorem FaultCode.code_le (c : FaultCode) : c.code.toNat ≤ 12 := by cases c <;> decide

theorem State.raise_inv {s : State} (c : FaultCode) (hinv : s.Inv) : (s.raise c).Inv := by
  obtain ⟨hmemory, hstatus, _, hports, hlinks, hlaunch⟩ := hinv
  exact ⟨hmemory, hstatus, c.code_le, hports, hlinks, hlaunch⟩

/-- A flag write leaves the reserved bits of `sr` (10_state.md R37). -/
theorem State.setFlags_inv {s : State} (z ov : Bool) (hinv : s.Inv) : (s.setFlags z ov).Inv := by
  obtain ⟨hmemory, hstatus, hfault, hports, hlinks, hlaunch⟩ := hinv
  exact ⟨hmemory, (srWithFlags_reserved _ _ _).trans hstatus, hfault, hports, hlinks, hlaunch⟩

theorem State.writeResult_inv {s : State} (rd : Reg) (v : Word) (ov : Bool) (hinv : s.Inv) :
    (s.writeResult rd v ov).Inv :=
  State.setFlags_inv _ _ ((DataEffect.setX s rd v).inv hinv)

/-- Every instruction keeps the invariant. -/
theorem exec_inv {i : Instr} {s t : State} (hinv : s.Inv) (h : exec i s = .next t) : t.Inv := by
  cases effect_of_exec h with
  | ends data => exact data.inv hinv
  | raises data c => exact State.raise_inv c (data.inv hinv)
  | result data rd v ov _ => exact State.writeResult_inv rd v ov (data.inv hinv)

theorem execWord_inv {w : Word} {s t : State} (hinv : s.Inv) (h : execWord w s = .next t) : t.Inv := by
  simp only [execWord] at h
  split at h
  · exact exec_inv hinv h
  · exact Host.Outcome.next.inj h ▸ State.raise_inv _ hinv

/-- The fetch writes `ir`, `pc` and `fault` only. -/
theorem State.fetch_inv {s : State} (hinv : s.Inv) : s.fetch.1.Inv := by
  obtain ⟨hmemory, hstatus, hfault, hports, hlinks, hlaunch⟩ := hinv
  rcases s.fetch_spec with ⟨_, h⟩ | ⟨_, _, h⟩ | ⟨_, _, h⟩ <;> rw [h]
  · exact ⟨hmemory, hstatus, hfault, hports, hlinks, hlaunch⟩
  · exact ⟨hmemory, hstatus, FaultCode.code_le .invalidFetch, hports, hlinks, hlaunch⟩
  · exact ⟨hmemory, hstatus, hfault, hports, hlinks, hlaunch⟩

theorem cpuStep_inv {s t : State} (hinv : s.Inv) (h : cpuStep s = .next t) : t.Inv := by
  have hfetch := s.fetch_inv hinv
  simp only [cpuStep] at h
  split at h
  · next u w heq =>
    rw [heq] at hfetch
    exact execWord_inv hfetch h
  · next u heq =>
    rw [heq] at hfetch
    exact Host.Outcome.next.inj h ▸ hfetch

/-- Settle and polls keep the invariant; the tick they count has memory allocated before it. -/
theorem State.beginTick_inv {s : State} (hinv : s.Inv) (halloc : s.allocated = true) : s.beginTick.Inv := by
  obtain ⟨hmemory, hstatus, hfault, hports, hlinks, _⟩ := hinv
  obtain ⟨ports, heq, _, hevolve⟩ := s.beginTick_spec
  rw [heq]
  refine ⟨hmemory, hstatus, hfault, PortsEvolve.portsOk hevolve hports, PortsEvolve.linksOk hevolve rfl hports hlinks, ?_⟩
  intro hfalse
  exact absurd (halloc.symm.trans hfalse) (by decide)

theorem step_inv {s t : State} (hinv : s.Inv) (h : step s = .next t) : t.Inv := by
  simp only [step] at h
  split at h
  · next halloc => exact cpuStep_inv (State.beginTick_inv hinv halloc) h
  · cases h

/-! ## The machine as it is created -/

theorem Port.initial_sound (capacity : Nat) : (Port.initial capacity).Sound := by simp [Port.Sound, Port.initial]

/-- A port of a created Mainboard is unconnected and at its reset value (10_state.md R55). -/
theorem State.mem_created_ports {ports : List (PortAddr × Nat)} {devices : List (DeviceId × Nat)} {e : PortAddr × Port}
    (h : e ∈ (State.created ports devices).ports) : ∃ c ∈ ports, e = (c.1, Port.initial c.2) := by
  obtain ⟨c, hc, rfl⟩ := List.mem_map.mp h
  exact ⟨c, hc, rfl⟩

theorem State.created_inv (ports : List (PortAddr × Nat)) (devices : List (DeviceId × Nat))
    (hports : (ports.map fun e => e.1).Pairwise (· < ·)) (hcap : ∀ e ∈ ports, 1 ≤ e.2)
    (hdevices : (devices.map fun e => e.1).Pairwise (· < ·)) : (State.created ports devices).Inv := by
  refine ⟨⟨rfl, fun c hc => ?_, Nat.zero_le _⟩, (by decide : (0 : Word).extractLsb' 2 14 = 0), Nat.zero_le _,
    ⟨?_, fun e he => ?_⟩, ⟨?_, fun e he d hd => ?_, fun e he a ha => ?_⟩, fun _ => ⟨rfl, rfl⟩⟩
  · cases hc
  · simpa [created, Function.comp_def] using hports
  · obtain ⟨c, hc, rfl⟩ := mem_created_ports he
    exact ⟨hcap c hc, Port.initial_sound _⟩
  · simpa [created, Function.comp_def] using hdevices
  · obtain ⟨c, _, rfl⟩ := mem_created_ports he
    cases hd
  · obtain ⟨c, _, rfl⟩ := List.mem_map.mp he
    cases ha

/-- `State.reset` is a created Mainboard whose empty memory has been allocated. -/
theorem State.reset_inv : State.reset.Inv := by
  obtain ⟨_, hstatus, hfault, hports, hlinks, _⟩ :=
    created_inv [(Config.resetPortAddr, Config.resetMailboxCapacity)] [(Config.resetDevice, Config.resetSpeed)]
      (List.pairwise_singleton _ _) (by decide) (List.pairwise_singleton _ _)
  refine ⟨⟨rfl, fun c hc => ?_, Nat.le_refl _⟩, hstatus, hfault, hports, hlinks, fun h => ?_⟩
  · cases hc
  · cases h

/-! ## The obligations -/

/-- Settles O16: a tick is settle and polls, the fetch, and a word's execution, and each keeps the invariant. -/
theorem stepKeepsTheInvariant : Obligations.StepKeepsTheInvariant :=
  fun _ _ => step_inv

/-- Settles O13: the devices' part of a tick is an evolution of the ports. -/
theorem devicesTouchOnlyPorts : Obligations.DevicesTouchOnlyPorts := by
  intro s
  obtain ⟨ports, heq, _, hevolve⟩ := s.beginTick_spec
  exact ⟨ports, heq, hevolve.keys, hevolve.params⟩

/-- Settles O58: of the kinds of effect, only a result with flags changes `sr`, and it raises nothing. -/
theorem onlyFlagSettersWriteSr : Obligations.OnlyFlagSettersWriteSr := by
  intro i s t h hsr
  cases effect_of_exec h with
  | ends data => exact absurd data.sr hsr
  | raises data c => exact absurd data.sr hsr
  | result data rd v ov flags =>
    exact ⟨(State.writeResult_fault _ rd v ov).trans data.fault, flags⟩

/-- Settles O15. -/
theorem resetMeetsTheInvariant : Obligations.ResetMeetsTheInvariant :=
  ⟨State.reset_inv, State.created_inv⟩

/-- Settles O18: reset leaves the registers as `State.created` gives them. -/
theorem resetZeroesTheCpu : Obligations.ResetZeroesTheCpu :=
  ⟨⟨rfl, rfl, rfl, rfl, rfl, rfl, rfl, rfl⟩, rfl, rfl, rfl⟩

end Sys2Proof.Machine
end

section
/-! PROOFS. The statements about the memory store (20_memory.md R72 to R75, R79, R87). -/

namespace Sys2Proof.Machine

/-! ## Accesses at an integer address (20_memory.md R72 to R75) -/

section
variable {s : State} {a : Nat}

theorem State.readByte_of_lt (h : a < s.memCapacity) : s.readByte a = some (s.mem.read a) := if_pos h

theorem State.readByte_of_le (h : s.memCapacity ≤ a) : s.readByte a = none := if_neg (Nat.not_lt.mpr h)

theorem State.writeByte_of_lt (b : Byte) (h : a < s.memCapacity) :
    s.writeByte a b = some { s with mem := s.mem.write a b } := if_pos h

theorem State.writeByte_of_le (b : Byte) (h : s.memCapacity ≤ a) : s.writeByte a b = none :=
  if_neg (Nat.not_lt.mpr h)

theorem State.readWord_of_lt (h : a + 1 < s.memCapacity) :
    s.readWord a = some (wordOfBytes (s.mem.read a) (s.mem.read (a + 1))) := if_pos h

theorem State.readWord_of_le (h : s.memCapacity ≤ a + 1) : s.readWord a = none := if_neg (Nat.not_lt.mpr h)

theorem State.writeWord_of_lt (w : Word) (h : a + 1 < s.memCapacity) :
    s.writeWord a w = some { s with mem := storedWord s.mem a w } := if_pos h

theorem State.writeWord_of_le (w : Word) (h : s.memCapacity ≤ a + 1) : s.writeWord a w = none :=
  if_neg (Nat.not_lt.mpr h)

end

/-! ## Read after write -/

@[simp] theorem Memory.read_write_self (m : Memory) (a : Nat) (b : Byte) : (m.write a b).read a = b := by
  rw [Memory.read_write, if_pos rfl]

theorem Memory.read_write_of_ne (m : Memory) {a c : Nat} (b : Byte) (h : c ≠ a) :
    (m.write a b).read c = m.read c := by
  rw [Memory.read_write, if_neg h]

@[simp] theorem read_storedWord_low (m : Memory) (a : Nat) (w : Word) : (storedWord m a w).read a = lowByte w := by
  rw [read_storedWord, if_pos rfl]

@[simp] theorem read_storedWord_high (m : Memory) (a : Nat) (w : Word) :
    (storedWord m a w).read (a + 1) = highByte w := by
  rw [read_storedWord, if_neg (Nat.succ_ne_self a), if_pos rfl]

theorem read_storedWord_of_ne (m : Memory) {a c : Nat} (w : Word) (hlow : c ≠ a) (hhigh : c ≠ a + 1) :
    (storedWord m a w).read c = m.read c := by
  rw [read_storedWord, if_neg hlow, if_neg hhigh]

/-- The word stored at an address is the word read there (20_memory.md R80). -/
theorem State.readWord_storedWord {s : State} {a : Nat} (w : Word) (h : a + 1 < s.memCapacity) :
    { s with mem := storedWord s.mem a w }.readWord a = some w := by
  have hread := State.readWord_of_lt (s := { s with mem := storedWord s.mem a w }) h
  rw [hread, read_storedWord_low, read_storedWord_high, wordOfBytes_bytes]

/-! ## A store and the fetch after it -/

/-- ST of a word that fits (44_load_store_stack.md R221). -/
theorem exec_st_of_lt {s : State} {rb : Reg} {off : BitVec 7} (rt : Reg)
    (h : (s.effectiveAddress rb off).toNat + 1 < s.memCapacity) :
    exec (.st rb rt off) s =
      .next { s with mem := storedWord s.mem (s.effectiveAddress rb off).toNat (s.x rt) } := by
  have hstore : s.storeWord (s.effectiveAddress rb off) (s.x rt) = some _ := State.writeWord_of_lt (s.x rt) h
  change execSt rb rt off s = _
  rw [execSt, hstore]
  rfl

/-- The fetch gives the word that `readWord` reads at `pc` (40_step.md R152). -/
theorem State.fetch_of_readWord {s : State} {w : Word} (hword : s.readWord s.pc.toNat = some w) (hrun : s.fault = 0) :
    s.fetch = ({ s with ir := w, pc := s.pc + 2 }, some w) := by
  have hrunning : s.running = true := decide_eq_true hrun
  rw [State.fetch, if_pos hrunning, hword]

/-! ## The obligations -/

/-- Settles O24: a stored word reads byte for byte as `read_storedWord` says, and 0xFFFF + 1 is no address below a
capacity of at most 65536. -/
theorem wordAccessesAreLittleEndian : Obligations.WordAccessesAreLittleEndian := by
  intro s a w
  refine ⟨fun hfit => ⟨⟨_, State.readWord_of_lt hfit, wordOfBytes_toNat _ _⟩,
    _, State.writeWord_of_lt w hfit, rfl, ?low, ?high, ?other, ?readBack⟩,
    fun hcap => ⟨State.readWord_of_le hcap, State.writeWord_of_le w hcap⟩,
    fun hcap => ⟨State.readWord_of_le hcap, State.writeWord_of_le w hcap⟩⟩
  case low => rw [read_storedWord_low, lowByte_toNat]
  case high => rw [read_storedWord_high, highByte_toNat]
  case other => exact fun c hlow hhigh => read_storedWord_of_ne s.mem w hlow hhigh
  case readBack => exact State.readWord_storedWord w hfit

/-- Settles O39: the store leaves `pc`, the capacity and `fault`, so the fetch reads the word just stored. -/
theorem storeIsSeenByTheNextFetch : Obligations.StoreIsSeenByTheNextFetch := by
  intro rb rt off s t hrun hea hfit hexec
  rw [exec_st_of_lt rt (hea ▸ hfit), hea] at hexec
  cases hexec
  have hread := State.readWord_storedWord (s.x rt) hfit
  have hfetch := State.fetch_of_readWord (s := { s with mem := storedWord s.mem s.pc.toNat (s.x rt) }) hread hrun
  rw [hfetch]
  exact ⟨rfl, rfl, rfl⟩

/-- Settles O23. -/
theorem byteAccessesCheckTheCapacity : Obligations.ByteAccessesCheckTheCapacity := by
  intro s a b
  constructor
  · intro hlt
    exact ⟨State.readByte_of_lt hlt, _, State.writeByte_of_lt b hlt, rfl, Memory.read_write_self s.mem a b,
      fun c hne => Memory.read_write_of_ne s.mem b hne⟩
  · intro hle
    exact ⟨State.readByte_of_le hle, State.writeByte_of_le b hle⟩

/-- Settles O25: no byte of a block lies above its last byte. -/
theorem blockRangeCheckCoversEveryByte : Obligations.BlockRangeCheckCoversEveryByte := by
  intro s a c
  refine ⟨s.inRange_iff a c, fun hrange k hk => ?_⟩
  have hlast := (s.inRange_iff a c).mp hrange
  have hbyte : a.toNat + k < s.memCapacity := by omega
  refine ⟨?_, fun b => ?_⟩
  · rw [State.readByte_of_lt hbyte, Option.isSome_some]
  · rw [State.writeByte_of_lt b hbyte, Option.isSome_some]

end Sys2Proof.Machine
end

section
/-! PROOFS. The statements about the encoding (30_encoding.md R113 to R124). An instruction's encoding is described once,
by the fields of its word (`Instr.FieldsIn`); the encoder, the decoder, the opcode map and the layout table are each tied
to that description. -/

namespace Sys2Proof

/-! ## Fields of a word (R113) -/

/-- Two neighbouring fields are one field: its bits are theirs, side by side. -/
theorem field_eq_append_iff {m k : Nat} (w : Word) (lo : Nat) (x : BitVec m) (y : BitVec k) :
    field w lo (m + k) = x ++ y ↔ field w (lo + k) m = x ∧ field w lo k = y := by
  have hsplit : field w lo (m + k) = field w (lo + k) m ++ field w lo k := by
    ext i hi
    simp only [field, BitVec.getElem_extractLsb', BitVec.getElem_append]
    split
    · rfl
    · congr 1; omega
  rw [hsplit]
  refine ⟨fun h => ⟨?_, ?_⟩, fun ⟨hx, hy⟩ => hx ▸ hy ▸ rfl⟩
  · simpa [BitVec.extractLsb'_append_eq_left] using congrArg (BitVec.extractLsb' k m) h
  · simpa [BitVec.extractLsb'_append_eq_right] using congrArg (BitVec.extractLsb' 0 k) h

/-- Sixteen bits make the word whose bits they are. -/
theorem word_eq_iff {n : Nat} (hn : n = 16) (bits : BitVec n) (w : Word) : word bits = w ↔ field w 0 n = bits := by
  subst hn
  have hall : field w 0 16 = w := by simp [field]
  have hword : word bits = bits := by simp [word]
  rw [hall, hword, eq_comm]

/-- A bit is a field of one bit. -/
theorem getLsbD_eq_iff (w : Word) (k : Nat) (b : Bool) : w.getLsbD k = b ↔ field w k 1 = BitVec.ofBool b := by
  have hbit : field w k 1 = BitVec.ofBool (w.getLsbD k) := by
    ext i hi
    have hzero : i = 0 := by omega
    simp [field, hzero]
  rw [hbit, BitVec.ofBool_eq_iff_eq]

theorem field_eq_iff (w : Word) {lo width : Nat} (v : BitVec width) :
    field w lo width = v ↔ w.toNat / 2 ^ lo % 2 ^ width = v.toNat := by
  rw [← field_toNat, BitVec.toNat_inj]

theorem Reg.id_inj {a b : Reg} : a.id = b.id ↔ a = b := by
  refine ⟨fun h => ?_, congrArg Reg.id⟩
  rw [← Reg.ofId_id a, h, Reg.ofId_id]

theorem Reg.ofId_eq_iff (f : BitVec 2) (r : Reg) : Reg.ofId f = r ↔ f = r.id := by
  rw [← Reg.id_inj, Reg.id_ofId]

theorem regHi_eq_iff (w : Word) (r : Reg) : regHi w = r ↔ field w 10 2 = r.id := Reg.ofId_eq_iff _ r

theorem regLo_eq_iff (w : Word) (r : Reg) : regLo w = r ↔ field w 8 2 = r.id := Reg.ofId_eq_iff _ r

/-! ## The fields of an instruction's word (R115, R121, R122) -/

/-- RS and RD, or RB and RT, of a word of that type code. -/
def RegisterFields (type : BitVec 4) (hi lo : Reg) (w : Word) : Prop :=
  typeCode w = type ∧ regHi w = hi ∧ regLo w = lo

theorem RegisterFields.typeCode_eq {type : BitVec 4} {hi lo : Reg} {w : Word} (h : RegisterFields type hi lo w) :
    typeCode w = type :=
  h.1

/-- The fields of `w` are those of the instruction's pattern. -/
def Instr.FieldsIn (w : Word) : Instr → Prop
  | .nop => typeCode w = 0x0 ∧ field w 0 12 = 0
  | .add rs rd lit => RegisterFields 0x1 rs rd w ∧ field w 0 8 = lit
  | .sub rs rd lit => RegisterFields 0x2 rs rd w ∧ field w 0 8 = lit
  | .mul rs rd lit => RegisterFields 0x3 rs rd w ∧ w.getLsbD 7 = false ∧ field w 0 7 = lit
  | .muls rs rd lit => RegisterFields 0x3 rs rd w ∧ w.getLsbD 7 = true ∧ field w 0 7 = lit
  | .div rs rd lit => RegisterFields 0x4 rs rd w ∧ w.getLsbD 7 = false ∧ field w 0 7 = lit
  | .divs rs rd lit => RegisterFields 0x4 rs rd w ∧ w.getLsbD 7 = true ∧ field w 0 7 = lit
  | .asgn rs rd lit => RegisterFields 0x5 rs rd w ∧ field w 0 8 = lit
  | .shft rs rd amt => RegisterFields 0x6 rs rd w ∧ field w 5 3 = 0 ∧ field w 0 5 = amt
  | .bitAnd rs rd idx => RegisterFields 0x7 rs rd w ∧ field w 6 2 = 0 ∧ field w 4 2 = 0 ∧ field w 0 4 = idx
  | .bitOr rs rd idx => RegisterFields 0x7 rs rd w ∧ field w 6 2 = 1 ∧ field w 4 2 = 0 ∧ field w 0 4 = idx
  | .bitXor rs rd idx => RegisterFields 0x7 rs rd w ∧ field w 6 2 = 2 ∧ field w 4 2 = 0 ∧ field w 0 4 = idx
  | .bitNot rs rd => RegisterFields 0x7 rs rd w ∧ field w 6 2 = 3 ∧ field w 4 2 = 0 ∧ field w 0 4 = 0
  | .cbx lnk cond neg off =>
    typeCode w = 0x8 ∧ w.getLsbD 11 = lnk ∧ field w 9 2 = encode.condField cond ∧ w.getLsbD 8 = neg ∧
      field w 0 8 = off
  | .ld rb rt off => RegisterFields 0x9 rb rt w ∧ w.getLsbD 7 = false ∧ field w 0 7 = off
  | .st rb rt off => RegisterFields 0x9 rb rt w ∧ w.getLsbD 7 = true ∧ field w 0 7 = off
  | .pop mask => typeCode w = 0xA ∧ field w 10 2 = 0 ∧ field w 4 6 = 0 ∧ field w 0 4 = mask
  | .push mask => typeCode w = 0xA ∧ field w 10 2 = 1 ∧ field w 4 6 = 0 ∧ field w 0 4 = mask
  | .spget r => typeCode w = 0xA ∧ field w 10 2 = 2 ∧ field w 4 6 = 0 ∧ field w 2 2 = 0 ∧ Reg.ofId (field w 0 2) = r
  | .spset r => typeCode w = 0xA ∧ field w 10 2 = 3 ∧ field w 4 6 = 0 ∧ field w 2 2 = 0 ∧ Reg.ofId (field w 0 2) = r
  | .sigQuery => typeCode w = 0xB ∧ field w 8 4 = 0 ∧ field w 0 8 = 0
  | .sigUsable => typeCode w = 0xB ∧ field w 8 4 = 1 ∧ field w 0 8 = 0
  | .sigRelinquish => typeCode w = 0xB ∧ field w 8 4 = 2 ∧ field w 0 8 = 0
  | .sigRead cnt => typeCode w = 0xB ∧ field w 8 4 = 3 ∧ field w 0 8 = cnt
  | .sigWrite cnt => typeCode w = 0xB ∧ field w 8 4 = 4 ∧ field w 0 8 = cnt

/-- The encoder writes exactly the fields of the instruction's pattern. -/
theorem encode_eq_iff_fieldsIn (i : Instr) (w : Word) : encode i = w ↔ i.FieldsIn w := by
  cases i
  all_goals
    refine (word_eq_iff (by rfl) _ w).trans ?_
    simp only [field_eq_append_iff, Instr.FieldsIn, RegisterFields, typeCode, regHi_eq_iff, regLo_eq_iff,
      Reg.ofId_eq_iff, getLsbD_eq_iff, and_assoc]
    rfl

/-! ## The decoder reads the fields (R116, R120) -/

/-- A register form whose literal, count or bit index is not zero (R116, R118). -/
def LiteralInRegisterForm (width : Nat) (w : Word) : Prop := regHi w ≠ regLo w ∧ field w 0 width ≠ 0

/-- The rules of R116 and R117 that reject a word of each type code, over its fields. -/
def ReservedFields (w : Word) : Nat → Prop
  | 0x0 => field w 0 12 ≠ 0
  | 0x1 | 0x2 | 0x5 => LiteralInRegisterForm 8 w
  | 0x3 | 0x4 => LiteralInRegisterForm 7 w
  | 0x6 => field w 5 3 ≠ 0 ∨ LiteralInRegisterForm 5 w
  | 0x7 => field w 4 2 ≠ 0 ∨ ((field w 6 2).toNat = 3 ∧ field w 0 4 ≠ 0) ∨
      ((field w 6 2).toNat ≠ 3 ∧ LiteralInRegisterForm 4 w)
  | 0x8 => (field w 9 2).toNat = 3 ∨ ((field w 9 2).toNat = 0 ∧ w.getLsbD 8 = true)
  | 0x9 => False
  | 0xA => field w 4 6 ≠ 0 ∨ ((field w 10 2).toNat < 2 ∧ field w 0 4 = 0) ∨
      (2 ≤ (field w 10 2).toNat ∧ field w 2 2 ≠ 0)
  | 0xB => 5 ≤ (field w 8 4).toNat ∨ ((field w 8 4).toNat < 3 ∧ field w 0 8 ≠ 0)
  | _ => True

/-- An answer of the decoder for `w` is right: a well-formed instruction with the fields of `w`, or a rejection when `w`
is reserved. -/
def AnswersFor (w : Word) (reserved : Prop) : Except Reject Instr → Prop
  | .ok i => ¬ reserved ∧ i.WellFormed ∧ i.FieldsIn w
  | .error _ => reserved

theorem AnswersFor.congr {w : Word} {p q : Prop} {answer : Except Reject Instr} (hpq : p ↔ q)
    (h : AnswersFor w p answer) : AnswersFor w q answer :=
  propext hpq ▸ h

/-- A decoder that accepts exactly when a field is zero. -/
theorem AnswersFor.ite {w : Word} {p : Prop} [Decidable p] {i : Instr} {r : Reject}
    (h : p → i.WellFormed ∧ i.FieldsIn w) : AnswersFor w (¬ p) (if p then .ok i else .error r) := by
  split
  · next hp => exact ⟨not_not.mpr hp, h hp⟩
  · next hp => exact hp

/-- A decoder that rejects exactly when a field is zero. -/
theorem AnswersFor.iteNot {w : Word} {p : Prop} [Decidable p] {i : Instr} {r : Reject}
    (h : ¬ p → i.WellFormed ∧ i.FieldsIn w) : AnswersFor w p (if p then .error r else .ok i) := by
  split
  · next hp => exact hp
  · next hp => exact ⟨hp, h hp⟩

/-- A decoder that branches on a bit. -/
theorem AnswersFor.bit {w : Word} {p : Prop} {k : Nat} {a b : Except Reject Instr}
    (hset : w.getLsbD k = true → AnswersFor w p a) (hclear : w.getLsbD k = false → AnswersFor w p b) :
    AnswersFor w p (if w.getLsbD k then a else b) := by
  split
  · next hbit => exact hset hbit
  · next hbit => exact hclear (eq_false_of_ne_true hbit)

theorem decodeRegLit_of_form {width : Nat} {make : Reg → Reg → BitVec width → Instr} {w : Word}
    (hform : (decide (regHi w = regLo w) || decide (field w 0 width = 0)) = true) :
    decodeRegLit width make w = .ok (make (regHi w) (regLo w) (field w 0 width)) :=
  if_pos (by simpa using hform)

/-- The check of the register form is written in `hok` as `Instr.wf` writes it. -/
theorem decodeRegLit_answers {width : Nat} {make : Reg → Reg → BitVec width → Instr} {w : Word}
    (hok : (decide (regHi w = regLo w) || decide (field w 0 width = 0)) = true →
      (make (regHi w) (regLo w) (field w 0 width)).WellFormed ∧
        (make (regHi w) (regLo w) (field w 0 width)).FieldsIn w) :
    AnswersFor w (LiteralInRegisterForm width w) (decodeRegLit width make w) := by
  simp only [decodeRegLit]
  split
  · next hform => exact ⟨fun ⟨hreg, hlit⟩ => hform.elim hreg hlit, hok (by simpa using hform)⟩
  · next hform => exact not_or.mp hform

theorem decodeShift_answers {w : Word} (htype : typeCode w = 0x6) :
    AnswersFor w (ReservedFields w 0x6) (decodeShift w) := by
  rw [decodeShift, ReservedFields]
  split
  case isFalse hrsv => exact Or.inl hrsv
  case isTrue hrsv =>
    exact .congr (by simp [hrsv]) (decodeRegLit_answers fun hform => ⟨hform, ⟨htype, rfl, rfl⟩, hrsv, rfl⟩)

theorem decodeBitwise_answers {w : Word} (htype : typeCode w = 0x7) :
    AnswersFor w (ReservedFields w 0x7) (decodeBitwise w) := by
  have hop : field w 6 2 = BitVec.ofNat 2 (field w 6 2).toNat := by simp
  have hlt := (field w 6 2).isLt
  rw [decodeBitwise, ReservedFields]
  generalize (field w 6 2).toNat = op at hop hlt ⊢
  split
  case isFalse hrsv => exact Or.inl hrsv
  case isTrue hrsv =>
    interval_cases op
    · exact .congr (by simp [hrsv]) (decodeRegLit_answers fun hform => ⟨hform, ⟨htype, rfl, rfl⟩, hop, hrsv, rfl⟩)
    · exact .congr (by simp [hrsv]) (decodeRegLit_answers fun hform => ⟨hform, ⟨htype, rfl, rfl⟩, hop, hrsv, rfl⟩)
    · exact .congr (by simp [hrsv]) (decodeRegLit_answers fun hform => ⟨hform, ⟨htype, rfl, rfl⟩, hop, hrsv, rfl⟩)
    · exact .congr (by simp [hrsv]) (.ite fun hidx => ⟨rfl, ⟨htype, rfl, rfl⟩, hop, hrsv, hidx⟩)

theorem decodeBranch_answers {w : Word} (htype : typeCode w = 0x8) :
    AnswersFor w (ReservedFields w 0x8) (decodeBranch w) := by
  have hcond : field w 9 2 = BitVec.ofNat 2 (field w 9 2).toNat := by simp
  have hlt := (field w 9 2).isLt
  rw [decodeBranch, ReservedFields]
  generalize (field w 9 2).toNat = cond at hcond hlt ⊢
  interval_cases cond
  · exact .congr (by simp) (.iteNot fun hneg =>
      ⟨by simpa [Instr.WellFormed, Instr.wf] using hneg, htype, rfl, hcond, rfl, rfl⟩)
  · exact ⟨by simp, rfl, htype, rfl, hcond, rfl, rfl⟩
  · exact ⟨by simp, rfl, htype, rfl, hcond, rfl, rfl⟩
  · exact Or.inl rfl

theorem decodeStack_answers {w : Word} (htype : typeCode w = 0xA) :
    AnswersFor w (ReservedFields w 0xA) (decodeStack w) := by
  have hop : field w 10 2 = BitVec.ofNat 2 (field w 10 2).toNat := by simp
  have hlt := (field w 10 2).isLt
  rw [decodeStack, ReservedFields]
  generalize (field w 10 2).toNat = op at hop hlt ⊢
  split
  case isFalse hrsv => exact Or.inl hrsv
  case isTrue hrsv =>
    interval_cases op
    · exact .congr (by simp [hrsv]) (.iteNot fun hmask => ⟨decide_eq_true hmask, htype, hop, hrsv, rfl⟩)
    · exact .congr (by simp [hrsv]) (.iteNot fun hmask => ⟨decide_eq_true hmask, htype, hop, hrsv, rfl⟩)
    · exact .congr (by simp [hrsv]) (.ite fun hhigh => ⟨rfl, htype, hop, hrsv, hhigh, rfl⟩)
    · exact .congr (by simp [hrsv]) (.ite fun hhigh => ⟨rfl, htype, hop, hrsv, hhigh, rfl⟩)

theorem decodeSignal_answers {w : Word} (htype : typeCode w = 0xB) :
    AnswersFor w (ReservedFields w 0xB) (decodeSignal w) := by
  have hop : field w 8 4 = BitVec.ofNat 4 (field w 8 4).toNat := by simp
  rw [decodeSignal, ReservedFields]
  generalize (field w 8 4).toNat = op at hop ⊢
  match op with
  | 0 => exact .congr (by simp) (.ite fun hcnt => ⟨rfl, htype, hop, hcnt⟩)
  | 1 => exact .congr (by simp) (.ite fun hcnt => ⟨rfl, htype, hop, hcnt⟩)
  | 2 => exact .congr (by simp) (.ite fun hcnt => ⟨rfl, htype, hop, hcnt⟩)
  | 3 => exact ⟨by simp, rfl, htype, hop, rfl⟩
  | 4 => exact ⟨by simp, rfl, htype, hop, rfl⟩
  | op + 5 => exact Or.inl (Nat.le_add_left 5 op)

/-- What the decoder answers for any word (R120): every proof about its rejections and its instructions starts here. -/
theorem decode_answers (w : Word) : AnswersFor w (ReservedFields w (typeCode w).toNat) (decode w) := by
  have htype : typeCode w = BitVec.ofNat 4 (typeCode w).toNat := by simp
  rw [decode]
  generalize (typeCode w).toNat = type at htype ⊢
  match type with
  | 0x0 => exact .ite fun hrsv => ⟨rfl, htype, hrsv⟩
  | 0x1 | 0x2 | 0x5 => exact decodeRegLit_answers fun hform => ⟨hform, ⟨htype, rfl, rfl⟩, rfl⟩
  | 0x3 | 0x4 =>
    exact .bit (fun hsg => decodeRegLit_answers fun hform => ⟨hform, ⟨htype, rfl, rfl⟩, hsg, rfl⟩)
      fun hsg => decodeRegLit_answers fun hform => ⟨hform, ⟨htype, rfl, rfl⟩, hsg, rfl⟩
  | 0x6 => exact decodeShift_answers htype
  | 0x7 => exact decodeBitwise_answers htype
  | 0x8 => exact decodeBranch_answers htype
  | 0x9 =>
    exact .bit (fun hdir => ⟨id, rfl, ⟨htype, rfl, rfl⟩, hdir, rfl⟩)
      fun hdir => ⟨id, rfl, ⟨htype, rfl, rfl⟩, hdir, rfl⟩
  | 0xA => exact decodeStack_answers htype
  | 0xB => exact decodeSignal_answers htype
  | type + 12 => exact trivial

theorem decode_eq_decodeShift {w : Word} (htype : typeCode w = 0x6) : decode w = decodeShift w := by
  rw [decode, htype]
  rfl

theorem decode_eq_decodeBitwise {w : Word} (htype : typeCode w = 0x7) : decode w = decodeBitwise w := by
  rw [decode, htype]
  rfl

theorem decode_eq_decodeBranch {w : Word} (htype : typeCode w = 0x8) : decode w = decodeBranch w := by
  rw [decode, htype]
  rfl

theorem decode_eq_decodeStack {w : Word} (htype : typeCode w = 0xA) : decode w = decodeStack w := by
  rw [decode, htype]
  rfl

theorem decode_eq_decodeSignal {w : Word} (htype : typeCode w = 0xB) : decode w = decodeSignal w := by
  rw [decode, htype]
  rfl

/-- The decoder gives back a well-formed instruction from any word that has its fields. -/
theorem decode_of_fieldsIn {i : Instr} {w : Word} (hwf : i.WellFormed) (h : i.FieldsIn w) : decode w = .ok i := by
  cases i
  case nop =>
    obtain ⟨htype, hrsv⟩ := h
    rw [decode, htype]
    exact if_pos hrsv
  case add | sub | asgn =>
    obtain ⟨⟨htype, rfl, rfl⟩, rfl⟩ := h
    rw [decode, htype]
    exact decodeRegLit_of_form hwf
  case mul | muls | div | divs =>
    obtain ⟨⟨htype, rfl, rfl⟩, hsg, rfl⟩ := h
    rw [decode, htype, hsg]
    exact decodeRegLit_of_form hwf
  case shft =>
    obtain ⟨⟨htype, rfl, rfl⟩, hrsv, rfl⟩ := h
    rw [decode_eq_decodeShift htype, decodeShift, if_pos hrsv]
    exact decodeRegLit_of_form hwf
  case bitAnd | bitOr | bitXor =>
    obtain ⟨⟨htype, rfl, rfl⟩, hop, hrsv, rfl⟩ := h
    rw [decode_eq_decodeBitwise htype, decodeBitwise, if_pos hrsv, hop]
    exact decodeRegLit_of_form hwf
  case bitNot =>
    obtain ⟨⟨htype, rfl, rfl⟩, hop, hrsv, hidx⟩ := h
    rw [decode_eq_decodeBitwise htype, decodeBitwise, if_pos hrsv, hop]
    exact if_pos hidx
  case cbx lnk cond neg off =>
    obtain ⟨htype, rfl, hcond, rfl, rfl⟩ := h
    rw [decode_eq_decodeBranch htype, decodeBranch, hcond]
    cases cond
    case al => exact if_neg (by simpa [Instr.WellFormed, Instr.wf] using hwf)
    case z | ov => rfl
  case ld | st =>
    obtain ⟨⟨htype, rfl, rfl⟩, hdir, rfl⟩ := h
    rw [decode, htype, hdir]
    rfl
  case pop | push =>
    obtain ⟨htype, hop, hrsv, rfl⟩ := h
    rw [decode_eq_decodeStack htype, decodeStack, if_pos hrsv, hop]
    exact if_neg (of_decide_eq_true hwf)
  case spget | spset =>
    obtain ⟨htype, hop, hrsv, hhigh, rfl⟩ := h
    rw [decode_eq_decodeStack htype, decodeStack, if_pos hrsv, hop]
    exact if_pos hhigh
  case sigQuery | sigUsable | sigRelinquish =>
    obtain ⟨htype, hop, hcnt⟩ := h
    rw [decode_eq_decodeSignal htype, decodeSignal, hop]
    exact if_pos hcnt
  case sigRead | sigWrite =>
    obtain ⟨htype, hop, rfl⟩ := h
    rw [decode_eq_decodeSignal htype, decodeSignal, hop]
    rfl

/-- The decoder and the encoder are each other's inverse. -/
theorem decode_eq_ok_iff (w : Word) (i : Instr) : decode w = .ok i ↔ i.WellFormed ∧ encode i = w := by
  rw [encode_eq_iff_fieldsIn]
  refine ⟨fun h => ?_, fun ⟨hwf, hfields⟩ => decode_of_fieldsIn hwf hfields⟩
  have hanswers := decode_answers w
  rw [h] at hanswers
  exact hanswers.2

/-! ## The reserved words by number (R116, R117) -/

theorem decode_error_iff_reservedFields (w : Word) :
    (∃ r, decode w = .error r) ↔ ReservedFields w (typeCode w).toNat := by
  have hanswers := decode_answers w
  generalize decode w = answer at hanswers ⊢
  cases answer with
  | ok i => simpa using hanswers.1
  | error r => exact ⟨fun _ => hanswers, fun _ => ⟨r, rfl⟩⟩

theorem typeCode_toNat (w : Word) : (typeCode w).toNat = w.toNat / 4096 := by
  have hlt := w.isLt
  rw [typeCode, field_toNat]
  omega

theorem field_eq_zero_iff (w : Word) (lo width : Nat) : field w lo width = 0 ↔ w.toNat / 2 ^ lo % 2 ^ width = 0 :=
  field_eq_iff w 0

theorem getLsbD_iff_toNat (w : Word) (k : Nat) : w.getLsbD k = true ↔ w.toNat / 2 ^ k % 2 = 1 := by
  rw [getLsbD_eq_iff, field_eq_iff]
  rfl

theorem regHi_eq_regLo_iff (w : Word) : regHi w = regLo w ↔ w.toNat / 1024 % 4 = w.toNat / 256 % 4 := by
  rw [regHi_eq_iff, regLo, Reg.id_ofId, field_eq_iff, field_toNat]
  rfl

theorem literalInRegisterForm_iff (width : Nat) (w : Word) :
    LiteralInRegisterForm width w ↔
      w.toNat / 1024 % 4 ≠ w.toNat / 256 % 4 ∧ w.toNat % 2 ^ width ≠ 0 := by
  rw [LiteralInRegisterForm, Ne, Ne, regHi_eq_regLo_iff, field_eq_zero_iff, pow_zero, Nat.div_one]

/-! ## The opcode map (R122) -/

/-- The encoding of every instruction selects the row of its mnemonic. -/
theorem opcodeRowSelects (i : Instr) : Laws.OpcodeRowSelects.Statement i :=
  match i with
  | .nop => Laws.OpcodeRowSelects.nop
  | .add rs rd lit => Laws.OpcodeRowSelects.add rs rd lit
  | .sub rs rd lit => Laws.OpcodeRowSelects.sub rs rd lit
  | .mul rs rd lit => Laws.OpcodeRowSelects.mul rs rd lit
  | .muls rs rd lit => Laws.OpcodeRowSelects.muls rs rd lit
  | .div rs rd lit => Laws.OpcodeRowSelects.div rs rd lit
  | .divs rs rd lit => Laws.OpcodeRowSelects.divs rs rd lit
  | .asgn rs rd lit => Laws.OpcodeRowSelects.asgn rs rd lit
  | .shft rs rd amt => Laws.OpcodeRowSelects.shft rs rd amt
  | .bitAnd rs rd idx => Laws.OpcodeRowSelects.bitAnd rs rd idx
  | .bitOr rs rd idx => Laws.OpcodeRowSelects.bitOr rs rd idx
  | .bitXor rs rd idx => Laws.OpcodeRowSelects.bitXor rs rd idx
  | .bitNot rs rd => Laws.OpcodeRowSelects.bitNot rs rd
  | .cbx lnk cond neg off => Laws.OpcodeRowSelects.cbx lnk cond neg off
  | .ld rb rt off => Laws.OpcodeRowSelects.ld rb rt off
  | .st rb rt off => Laws.OpcodeRowSelects.st rb rt off
  | .pop mask => Laws.OpcodeRowSelects.pop mask
  | .push mask => Laws.OpcodeRowSelects.push mask
  | .spget r => Laws.OpcodeRowSelects.spget r
  | .spset r => Laws.OpcodeRowSelects.spset r
  | .sigQuery => Laws.OpcodeRowSelects.sigQuery
  | .sigUsable => Laws.OpcodeRowSelects.sigUsable
  | .sigRelinquish => Laws.OpcodeRowSelects.sigRelinquish
  | .sigRead cnt => Laws.OpcodeRowSelects.sigRead cnt
  | .sigWrite cnt => Laws.OpcodeRowSelects.sigWrite cnt

/-- Two rows that select one word agree under both masks. -/
theorem OpcodeRow.bits_agree_of_selects {a b : OpcodeRow} {w : Word} (ha : a.selects w = true)
    (hb : b.selects w = true) : a.bits &&& b.mask = b.bits &&& a.mask := by
  have hbitsA : w &&& a.mask = a.bits := of_decide_eq_true ha
  have hbitsB : w &&& b.mask = b.bits := of_decide_eq_true hb
  rw [← hbitsA, ← hbitsB, BitVec.and_assoc, BitVec.and_assoc, BitVec.and_comm a.mask]

theorem opcodeMap_eq_of_bits_agree :
    ∀ a ∈ opcodeMap, ∀ b ∈ opcodeMap, a.bits &&& b.mask = b.bits &&& a.mask → a = b := by
  decide

theorem opcodeMap_eq_of_mnemonic : ∀ a ∈ opcodeMap, ∀ b ∈ opcodeMap, a.mnemonic = b.mnemonic → a = b := by
  decide

/-! ## The layout table (R113 to R115, R119) -/

section FieldValue

variable {w : Word} {type : BitVec 4} {name : String} {hi lo signBit : Nat} {v : BitVec (hi - lo + 1)}

/-- The field of that name in the layout of a type code. -/
def layoutField (type : BitVec 4) (name : String) : Option FieldSpec :=
  (layout type.toNat).find? fun f => f.name = name

theorem fieldValue_eq {f : FieldSpec} (htype : typeCode w = type) (hspec : layoutField type name = some f) :
    fieldValue name w = some (f.value w) := by
  rw [layoutField] at hspec
  rw [fieldValue, htype, hspec, Option.map_some]

theorem fieldValue_unsigned {n : Int} (htype : typeCode w = type)
    (hspec : layoutField type name = some ⟨name, hi, lo, .alwaysUnsigned⟩) (hv : field w lo (hi - lo + 1) = v)
    (hn : (v.toNat : Int) = n) : fieldValue name w = some n := by
  rw [fieldValue_eq htype hspec, FieldSpec.value, hv, ← hn]

theorem fieldValue_signed (htype : typeCode w = type)
    (hspec : layoutField type name = some ⟨name, hi, lo, .alwaysSigned⟩) (hv : field w lo (hi - lo + 1) = v) :
    fieldValue name w = some v.toInt := by
  rw [fieldValue_eq htype hspec, FieldSpec.value, hv]

theorem fieldValue_dynamic_clear (htype : typeCode w = type)
    (hspec : layoutField type name = some ⟨name, hi, lo, .dynamicSignedness signBit⟩)
    (hsign : w.getLsbD signBit = false) (hv : field w lo (hi - lo + 1) = v) :
    fieldValue name w = some (v.toNat : Int) := by
  rw [fieldValue_eq htype hspec, FieldSpec.value, hv]
  exact congrArg some (if_neg (ne_true_of_eq_false hsign))

theorem fieldValue_dynamic_set (htype : typeCode w = type)
    (hspec : layoutField type name = some ⟨name, hi, lo, .dynamicSignedness signBit⟩)
    (hsign : w.getLsbD signBit = true) (hv : field w lo (hi - lo + 1) = v) :
    fieldValue name w = some v.toInt := by
  rw [fieldValue_eq htype hspec, FieldSpec.value, hv]
  exact congrArg some (if_pos hsign)

/-- A field of one bit. -/
theorem fieldValue_bit {k : Nat} {b : Bool} (htype : typeCode w = type)
    (hspec : layoutField type name = some ⟨name, k, k, .alwaysUnsigned⟩) (hbit : w.getLsbD k = b) :
    fieldValue name w = some (if b then 1 else 0) := by
  have hfield : (field w k (k - k + 1)).toNat = (BitVec.ofBool b).toNat := by
    rw [← (getLsbD_eq_iff w k b).mp hbit, field_toNat, field_toNat, Nat.sub_self]
  rw [fieldValue_eq htype hspec, FieldSpec.value, hfield]
  cases b <;> rfl

/-- The two register fields hold the identifiers of the two registers (10_state.md R33). -/
theorem RegisterFields.values {a b : Reg} {high low : String} (h : RegisterFields type a b w)
    (hhigh : layoutField type high = some ⟨high, 11, 10, .alwaysUnsigned⟩)
    (hlow : layoutField type low = some ⟨low, 9, 8, .alwaysUnsigned⟩) :
    fieldValue high w = some (a.id.toNat : Int) ∧ fieldValue low w = some (b.id.toNat : Int) := by
  obtain ⟨htype, ha, hb⟩ := h
  exact ⟨fieldValue_unsigned htype hhigh ((regHi_eq_iff w a).mp ha) rfl,
    fieldValue_unsigned htype hlow ((regLo_eq_iff w b).mp hb) rfl⟩

/-- SPGET and SPSET have the identifier of their register in ARG (R116). -/
theorem fieldValue_arg_of_register {r : Reg} (htype : typeCode w = 0xA) (hhigh : field w 2 2 = 0)
    (hr : Reg.ofId (field w 0 2) = r) : fieldValue "ARG" w = some (r.id.toNat : Int) := by
  have harg : field w 0 4 = 0#2 ++ r.id :=
    (field_eq_append_iff w 0 0#2 r.id).mpr ⟨hhigh, (Reg.ofId_eq_iff _ r).mp hr⟩
  exact fieldValue_unsigned htype rfl harg (by cases r <;> rfl)

end FieldValue

theorem literal8_toNat (lit : BitVec 8) : (Machine.literal8 lit).toNat = lit.toNat := by
  have hlt := lit.isLt
  rw [Machine.literal8, BitVec.zeroExtend, BitVec.toNat_setWidth]
  omega

theorem literal7_toNat (lit : BitVec 7) : (Machine.literal7 lit).toNat = lit.toNat := by
  have hlt := lit.isLt
  rw [Machine.literal7, BitVec.zeroExtend, BitVec.toNat_setWidth]
  omega

theorem literalSigned7_toInt (lit : BitVec 7) : (Machine.literalSigned7 lit).toInt = lit.toInt :=
  BitVec.toInt_signExtend_of_le (by decide)

theorem shiftLiteral_toInt (amt : BitVec 5) : (Machine.shiftLiteral amt).toInt = amt.toInt :=
  BitVec.toInt_signExtend_of_le (by decide)

/-! ## The obligations -/

/-- Settles O1. -/
theorem decodeOfEncodeIsTheInstruction : Obligations.DecodeOfEncodeIsTheInstruction :=
  fun i hwf => (decode_eq_ok_iff (encode i) i).mpr ⟨hwf, rfl⟩

/-- Settles O2. -/
theorem encodeOfDecodeIsTheWord : Obligations.EncodeOfDecodeIsTheWord :=
  fun w i => (decode_eq_ok_iff w i).mp

/-- Settles O3: the decoder's rules over the fields, type code by type code, are the table's over the number. -/
theorem invalidWordsAreExactlyTheReservedOnes : Obligations.InvalidWordsAreExactlyTheReservedOnes := by
  intro w
  dsimp only
  rw [decode_error_iff_reservedFields, typeCode_toNat]
  generalize w.toNat / 4096 = type
  match type with
  | 0x0 | 0x1 | 0x2 | 0x3 | 0x4 | 0x5 | 0x6 | 0x7 | 0x8 | 0x9 | 0xA | 0xB =>
    simp only [ReservedFields, literalInRegisterForm_iff, field_eq_zero_iff, getLsbD_iff_toNat, field_toNat, ne_eq]
    simp
  | type + 12 => simp [ReservedFields]

/-- Settles O4: the row of the mnemonic selects the word, and no two rows agree under both masks. -/
theorem decodedWordSelectsItsOpcodeRow : Obligations.DecodedWordSelectsItsOpcodeRow := by
  intro w i hdecode row hrow
  obtain ⟨-, rfl⟩ := (decode_eq_ok_iff w i).mp hdecode
  obtain ⟨own, hown, hmnemonic, hselects⟩ := opcodeRowSelects i
  constructor
  · intro hrowSelects
    rw [opcodeMap_eq_of_bits_agree row hrow own hown (OpcodeRow.bits_agree_of_selects hrowSelects hselects), hmnemonic]
  · intro hname
    rwa [opcodeMap_eq_of_mnemonic row hrow own hown (hname.trans hmnemonic.symm)]

/-- Settles O5: an operand of the instruction is a field of the word, and the layout table gives that field its value. -/
theorem operandsHaveTheLayoutTablesValue : Obligations.OperandsHaveTheLayoutTablesValue := by
  refine ⟨⟨rfl, rfl, rfl, rfl⟩, fun w i hdecode => ?_⟩
  obtain ⟨-, hencode⟩ := (decode_eq_ok_iff w i).mp hdecode
  have h := (encode_eq_iff_fieldsIn i w).mp hencode
  cases i
  all_goals dsimp only
  case nop =>
    obtain ⟨htype, hrsv⟩ := h
    exact fieldValue_unsigned htype rfl hrsv rfl
  case add | sub | asgn =>
    obtain ⟨hregs, hlit⟩ := h
    have htype := hregs.typeCode_eq
    rw [literal8_toNat]
    exact ⟨hregs.values rfl rfl, fieldValue_unsigned htype rfl hlit rfl⟩
  case mul | div =>
    obtain ⟨hregs, hsg, hlit⟩ := h
    have htype := hregs.typeCode_eq
    rw [literal7_toNat]
    exact ⟨hregs.values rfl rfl, fieldValue_bit htype rfl hsg, fieldValue_dynamic_clear htype rfl hsg hlit⟩
  case muls | divs =>
    obtain ⟨hregs, hsg, hlit⟩ := h
    have htype := hregs.typeCode_eq
    rw [literalSigned7_toInt]
    exact ⟨hregs.values rfl rfl, fieldValue_bit htype rfl hsg, fieldValue_dynamic_set htype rfl hsg hlit⟩
  case shft =>
    obtain ⟨hregs, -, hamt⟩ := h
    have htype := hregs.typeCode_eq
    rw [shiftLiteral_toInt]
    exact ⟨hregs.values rfl rfl, fieldValue_signed htype rfl hamt⟩
  case bitAnd | bitOr | bitXor | bitNot =>
    obtain ⟨hregs, hop, -, hidx⟩ := h
    have htype := hregs.typeCode_eq
    exact ⟨hregs.values rfl rfl, fieldValue_unsigned htype rfl hop rfl, fieldValue_unsigned htype rfl hidx rfl⟩
  case cbx cond _ _ =>
    obtain ⟨htype, hlnk, hcond, hneg, hoff⟩ := h
    exact ⟨fieldValue_bit htype rfl hlnk, fieldValue_unsigned htype rfl hcond (by cases cond <;> rfl),
      fieldValue_bit htype rfl hneg, fieldValue_signed htype rfl hoff⟩
  case ld | st =>
    obtain ⟨hregs, hdir, hoff⟩ := h
    have htype := hregs.typeCode_eq
    exact ⟨hregs.values rfl rfl, fieldValue_bit htype rfl hdir, fieldValue_signed htype rfl hoff⟩
  case pop | push =>
    obtain ⟨htype, hop, -, hmask⟩ := h
    exact ⟨fieldValue_unsigned htype rfl hop rfl, fieldValue_unsigned htype rfl hmask rfl⟩
  case spget | spset =>
    obtain ⟨htype, hop, -, hhigh, hr⟩ := h
    exact ⟨fieldValue_unsigned htype rfl hop rfl, fieldValue_arg_of_register htype hhigh hr⟩
  case sigQuery | sigUsable | sigRelinquish | sigRead | sigWrite =>
    obtain ⟨htype, hop, hcnt⟩ := h
    exact ⟨fieldValue_unsigned htype rfl hop rfl, fieldValue_unsigned htype rfl hcnt rfl⟩

/-- Settles O6: the decoder is run on each listed word. -/
theorem exampleWordsDecodeAsListed : Obligations.ExampleWordsDecodeAsListed := by
  refine ⟨by decide, by decide, by decide, by decide, by decide, by decide, by decide, by decide, by decide, by decide,
    by decide, by decide, by decide, by decide, fun w hw => ?_⟩
  fin_cases hw <;> exact ⟨_, rfl⟩

end Sys2Proof
end

section
/-! PROOFS. The statements about the tick and the CPU step (40_step.md R151 to R157; 60_exceptions.md R300). -/

namespace Sys2Proof.Machine

/-! ## What a step is (40_step.md R150, R152 to R154) -/

theorem State.beginTick_eq (s : State) :
    s.beginTick =
      { s with ports := s.settle.pollPhase.ports, ticks := s.ticks + 1, polls := s.polls.tail } := by
  obtain ⟨ports, heq, rfl, _⟩ := s.beginTick_spec
  exact heq

theorem step_of_allocated {s : State} (halloc : s.allocated = true) :
    step s = cpuStep { s with ports := s.settle.pollPhase.ports, ticks := s.ticks + 1, polls := s.polls.tail } := by
  rw [step, if_pos halloc, State.beginTick_eq]

theorem execWord_of_decode {w : Word} {i : Instr} (hdecode : decode w = .ok i) (s : State) :
    execWord w s = exec i s := by
  rw [execWord, hdecode]

/-- While Faulted the CPU step does nothing (40_step.md R154). -/
theorem cpuStep_of_faulted {s : State} (hfault : s.Faulted) : cpuStep s = .next s := by
  rcases s.fetch_spec with ⟨_, hfetch⟩ | ⟨hrun, _⟩ | ⟨hrun, _⟩
  · rw [cpuStep, hfetch]
  · exact absurd hrun hfault
  · exact absurd hrun hfault

/-- A word that does not fit is not fetched, and nothing is executed (40_step.md R152). -/
theorem cpuStep_of_failedFetch {s : State} (hrun : s.fault = 0) (hcap : s.memCapacity ≤ s.pc.toNat + 1) :
    cpuStep s = .next { s with ir := 0, fault := 1 } := by
  rcases s.fetch_spec with ⟨hfault, _⟩ | ⟨_, _, hfetch⟩ | ⟨_, hfit, _⟩
  · exact absurd hrun hfault
  · rw [cpuStep, hfetch]
  · exact absurd hcap (Nat.not_le.mpr hfit)

/-- The word at `pc` is executed with `ir` and `pc` set (40_step.md R152, R153). -/
theorem cpuStep_of_readWord {s : State} {w : Word} (hrun : s.fault = 0) (hword : s.readWord s.pc.toNat = some w) :
    cpuStep s = execWord w { s with ir := w, pc := s.pc + 2 } := by
  rw [cpuStep, State.fetch_of_readWord hword hrun]

/-- A tick with the CPU Running executes the word at `pc`. -/
theorem step_of_readWord {s : State} {w : Word} (halloc : s.allocated = true) (hrun : s.fault = 0)
    (hword : s.readWord s.pc.toNat = some w) :
    step s = execWord w
      { s with
        ir := w, pc := s.pc + 2, ports := s.settle.pollPhase.ports, ticks := s.ticks + 1, polls := s.polls.tail } :=
  (step_of_allocated halloc).trans (cpuStep_of_readWord hrun hword)

theorem regsKept_of_eq {s t : State} (written : List Reg) (hr0 : t.r0 = s.r0) (hr1 : t.r1 = s.r1) (hlr : t.lr = s.lr)
    (hpc : t.pc = s.pc) : RegsKept written s t := by
  intro r _
  cases r with
  | r0 => exact hr0
  | r1 => exact hr1
  | lr => exact hlr
  | pc => exact hpc

/-! ## The halting word (30_encoding.md R141; 40_step.md R155) -/

theorem decode_halt : decode 0x80FF = .ok (.cbx false .al false 0xFF) := by decide

/-- The halting word branches back over itself. -/
theorem execWord_halt (s : State) : execWord 0x80FF s = .next { s with pc := s.pc - 2 } := by
  have htarget : s.branchTarget 0xFF = s.pc - 2 := by
    have hoff : 2#16 * (0xFF : BitVec 8).signExtend 16 = -2 := by decide
    rw [State.branchTarget, hoff, BitVec.sub_eq_add_neg]
  calc execWord 0x80FF s
    _ = .next (s.setX .pc (s.branchTarget 0xFF)) := execWord_of_decode decode_halt s
    _ = .next { s with pc := s.pc - 2 } := by rw [htarget]; rfl

theorem cpuStep_of_halted {s : State} (hhalted : s.Halted) : cpuStep s = .next { s with ir := 0x80FF } := by
  obtain ⟨hrun, hword⟩ := hhalted
  rw [cpuStep_of_readWord hrun hword, execWord_halt]
  simp

/-! ## The obligations -/

/-- Settles O9: the fetch ends the step, and it writes `ir` and `fault` only. -/
theorem failedFetchRaisesInvalidFetch : Obligations.FailedFetchRaisesInvalidFetch := by
  intro s halloc hrun hcap
  exact ⟨_, (step_of_allocated halloc).trans (cpuStep_of_failedFetch hrun hcap), rfl, rfl,
    regsKept_of_eq [] rfl rfl rfl rfl, rfl, rfl, rfl⟩

/-- Settles O10: only settle and the polls act. -/
theorem faultedStepKeepsTheCpu : Obligations.FaultedStepKeepsTheCpu := by
  intro s halloc hfault
  exact ⟨_, (step_of_allocated halloc).trans (cpuStep_of_faulted hfault),
    regsKept_of_eq [] rfl rfl rfl rfl, rfl, rfl, rfl, rfl, rfl, rfl, rfl⟩

/-- Settles O11: the branch takes `pc` back to the halting word, which no part of the step has overwritten. -/
theorem haltedStepStaysHalted : Obligations.HaltedStepStaysHalted := by
  intro s halloc hhalted
  exact ⟨_, (step_of_allocated halloc).trans (cpuStep_of_halted hhalted), hhalted,
    regsKept_of_eq [] rfl rfl rfl rfl, rfl, rfl, rfl, rfl⟩

/-- Settles O7: the fetch reads the word that fits at `pc`, and the word's meaning is that of its instruction. -/
theorem stepRunsTheDecodedInstruction : Obligations.StepRunsTheDecodedInstruction := by
  intro s i halloc hrun hfit _ w hdecode
  have hword : s.readWord s.pc.toNat = some w := State.readWord_of_lt hfit
  rw [step_of_readWord halloc hrun hword, execWord_of_decode hdecode]

/-- Settles O12. -/
theorem settleClearsOnlyBusy : Obligations.SettleClearsOnlyBusy :=
  fun s => ⟨_, rfl, portAt_settle s.ports⟩

end Sys2Proof.Machine
end

section
/-! PROOFS. The statements about ADD, SUB, MUL, MULS, DIV and DIVS (41_arithmetic.md R170 to R177). -/

namespace Sys2Proof.Machine

/-! ## What each instruction does to the state -/

section
variable (rs rd : Reg) (s : State)

theorem exec_add (lit : BitVec 8) :
    exec (.add rs rd lit) s =
      .next (s.writeResult rd (s.x rd + s.operand rs rd (literal8 lit))
        (addOverflows (s.x rd) (s.operand rs rd (literal8 lit)))) := rfl

theorem exec_sub (lit : BitVec 8) :
    exec (.sub rs rd lit) s =
      .next (s.writeResult rd (s.x rd - s.operand rs rd (literal8 lit))
        (subBorrows (s.x rd) (s.operand rs rd (literal8 lit)))) := rfl

theorem exec_mul (lit : BitVec 7) :
    exec (.mul rs rd lit) s =
      .next (s.writeResult rd (s.x rd * s.operand rs rd (literal7 lit))
        (mulOverflows (s.x rd) (s.operand rs rd (literal7 lit)))) := rfl

theorem exec_muls (lit : BitVec 7) :
    exec (.muls rs rd lit) s =
      .next (s.writeResult rd (BitVec.ofInt 16 (signedProduct (s.x rd) (s.operand rs rd (literalSigned7 lit))))
        (mulsOverflows (s.x rd) (s.operand rs rd (literalSigned7 lit)))) := rfl

variable {rs rd s} {lit : BitVec 7}

theorem exec_div_of_ne (h : s.operand rs rd (literal7 lit) ≠ 0) :
    exec (.div rs rd lit) s = .next (s.writeResult rd (s.x rd / s.operand rs rd (literal7 lit)) false) := if_neg h

theorem exec_div_of_eq (h : s.operand rs rd (literal7 lit) = 0) :
    exec (.div rs rd lit) s = .next (s.raise .divisionByZero) := if_pos h

theorem exec_divs_of_ne (h : s.operand rs rd (literalSigned7 lit) ≠ 0) :
    exec (.divs rs rd lit) s =
      .next (s.writeResult rd (BitVec.ofInt 16 (signedQuotient (s.x rd) (s.operand rs rd (literalSigned7 lit))))
        (divsOverflows (s.x rd) (s.operand rs rd (literalSigned7 lit)))) := if_neg h

theorem exec_divs_of_eq (h : s.operand rs rd (literalSigned7 lit) = 0) :
    exec (.divs rs rd lit) s = .next (s.raise .divisionByZero) := if_pos h

end

/-! ## The divisor 0 (R174, R175) -/

theorem State.operand_literal7_eq_zero_iff (s : State) (rs rd : Reg) (lit : BitVec 7) :
    s.operand rs rd (literal7 lit) = 0 ↔ if rs = rd then lit = 0 else s.x rs = 0 := by
  rw [← BitVec.toNat_inj, s.operand_literal7]
  split <;> exact BitVec.toNat_inj (y := 0)

theorem State.operand_literalSigned7_eq_zero_iff (s : State) (rs rd : Reg) (lit : BitVec 7) :
    s.operand rs rd (literalSigned7 lit) = 0 ↔ if rs = rd then lit = 0 else s.x rs = 0 := by
  rw [← BitVec.toInt_inj, s.operand_literalSigned7]
  split <;> exact BitVec.toInt_inj (y := 0)

/-! ## Results as exact numbers (R177) -/

theorem ofInt_toNat (n : Int) : ((BitVec.ofInt 16 n).toNat : Int) = n % 65536 := by
  rw [BitVec.toNat_ofInt]
  omega

theorem sub_toNat (a b : Word) : ((a - b).toNat : Int) = ((a.toNat : Int) - b.toNat) % 65536 := by
  have ha := a.isLt
  have hb := b.isLt
  rw [BitVec.toNat_sub]
  omega

theorem addOverflows_iff (a b : Word) : addOverflows a b = true ↔ 65535 < a.toNat + b.toNat := decide_eq_true_iff

theorem subBorrows_iff (a b : Word) : subBorrows a b = true ↔ a.toNat < b.toNat := decide_eq_true_iff

theorem mulOverflows_iff (a b : Word) : mulOverflows a b = true ↔ 65535 < a.toNat * b.toNat := decide_eq_true_iff

theorem mulsOverflows_iff (a b : Word) :
    mulsOverflows a b = true ↔ a.toInt * b.toInt < -32768 ∨ 32767 < a.toInt * b.toInt := by
  rw [mulsOverflows, Bool.or_eq_true, decide_eq_true_iff, decide_eq_true_iff, signedProduct]

/-- The one signed quotient out of range is that of −32768 by −1: every other is the value of a word (R175). -/
theorem signedQuotient_range (a b : Word) :
    (a.toInt = -32768 ∧ b.toInt = -1 ∧ signedQuotient a b = 32768) ∨
    (¬ (a.toInt = -32768 ∧ b.toInt = -1) ∧ -32768 ≤ signedQuotient a b ∧ signedQuotient a b ≤ 32767) := by
  by_cases h : a.toInt = -32768 ∧ b.toInt = -1
  · obtain ⟨ha, hb⟩ := h
    refine .inl ⟨ha, hb, ?_⟩
    rw [signedQuotient, ha, hb]
    rfl
  · have hwords : a ≠ BitVec.intMin 16 ∨ b ≠ -1#16 := by
      by_contra hboth
      obtain ⟨rfl, rfl⟩ : a = BitVec.intMin 16 ∧ b = -1#16 := by simpa [not_or] using hboth
      exact h (by decide)
    have hquotient : (a.sdiv b).toInt = signedQuotient a b := BitVec.toInt_sdiv_of_ne_or_ne a b hwords
    rw [← hquotient]
    exact .inr ⟨h, BitVec.le_toInt _, Int.le_of_lt_add_one BitVec.toInt_lt⟩

theorem divsOverflows_iff (a b : Word) : divsOverflows a b = true ↔ a.toInt = -32768 ∧ b.toInt = -1 := by
  have hrange := signedQuotient_range a b
  rw [divsOverflows, decide_eq_true_iff]
  omega

/-- No quotient other than 0 is a multiple of 65536, so `Z` tells of the exact quotient. -/
theorem signedQuotient_wraps_to_zero_iff (a b : Word) : signedQuotient a b % 65536 = 0 ↔ signedQuotient a b = 0 := by
  have hrange := signedQuotient_range a b
  omega

/-! ## From a register result to a completion -/

section
variable {i : Instr} {s : State} {rd : Reg} {v : Word} {ov : Bool} {zero overflow : Prop}

/-- An instruction that ends with a register result completes with the number of its word, `Z` as that number is 0, `OV`
as given, and nothing else changed (R177). -/
theorem completes_of_writeResult {n : Int} (hexec : exec i s = .next (s.writeResult rd v ov)) (hv : (v.toNat : Int) = n)
    (hz : n = 0 ↔ zero) (hov : ov = true ↔ overflow) :
    ∃ t, exec i s = .next t ∧ ((t.x rd).toNat : Int) = n ∧ FlagsAre zero overflow s t ∧ RegisterFrame [rd] s t := by
  obtain ⟨hresult, ⟨hzFlag, hovFlag, hreserved⟩, hframe⟩ := s.writeResult_spec rd v ov
  have hword : v = 0 ↔ n = 0 := by rw [← hv, Int.natCast_eq_zero, ← BitVec.toNat_inj]; rfl
  exact ⟨_, hexec, by rw [hresult, hv], ⟨hzFlag.trans (hword.trans hz), hovFlag.trans hov, hreserved⟩, hframe⟩

theorem completes_of_writeResult_nat {n : Nat} (hexec : exec i s = .next (s.writeResult rd v ov)) (hv : v.toNat = n)
    (hov : ov = true ↔ overflow) :
    ∃ t, exec i s = .next t ∧ (t.x rd).toNat = n ∧ FlagsAre (n = 0) overflow s t ∧ RegisterFrame [rd] s t := by
  obtain ⟨t, ht, hresult, heffect⟩ := completes_of_writeResult hexec (congrArg Nat.cast hv) Int.natCast_eq_zero hov
  exact ⟨t, ht, Int.ofNat_inj.mp hresult, heffect⟩

end

/-! ## The obligations -/

/-- Settles O27: a word's sum is the integer sum modulo 65536, and two words differ by a multiple of 65536 only when they
are equal. -/
theorem addAndSubWriteResultAndFlags : Obligations.AddAndSubWriteResultAndFlags := by
  intro rs rd lit s a b
  have hb : (s.operand rs rd (literal8 lit)).toNat = b := s.operand_literal8 rs rd lit
  have hbLt : b < 65536 := hb ▸ BitVec.isLt _
  have haLt : a < 65536 := BitVec.isLt _
  constructor
  · refine completes_of_writeResult_nat (exec_add rs rd s lit) ?_ ?_
    · rw [BitVec.toNat_add, hb]
    · rw [addOverflows_iff, hb]
  · refine completes_of_writeResult (exec_sub rs rd s lit) ?_ ?_ ?_
    · rw [sub_toNat, hb]
    · omega
    · rw [subBorrows_iff, hb]

/-- Settles O28. -/
theorem mulAndMulsWriteLowProductAndFlags : Obligations.MulAndMulsWriteLowProductAndFlags := by
  intro rs rd lit s
  constructor
  · intro a b
    have hb : (s.operand rs rd (literal7 lit)).toNat = b := s.operand_literal7 rs rd lit
    refine completes_of_writeResult_nat (exec_mul rs rd s lit) ?_ ?_
    · rw [BitVec.toNat_mul, hb]
    · rw [mulOverflows_iff, hb]
  · intro a b
    have hb : (s.operand rs rd (literalSigned7 lit)).toInt = b := s.operand_literalSigned7 rs rd lit
    refine completes_of_writeResult (exec_muls rs rd s lit) ?_ Iff.rfl ?_
    · rw [ofInt_toNat, signedProduct, hb]
    · rw [mulsOverflows_iff, hb]

/-- Settles O29. -/
theorem divWritesFloorQuotient : Obligations.DivWritesFloorQuotient := by
  intro rs rd lit s a b hne
  have hb : (s.operand rs rd (literal7 lit)).toNat = b := s.operand_literal7 rs rd lit
  have hdivisor : s.operand rs rd (literal7 lit) ≠ 0 := fun h => hne (by rw [← hb, h]; rfl)
  refine completes_of_writeResult_nat (exec_div_of_ne hdivisor) ?_ Bool.false_eq_true.to_iff
  rw [BitVec.toNat_udiv, hb]

/-- Settles O30: by `signedQuotient_range` only −32768 by −1 leaves the signed range. -/
theorem divsWritesTruncatedQuotient : Obligations.DivsWritesTruncatedQuotient := by
  intro rs rd lit s a b hne
  have hb : (s.operand rs rd (literalSigned7 lit)).toInt = b := s.operand_literalSigned7 rs rd lit
  have hdivisor : s.operand rs rd (literalSigned7 lit) ≠ 0 := fun h => hne (by rw [← hb, h]; rfl)
  have hquotient : signedQuotient (s.x rd) (s.operand rs rd (literalSigned7 lit)) = a.tdiv b := by
    rw [signedQuotient, hb]
  refine completes_of_writeResult (exec_divs_of_ne hdivisor) ?_ ?_ ?_
  · rw [ofInt_toNat, hquotient]
  · rw [← hquotient, signedQuotient_wraps_to_zero_iff]
  · rw [divsOverflows_iff, hb]

/-- Settles O31. -/
theorem divisionByZeroOnlyRaisesTheFault : Obligations.DivisionByZeroOnlyRaisesTheFault := by
  intro rs rd lit s hzero
  exact ⟨exec_div_of_eq ((s.operand_literal7_eq_zero_iff rs rd lit).mpr hzero),
    exec_divs_of_eq ((s.operand_literalSigned7_eq_zero_iff rs rd lit).mpr hzero)⟩

end Sys2Proof.Machine
end

section
/-! PROOFS. The statements about ASGN, SHFT, AND, OR, XOR and NOT (42_assign_shift_bitwise.md R190 to R196). -/

namespace Sys2Proof.Machine

/-! ## What each instruction does to the state -/

section
variable (rs rd : Reg) (s : State)

theorem exec_asgn (lit : BitVec 8) :
    exec (.asgn rs rd lit) s = .next (s.setX rd (s.operand rs rd (literal8 lit))) := rfl

theorem exec_shft (amt : BitVec 5) :
    exec (.shft rs rd amt) s =
      .next (s.writeResult rd (shiftValue (s.x rd) (s.operand rs rd (shiftLiteral amt)).toInt)
        (shiftLost (s.x rd) (s.operand rs rd (shiftLiteral amt)).toInt)) := rfl

theorem exec_bitAnd (idx : BitVec 4) :
    exec (.bitAnd rs rd idx) s =
      .next (s.writeResult rd (s.x rd &&& s.operand rs rd (bitLiteral idx)) false) := rfl

theorem exec_bitOr (idx : BitVec 4) :
    exec (.bitOr rs rd idx) s =
      .next (s.writeResult rd (s.x rd ||| s.operand rs rd (bitLiteral idx)) false) := rfl

theorem exec_bitXor (idx : BitVec 4) :
    exec (.bitXor rs rd idx) s =
      .next (s.writeResult rd (s.x rd ^^^ s.operand rs rd (bitLiteral idx)) false) := rfl

theorem exec_bitNot : exec (.bitNot rs rd) s = .next (s.writeResult rd (~~~ s.x rs) false) := rfl

end

/-- A register write changes that register only (00_scope.md R10). -/
theorem State.setX_registerFrame (s : State) (rd : Reg) (v : Word) : RegisterFrame [rd] s (s.setX rd v) := by
  refine ⟨fun r hr => ?_, s.setX_sp rd v, fun a => ?_, s.setX_ports rd v, ?_⟩
  · rw [State.setX_x, if_neg (mt List.mem_singleton.mpr hr)]
  · rw [State.setX_mem]
  · simp [RestKept]

/-! ## The bits a shift loses (R191) -/

/-- A left shift loses a 1 bit exactly when the exact product needs more than 16 bits. -/
theorem shiftLost_left (v : Word) (k : Nat) : shiftLost v k = true ↔ 65536 ≤ v.toNat * 2 ^ k := by
  have hv : v.toNat < 65536 := v.isLt
  rw [shiftLost]
  rcases Nat.eq_zero_or_pos k with rfl | hpos
  · simpa using hv
  rw [if_neg (by omega)]
  by_cases hk : k < 16
  · have hpow : 65536 = 2 ^ (16 - k) * 2 ^ k := (pow_sub_mul_pow 2 hk.le).symm
    rw [if_pos (by omega), decide_eq_true_iff, Int.toNat_natCast, Nat.shiftRight_eq_div_pow, hpow,
      Nat.mul_le_mul_right_iff (Nat.two_pow_pos k)]
    simp [Nat.div_eq_zero_iff]
  · have hpow : 2 ^ 16 ≤ 2 ^ k := Nat.pow_le_pow_right (by decide) (by omega)
    rw [if_neg (by omega), if_pos (by omega), decide_eq_true_iff, ← BitVec.toNat_ne_iff_ne]
    constructor
    · intro hne
      exact hpow.trans (Nat.le_mul_of_pos_left _ (Nat.pos_of_ne_zero hne))
    · intro hle hzero
      simp [hzero] at hle

/-- A right shift loses the remainder of the division. -/
theorem shiftLost_right (v : Word) {k : Nat} (hpos : 0 < k) : shiftLost v (-k) = true ↔ v.toNat % 2 ^ k ≠ 0 := by
  rw [shiftLost, if_neg (by omega), if_neg (by omega), if_neg (by omega)]
  by_cases hk : k < 16
  · rw [if_pos (by omega), decide_eq_true_iff, neg_neg, Int.toNat_natCast]
  · have hpow : 2 ^ 16 ≤ 2 ^ k := Nat.pow_le_pow_right (by decide) (by omega)
    rw [if_neg (by omega), decide_eq_true_iff, Nat.mod_eq_of_lt (v.isLt.trans_le hpow), ← BitVec.toNat_ne_iff_ne]
    rfl

theorem shiftLost_iff (v : Word) (n : Int) :
    shiftLost v n = true ↔ if 0 ≤ n then 65536 ≤ v.toNat * 2 ^ n.toNat else v.toNat % 2 ^ (-n).toNat ≠ 0 := by
  split
  next hleft =>
    have hcount : n = n.toNat := (Int.toNat_of_nonneg hleft).symm
    rw [hcount, shiftLost_left, Int.toNat_natCast]
  next hright =>
    have hcount : n = -((-n).toNat : Int) := by omega
    rw [hcount, shiftLost_right v (by omega), neg_neg, Int.toNat_natCast]

/-! ## Bitwise results (R192 to R194, R196) -/

/-- The bits of the second operand of AND, OR and XOR: the source register's, or the one bit `IDX`. -/
theorem State.operand_bitLiteral_getLsbD (s : State) (rs rd : Reg) (idx : BitVec 4) {k : Nat} (hk : k < 16) :
    (s.operand rs rd (bitLiteral idx)).getLsbD k = if rs = rd then decide (k = idx.toNat) else (s.x rs).getLsbD k := by
  rw [State.operand]
  split
  · exact bitLiteral_getLsbD idx k hk
  · rfl

/-- An instruction that ends with a register result and `OV` clear completes with the bits of its word (R196). -/
theorem completes_of_writeResult_bits {i : Instr} {s : State} {rd : Reg} {v : Word} {bits : Nat → Bool}
    (hexec : exec i s = .next (s.writeResult rd v false)) (hbits : ∀ k, k < 16 → v.getLsbD k = bits k) :
    ∃ t, exec i s = .next t ∧ (∀ k, k < 16 → (t.x rd).getLsbD k = bits k) ∧ FlagsAre (t.x rd = 0) False s t ∧
      RegisterFrame [rd] s t := by
  obtain ⟨hresult, ⟨hz, hov, hreserved⟩, hframe⟩ := s.writeResult_spec rd v false
  refine ⟨_, hexec, ?_, ⟨?_, hov.trans Bool.false_eq_true.to_iff, hreserved⟩, hframe⟩
  · rwa [hresult]
  · rwa [hresult]

/-! ## The obligations -/

/-- Settles O33: both forms give the count `n`, and the result and the lost bits are known for every count. -/
theorem shftShiftsByTheSignedCount : Obligations.ShftShiftsByTheSignedCount := by
  intro rs rd amt s v n r
  have hn : (s.operand rs rd (shiftLiteral amt)).toInt = n := s.operand_shiftLiteral rs rd amt
  refine completes_of_writeResult_nat (exec_shft rs rd s amt) ?_ ?_
  · rw [hn, shiftValue_toNat]
  · rw [hn, shiftLost_iff]

/-- Settles O34: each operation works on the bits of its two words. -/
theorem andOrXorWorkBitByBit : Obligations.AndOrXorWorkBitByBit := by
  intro rs rd idx s b
  have hb : ∀ k, k < 16 → (s.operand rs rd (bitLiteral idx)).getLsbD k = b k :=
    fun _ hk => s.operand_bitLiteral_getLsbD rs rd idx hk
  refine ⟨completes_of_writeResult_bits (exec_bitAnd rs rd s idx) fun k hk => ?_,
    completes_of_writeResult_bits (exec_bitOr rs rd s idx) fun k hk => ?_,
    completes_of_writeResult_bits (exec_bitXor rs rd s idx) fun k hk => ?_⟩
  · rw [BitVec.getLsbD_and, hb k hk]
  · rw [BitVec.getLsbD_or, hb k hk]
  · rw [BitVec.getLsbD_xor, hb k hk, Bool.bne_eq_xor]

/-- Settles O32: no flag is written, as ASGN ends with the register write alone. -/
theorem asgnCopiesItsOperand : Obligations.AsgnCopiesItsOperand := by
  intro rs rd lit s
  refine ⟨_, exec_asgn rs rd s lit, ?_, s.setX_sr rd _, s.setX_registerFrame rd _⟩
  rw [State.setX_x, if_pos rfl, s.operand_literal8]

/-- Settles O35: a word's complement is 65535 less the word, so it is 0 only for 65535. -/
theorem notComplementsItsSource : Obligations.NotComplementsItsSource := by
  intro rs rd s
  have hsource : (s.x rs).toNat < 65536 := (s.x rs).isLt
  have hcomplement : (~~~ s.x rs).toNat = 65535 - (s.x rs).toNat := BitVec.toNat_not
  obtain ⟨t, hexec, hresult, heffect⟩ :=
    completes_of_writeResult (zero := (s.x rs).toNat = 65535) (exec_bitNot rs rd s) (congrArg Nat.cast hcomplement)
      (by omega) Bool.false_eq_true.to_iff
  exact ⟨t, hexec, Int.ofNat_inj.mp hresult, heffect⟩

end Sys2Proof.Machine
end

section
/-! PROOFS. The statement about CBX and NOP (43_control.md R210 to R212). -/

namespace Sys2Proof.Machine

/-! ## Frames of register writes -/

theorem RegisterFrame.refl (written : List Reg) (s : State) : RegisterFrame written s s :=
  ⟨fun _ _ => rfl, rfl, fun _ => rfl, rfl, ⟨rfl, rfl, rfl, rfl, rfl, rfl, rfl⟩⟩

/-- A further write to a register of the list stays within its frame. -/
theorem RegisterFrame.setX {written : List Reg} {s t : State} (hframe : RegisterFrame written s t) (rd : Reg)
    (hrd : rd ∈ written) (v : Word) : RegisterFrame written s (t.setX rd v) := by
  obtain ⟨hregs, hsp, hmem, hports, hrest⟩ := hframe
  refine ⟨fun r hr => ?_, by rwa [State.setX_sp], fun a => ?_, by rwa [State.setX_ports], ?_⟩
  · rw [State.setX_x, if_neg (ne_of_mem_of_not_mem hrd hr).symm, hregs r hr]
  · rw [State.setX_mem, hmem]
  · simpa [RestKept] using hrest

/-! ## The target (R210) -/

/-- The target counts words from the return address, in either direction, modulo 65536. -/
theorem State.branchTarget_toNat (s : State) (off : BitVec 8) :
    ((s.branchTarget off).toNat : Int) = (s.pc.toNat + 2 * off.toInt) % 65536 := by
  have hword : s.branchTarget off = BitVec.ofInt 16 (s.pc.toNat + 2 * off.toInt) := by
    rw [State.branchTarget, BitVec.signExtend, BitVec.ofInt_add, BitVec.ofInt_mul, BitVec.ofInt_natCast,
      BitVec.ofNat_toNat, BitVec.setWidth_eq]
    rfl
  rw [hword, ofInt_toNat]

/-! ## What each instruction does to the state -/

theorem exec_nop (s : State) : exec .nop s = .next s := rfl

section
variable {lnk neg : Bool} {cond : Cond} {off : BitVec 8} {s : State}

theorem exec_cbx_of_not_condHolds (h : ¬ s.condHolds cond neg = true) : exec (.cbx lnk cond neg off) s = .next s :=
  if_neg h

theorem exec_cbx_of_condHolds (h : s.condHolds cond neg = true) :
    exec (.cbx lnk cond neg off) s =
      .next ((if lnk then s.setX .lr s.pc else s).setX .pc (s.branchTarget off)) := if_pos h

/-- Everything a taken branch does (R210): the link is the return address, as `lr` is written before `pc`. -/
theorem exec_cbx_taken_spec (h : s.condHolds cond neg = true) :
    ∃ t, exec (.cbx lnk cond neg off) s = .next t ∧ t.pc = s.branchTarget off ∧
      t.lr = (if lnk then s.pc else s.lr) ∧ t.sr = s.sr ∧ RegisterFrame [.lr, .pc] s t := by
  have hself := RegisterFrame.refl [.lr, .pc] s
  refine ⟨_, exec_cbx_of_condHolds h, rfl, ?_⟩
  cases lnk with
  | false => exact ⟨rfl, rfl, hself.setX .pc (by decide) _⟩
  | true => exact ⟨rfl, rfl, (hself.setX .lr (by decide) s.pc).setX .pc (by decide) _⟩

end

/-! ## The obligation -/

/-- Settles O36: NEG inverts the tested flag, so the branch is taken exactly when the two differ (R211). -/
theorem cbxBranchesOnItsConditionAndNopDoesNothing : Obligations.CbxBranchesOnItsConditionAndNopDoesNothing := by
  refine ⟨fun lnk neg cond off s => ?_, exec_nop⟩
  intro flag
  have hcond : s.condHolds cond neg = true ↔ flag ≠ neg := by
    cases cond <;> exact Bool.xor_iff_ne
  by_cases hflag : flag = neg
  · have huntaken : ¬ s.condHolds cond neg = true := fun h => hcond.mp h hflag
    exact ⟨s, exec_cbx_of_not_condHolds huntaken, fun hne => absurd hflag hne, fun _ => rfl, rfl, .refl _ s⟩
  · obtain ⟨t, hexec, hpc, hlr, hsr, hframe⟩ := exec_cbx_taken_spec (lnk := lnk) (off := off) (hcond.mpr hflag)
    refine ⟨t, hexec, fun _ => ⟨?_, hlr⟩, fun heq => absurd heq hflag, hsr, hframe⟩
    rw [hpc, s.branchTarget_toNat]

end Sys2Proof.Machine
end

section
/-! PROOFS. The statements about LD, ST, PUSH, POP, SPGET and SPSET (44_load_store_stack.md R220 to R227). -/

namespace Sys2Proof.Machine

/-! ## The effective address (R222) -/

/-- The effective address is the base and the signed offset, added modulo 65536. -/
theorem State.effectiveAddress_toNat (s : State) (rb : Reg) (off : BitVec 7) :
    ((s.effectiveAddress rb off).toNat : Int) = ((s.x rb).toNat + off.toInt) % 65536 := by
  have hword : s.effectiveAddress rb off = BitVec.ofInt 16 ((s.x rb).toNat + off.toInt) := by
    rw [State.effectiveAddress, BitVec.signExtend, BitVec.ofInt_add, BitVec.ofInt_natCast, BitVec.ofNat_toNat,
      BitVec.setWidth_eq]
  rw [hword, ofInt_toNat]

/-! ## What each instruction does to the state -/

section
variable {s : State} {rb rt : Reg} {off : BitVec 7}

/-- LD of a word that fits (R220). -/
theorem exec_ld_of_lt (h : (s.effectiveAddress rb off).toNat + 1 < s.memCapacity) :
    exec (.ld rb rt off) s =
      .next (s.setX rt (wordOfBytes (s.mem.read (s.effectiveAddress rb off).toNat)
        (s.mem.read ((s.effectiveAddress rb off).toNat + 1)))) := by
  have hload : s.loadWord (s.effectiveAddress rb off) = some _ := State.readWord_of_lt h
  change execLd rb rt off s = _
  rw [execLd, hload]
  rfl

/-- LD of a word that does not fit (R220). -/
theorem exec_ld_of_le (h : s.memCapacity ≤ (s.effectiveAddress rb off).toNat + 1) :
    exec (.ld rb rt off) s = .next (s.raise .invalidLoad) := by
  have hload : s.loadWord (s.effectiveAddress rb off) = none := State.readWord_of_le h
  change execLd rb rt off s = _
  rw [execLd, hload]

/-- ST of a word that does not fit (R221); `exec_st_of_lt` is the other case. -/
theorem exec_st_of_le (h : s.memCapacity ≤ (s.effectiveAddress rb off).toNat + 1) :
    exec (.st rb rt off) s = .next (s.raise .invalidStore) := by
  have hstore : s.storeWord (s.effectiveAddress rb off) (s.x rt) = none := State.writeWord_of_le (s.x rt) h
  change execSt rb rt off s = _
  rw [execSt, hstore]

end

theorem exec_spget (r : Reg) (s : State) : exec (.spget r) s = .next (s.setX r s.sp) := rfl

theorem exec_spset (r : Reg) (s : State) : exec (.spset r) s = .next (s.setSp (s.x r)) := rfl

theorem exec_push (mask : BitVec 4) (s : State) : exec (.push mask) s = .next (pushRegs (maskRegs mask) s) := rfl

theorem exec_pop (mask : BitVec 4) (s : State) : exec (.pop mask) s = .next (popRegs (maskRegs mask).reverse s) := rfl

/-- A fault after an effect keeps what the effect kept, but for `fault` (60_exceptions.md R302). -/
theorem RestKept.raise {s t : State} (h : RestKept s t) (c : FaultCode) :
    RestKept s { t.raise c with fault := s.fault } := by
  obtain ⟨hir, _, hrest⟩ := h
  exact ⟨hir, rfl, hrest⟩

theorem RegsKept.raise {written : List Reg} {s t : State} (h : RegsKept written s t) (c : FaultCode) :
    RegsKept written s (t.raise c) := by
  intro r hr
  rw [State.raise_x, h r hr]

/-! ## The registers of a mask (R223) -/

theorem maskRegs_length_le_eight (mask : BitVec 4) : (maskRegs mask).length ≤ 8 :=
  (maskRegs_length mask).trans (by decide)

theorem maskRegs_reverse_nodup (mask : BitVec 4) : (maskRegs mask).reverse.Nodup :=
  List.nodup_reverse.mpr (maskRegs_nodup mask)

/-! ## Where the loops of PUSH and POP stop (R224, R225) -/

/-- At most one word is the first that does not fit. -/
theorem firstMisfit_unique {slot : Nat → Word} {capacity m n : Nat}
    (hmfit : ∀ k, k < m → (slot k).toNat + 1 < capacity) (hmstop : capacity ≤ (slot m).toNat + 1)
    (hnfit : ∀ k, k < n → (slot k).toNat + 1 < capacity) (hnstop : capacity ≤ (slot n).toNat + 1) : m = n := by
  rcases Nat.lt_trichotomy m n with hlt | heq | hgt
  · exact absurd (hnfit m hlt) (Nat.not_lt.mpr hmstop)
  · exact heq
  · exact absurd (hmfit n hgt) (Nat.not_lt.mpr hnstop)

section
variable {mask : BitVec 4} {s : State} {n : Nat}

/-- PUSH of words that all fit. -/
theorem exec_push_of_fit (hfit : ∀ k, k < (maskRegs mask).length → (pushSlot s.sp k).toNat + 1 < s.memCapacity) :
    exec (.push mask) s = .next (pushedAll (maskRegs mask) s) := by
  rw [exec_push]
  rcases pushRegs_spec (maskRegs mask) s with ⟨_, heq⟩ | ⟨m, hm, _, hstop, _⟩
  · rw [heq]
  · exact absurd (hfit m hm) (Nat.not_lt.mpr hstop)

/-- PUSH of words of which one does not fit. -/
theorem exec_push_of_misfit (hn : n < (maskRegs mask).length)
    (hfit : ∀ k, k < n → (pushSlot s.sp k).toNat + 1 < s.memCapacity)
    (hstop : s.memCapacity ≤ (pushSlot s.sp n).toNat + 1) :
    exec (.push mask) s = .next ((pushedAll ((maskRegs mask).take n) s).raise .invalidStore) := by
  rw [exec_push]
  rcases pushRegs_spec (maskRegs mask) s with ⟨hall, _⟩ | ⟨m, _, hmfit, hmstop, heq⟩
  · exact absurd (hall n hn) (Nat.not_lt.mpr hstop)
  · rw [heq, firstMisfit_unique hmfit hmstop hfit hstop]

/-- POP of words that all fit. -/
theorem exec_pop_of_fit
    (hfit : ∀ k, k < (maskRegs mask).reverse.length → (popSlot s.sp k).toNat + 1 < s.memCapacity) :
    exec (.pop mask) s = .next (poppedAll (maskRegs mask).reverse s) := by
  rw [exec_pop]
  rcases popRegs_spec (maskRegs mask).reverse s with ⟨_, heq⟩ | ⟨m, hm, _, hstop, _⟩
  · rw [heq]
  · exact absurd (hfit m hm) (Nat.not_lt.mpr hstop)

/-- POP of words of which one does not fit. -/
theorem exec_pop_of_misfit (hn : n < (maskRegs mask).reverse.length)
    (hfit : ∀ k, k < n → (popSlot s.sp k).toNat + 1 < s.memCapacity)
    (hstop : s.memCapacity ≤ (popSlot s.sp n).toNat + 1) :
    exec (.pop mask) s = .next ((poppedAll ((maskRegs mask).reverse.take n) s).raise .invalidLoad) := by
  rw [exec_pop]
  rcases popRegs_spec (maskRegs mask).reverse s with ⟨hall, _⟩ | ⟨m, _, hmfit, hmstop, heq⟩
  · exact absurd (hall n hn) (Nat.not_lt.mpr hstop)
  · rw [heq, firstMisfit_unique hmfit hmstop hfit hstop]

end

/-! ## What the pushed words are, and what a push leaves (R225) -/

section
variable (regs : List Reg) (s : State)

@[simp] theorem pushedAll_sp : (pushedAll regs s).sp = s.sp - 2#16 * BitVec.ofNat 16 regs.length := by
  rw [pushedAll_frame]

@[simp] theorem pushedAll_memCapacity : (pushedAll regs s).memCapacity = s.memCapacity := by rw [pushedAll_frame]

/-- The two bytes of each pushed word as numbers. -/
theorem pushedAll_slot_toNat {k : Nat} {r : Reg} (hlen : regs.length ≤ 8) (hr : regs[k]? = some r) :
    ((pushedAll regs s).mem.read (pushSlot s.sp k).toNat).toNat = (s.x r).toNat % 256 ∧
    ((pushedAll regs s).mem.read ((pushSlot s.sp k).toNat + 1)).toNat = (s.x r).toNat / 256 := by
  obtain ⟨hlow, hhigh⟩ := pushedAll_read_slot regs s k r hlen hr
  rw [hlow, hhigh]
  exact ⟨lowByte_toNat _, highByte_toNat _⟩

theorem pushedAll_regsKept : RegsKept [] s (pushedAll regs s) := fun r _ => pushedAll_x regs s r

theorem pushedAll_kept :
    (pushedAll regs s).sr = s.sr ∧ (pushedAll regs s).ports = s.ports ∧ RestKept s (pushedAll regs s) := by
  rw [pushedAll_frame]
  exact ⟨rfl, rfl, rfl, rfl, rfl, rfl, rfl, rfl, rfl⟩

/-! ## What the popped registers hold, and what a pop leaves (R224) -/

@[simp] theorem poppedAll_sp : (poppedAll regs s).sp = s.sp + 2#16 * BitVec.ofNat 16 regs.length := by
  rw [poppedAll_frame]

/-- Each popped register as a number. -/
theorem poppedAll_x_toNat {k : Nat} {r : Reg} (hnodup : regs.Nodup) (hr : regs[k]? = some r) :
    ((poppedAll regs s).x r).toNat = (s.mem.read (popSlot s.sp k).toNat).toNat +
      256 * (s.mem.read ((popSlot s.sp k).toNat + 1)).toNat := by
  rw [poppedAll_x_slot regs s k r hnodup hr, wordOfBytes_toNat]

theorem poppedAll_regsKept : RegsKept regs s (poppedAll regs s) := poppedAll_x_other regs s

theorem poppedAll_kept :
    (poppedAll regs s).sr = s.sr ∧ MemKept s (poppedAll regs s) ∧ (poppedAll regs s).ports = s.ports ∧
      RestKept s (poppedAll regs s) := by
  rw [poppedAll_frame]
  exact ⟨rfl, fun _ => rfl, rfl, rfl, rfl, rfl, rfl, rfl, rfl, rfl⟩

end

/-! ## A pop of the words of a push -/

/-- Popping a pushed list from its end gives every register its word back, and `sp` too, in any state that has the
memory and the `sp` the push left. -/
theorem poppedAll_reverse_pushedAll {regs : List Reg} {s u : State} (hnodup : regs.Nodup) (hlen : regs.length ≤ 8)
    (hmem : u.mem = (pushedAll regs s).mem) (hsp : u.sp = (pushedAll regs s).sp) :
    (poppedAll regs.reverse u).sp = s.sp ∧ ∀ r ∈ regs, (poppedAll regs.reverse u).x r = s.x r := by
  rw [pushedAll_sp] at hsp
  constructor
  · rw [poppedAll_sp, hsp, List.length_reverse, BitVec.sub_add_cancel]
  · intro r hr
    obtain ⟨k, hk⟩ := List.mem_iff_getElem?.mp hr
    obtain ⟨hklt, _⟩ := List.getElem?_eq_some_iff.mp hk
    have hback : regs.length - 1 - (regs.length - 1 - k) = k := by omega
    have hpop : regs.reverse[regs.length - 1 - k]? = some r := by
      rw [List.getElem?_reverse (by omega), hback, hk]
    have hslot : popSlot u.sp (regs.length - 1 - k) = pushSlot s.sp k := by
      rw [hsp, popSlot_pushed _ _ _ (by omega), hback]
    obtain ⟨hlow, hhigh⟩ := pushedAll_read_slot regs s k r hlen hk
    rw [poppedAll_x_slot _ u _ r (List.nodup_reverse.mpr hnodup) hpop, hslot, hmem, hlow, hhigh, wordOfBytes_bytes]

/-! ## The obligations -/

/-- Settles O37: the word loaded has the byte at the lower address in its low half. -/
theorem ldLoadsTheWordAtItsAddress : Obligations.LdLoadsTheWordAtItsAddress := by
  intro rb rt off s ea
  refine ⟨fun hfit => ⟨_, exec_ld_of_lt hfit, ?_, s.setX_sr rt _, s.setX_registerFrame rt _⟩, exec_ld_of_le⟩
  rw [State.setX_x, if_pos rfl, wordOfBytes_toNat]

/-- Settles O38: of the two bytes of the word one is at each address, and a byte outside them is at neither. -/
theorem stStoresTheWordAtItsAddress : Obligations.StStoresTheWordAtItsAddress := by
  intro rb rt off s ea
  refine ⟨fun hfit => ⟨_, exec_st_of_lt rt hfit, ?low, ?high, fun b hb => ?outside,
    regsKept_of_eq [] rfl rfl rfl rfl, rfl, rfl, rfl, rfl, rfl, rfl, rfl, rfl, rfl, rfl⟩, exec_st_of_le⟩
  case low => rw [read_storedWord_low, lowByte_toNat]
  case high => rw [read_storedWord_high, highByte_toNat]
  case outside => exact read_storedWord_of_ne s.mem (s.x rt) (by omega) (by omega)

/-- Settles O40: the mask's registers are at most four, so no two of their words overlap. -/
theorem pushStoresTheListedRegisters : Obligations.PushStoresTheListedRegisters := by
  intro mask s regs slot hfit
  exact ⟨_, exec_push_of_fit hfit, pushedAll_sp regs s,
    fun k r hr => pushedAll_slot_toNat regs s (maskRegs_length_le_eight mask) hr, pushedAll_read_other regs s,
    pushedAll_regsKept regs s, pushedAll_kept regs s⟩

/-- Settles O41: the words before the one that does not fit are those of the list's first `n` registers. -/
theorem pushStopsAtTheFirstWordThatDoesNotFit : Obligations.PushStopsAtTheFirstWordThatDoesNotFit := by
  intro mask s n regs slot hn hfit hstop
  have hlength : (regs.take n).length = n := List.length_take_of_le hn.le
  have hlen : (regs.take n).length ≤ 8 := hlength.trans_le (hn.le.trans (maskRegs_length_le_eight mask))
  obtain ⟨hsr, hports, hrest⟩ := pushedAll_kept (regs.take n) s
  refine ⟨_, exec_push_of_misfit hn hfit hstop, rfl, ?sp, fun k r hk hr => ?slots, fun a ha => ?others,
    (pushedAll_regsKept (regs.take n) s).raise .invalidStore, hsr, hports, hrest.raise .invalidStore⟩
  case sp => rw [State.raise_sp, pushedAll_sp, hlength]
  case slots => exact pushedAll_slot_toNat _ s hlen ((List.getElem?_take_of_lt hk).trans hr)
  case others => exact pushedAll_read_other _ s a fun k hk => ha k (hlength ▸ hk)

/-- Settles O42: no register is in the list twice, so each keeps the word popped into it. -/
theorem popLoadsTheListedRegisters : Obligations.PopLoadsTheListedRegisters := by
  intro mask s regs slot hfit
  exact ⟨_, exec_pop_of_fit hfit, poppedAll_sp regs s,
    fun k r hr => poppedAll_x_toNat regs s (maskRegs_reverse_nodup mask) hr,
    poppedAll_regsKept regs s, poppedAll_kept regs s⟩

/-- Settles O43: the words before the one that does not fit are those of the list's first `n` registers. -/
theorem popStopsAtTheFirstWordThatDoesNotFit : Obligations.PopStopsAtTheFirstWordThatDoesNotFit := by
  intro mask s n regs slot hn hfit hstop
  have hnodup : (regs.take n).Nodup := (maskRegs_reverse_nodup mask).sublist (List.take_sublist n regs)
  obtain ⟨hsr, hmem, hports, hrest⟩ := poppedAll_kept (regs.take n) s
  refine ⟨_, exec_pop_of_misfit hn hfit hstop, rfl, ?sp, fun k r hk hr => ?slots,
    (poppedAll_regsKept (regs.take n) s).raise .invalidLoad, hsr, hmem, hports, hrest.raise .invalidLoad⟩
  case sp => rw [State.raise_sp, poppedAll_sp, List.length_take_of_le hn.le]
  case slots =>
    rw [State.raise_x]
    exact poppedAll_x_toNat _ s hnodup ((List.getElem?_take_of_lt hk).trans hr)

/-- Settles O44: the words popped are the words pushed, so they fit as those did. -/
theorem popAfterPushRestoresTheRegisters : Obligations.PopAfterPushRestoresTheRegisters := by
  intro mask s t u hfit hpush hmem hsp hcap
  obtain rfl : pushedAll (maskRegs mask) s = t := Host.Outcome.next.inj ((exec_push_of_fit hfit).symm.trans hpush)
  have hpopFit : ∀ k, k < (maskRegs mask).reverse.length → (popSlot u.sp k).toNat + 1 < u.memCapacity := by
    intro k hk
    rw [List.length_reverse] at hk
    rw [hsp, hcap, pushedAll_sp, pushedAll_memCapacity, popSlot_pushed s.sp _ k hk]
    exact hfit _ (by omega)
  obtain ⟨hspBack, hregsBack⟩ :=
    poppedAll_reverse_pushedAll (maskRegs_nodup mask) (maskRegs_length_le_eight mask) hmem hsp
  obtain ⟨_, _, _, _, hfault, _⟩ := poppedAll_kept (maskRegs mask).reverse u
  exact ⟨_, exec_pop_of_fit hpopFit, hspBack, hregsBack, hfault⟩

/-- Settles O26: both sums are those of the 16-bit words of their terms. -/
theorem addressesWrapModulo65536 : Obligations.AddressesWrapModulo65536 :=
  fun s rb off7 off8 => ⟨s.effectiveAddress_toNat rb off7, s.branchTarget_toNat off8⟩

/-- Settles O45: each instruction is one write, and what a write changes is known. -/
theorem spgetAndSpsetCopyTheStackPointer : Obligations.SpgetAndSpsetCopyTheStackPointer := by
  intro r s
  constructor
  · refine ⟨_, exec_spget r s, ?_, s.setX_sr r s.sp, s.setX_registerFrame r s.sp⟩
    rw [State.setX_x, if_pos rfl]
  · exact ⟨_, exec_spset r s, rfl, fun q _ => s.setSp_x (s.x r) q, rfl, fun _ => rfl, rfl,
      rfl, rfl, rfl, rfl, rfl, rfl, rfl⟩

end Sys2Proof.Machine
end

section
/-! PROOFS. The statements about the operations and queries of a port (45_device_port.md R241 to R256, R261). Each check
of an operation has an equation per row of its table, and each state of the state machine its conditions; the calls of a
device are operations with a budget. -/

namespace Sys2Proof.Machine

/-! ## The checks, row by row, and what the operations make of them (R247, R250, R251, R253) -/

section Checks
variable {p : Port} {side : Side}

theorem Port.readCheck_of_unconnected (hdev : p.dev = none) : p.readCheck side = some .notConnected := by
  simp [Port.readCheck, Port.isConnected, hdev]

theorem Port.readCheck_of_busy (hdev : p.dev ≠ none) (hbusy : p.busy = true) : p.readCheck side = some .busy := by
  simp [Port.readCheck, Port.isConnected, hdev, hbusy]

theorem Port.readCheck_of_owner_ne (hdev : p.dev ≠ none) (hbusy : p.busy = false) (howner : p.owner ≠ some side.other) :
    p.readCheck side = some .notReadable := by
  simp [Port.readCheck, Port.isConnected, hdev, hbusy, howner]

theorem Port.readCheck_of_exhausted (hdev : p.dev ≠ none) (hbusy : p.busy = false) (howner : p.owner = some side.other)
    (hexh : p.exhausted = true) : p.readCheck side = some .exhausted := by
  simp [Port.readCheck, Port.isConnected, hdev, hbusy, howner, hexh]

theorem Port.readCheck_of_read_to_end (hdev : p.dev ≠ none) (hbusy : p.busy = false)
    (howner : p.owner = some side.other) (hexh : p.exhausted = false) (hend : p.rpos = p.data.length) :
    p.readCheck side = some .notReadable := by
  simp [Port.readCheck, Port.isConnected, hdev, hbusy, howner, hexh, hend]

theorem Port.writeCheck_of_unconnected (hdev : p.dev = none) : p.writeCheck side = some .notConnected := by
  simp [Port.writeCheck, Port.isConnected, hdev]

theorem Port.writeCheck_of_busy (hdev : p.dev ≠ none) (hbusy : p.busy = true) : p.writeCheck side = some .busy := by
  simp [Port.writeCheck, Port.isConnected, hdev, hbusy]

theorem Port.writeCheck_of_owner_other (hdev : p.dev ≠ none) (hbusy : p.busy = false)
    (howner : p.owner = some side.other) : p.writeCheck side = some .notOwned := by
  simp [Port.writeCheck, Port.isConnected, hdev, hbusy, howner]

theorem Port.writeCheck_of_exhausted (hdev : p.dev ≠ none) (hbusy : p.busy = false) (howner : p.owner = some side)
    (hexh : p.exhausted = true) : p.writeCheck side = some .exhausted := by
  simp [Port.writeCheck, Port.isConnected, hdev, hbusy, howner, hexh, side.other_ne.symm]

theorem Port.relinquish_of_unconnected (hdev : p.dev = none) : p.relinquish side = .error .notConnected := by
  simp [Port.relinquish, Port.isConnected, hdev]

theorem Port.relinquish_of_owner_ne (hdev : p.dev ≠ none) (howner : p.owner ≠ some side) :
    p.relinquish side = .error .notOwned := by
  simp [Port.relinquish, Port.isConnected, hdev, howner]

theorem Port.relinquish_of_busy (hdev : p.dev ≠ none) (howner : p.owner = some side) (hbusy : p.busy = true) :
    p.relinquish side = .error .busy := by
  simp [Port.relinquish, Port.isConnected, hdev, howner, hbusy]

theorem Port.relinquish_of_not_exhausted (hdev : p.dev ≠ none) (howner : p.owner = some side) (hbusy : p.busy = false)
    (hexh : p.exhausted = false) : p.relinquish side = .error .notExhausted := by
  simp [Port.relinquish, Port.isConnected, hdev, howner, hbusy, hexh]

theorem Port.relinquish_of_exhausted (hdev : p.dev ≠ none) (howner : p.owner = some side) (hbusy : p.busy = false)
    (hexh : p.exhausted = true) :
    p.relinquish side =
      .ok { p with owner := some side.other, busy := false, exhausted := false, data := [], rpos := 0 } := by
  simp [Port.relinquish, Port.isConnected, hdev, howner, hbusy, hexh]

theorem Port.read_of_check_none (hcheck : p.readCheck side = none) (n : Nat) :
    p.read side n = .ok (p.take (p.readCount n)) := by
  simp [Port.read, hcheck]

/-- Whether a read fails, and with what reason, does not depend on how many bytes are asked for. -/
theorem Port.read_eq_error_iff {n : Nat} {reason : PortFail} :
    p.read side n = .error reason ↔ p.readCheck side = some reason := by
  cases hcheck : p.readCheck side <;> simp [Port.read, hcheck]

theorem Port.write_of_check_none (hcheck : p.writeCheck side = none) (bytes : List Byte) :
    p.write side bytes = .ok (p.place side (bytes.take (p.writeCount bytes.length)), p.writeCount bytes.length) := by
  simp [Port.write, hcheck]

/-- Whether a write fails, and with what reason, does not depend on the bytes given. -/
theorem Port.write_eq_error_iff {bytes : List Byte} {reason : PortFail} :
    p.write side bytes = .error reason ↔ p.writeCheck side = some reason := by
  cases hcheck : p.writeCheck side <;> simp [Port.write, hcheck]

end Checks

/-! ## The queries (R244 to R246) -/

/-- Where the five invariants hold, bytes are left to read exactly when the mailbox is not exhausted and not read to its
end (10_state.md R50). -/
theorem Port.Sound.unread_iff {p : Port} (hsound : p.Sound) :
    p.exhausted = false ∧ p.rpos ≠ p.data.length ↔ p.rpos < p.data.length := by
  obtain ⟨_, _, _, hexhausted, hrpos, _⟩ := hsound
  constructor
  · rintro ⟨_, hne⟩
    omega
  · intro hlt
    refine ⟨Bool.eq_false_iff.mpr fun hexh => ?_, hlt.ne⟩
    exact hlt.ne (hexhausted hexh).1

theorem Port.isReadableAndNotBusy_iff (p : Port) (side : Side) :
    p.isReadableAndNotBusy side = true ↔
      p.dev ≠ none ∧ p.busy = false ∧ p.owner = some side.other ∧ p.rpos < p.data.length := by
  simp [Port.isReadableAndNotBusy, Port.isConnected, and_assoc]

theorem Port.isWriteableAndNotBusy_iff (p : Port) (side : Side) :
    p.isWriteableAndNotBusy side = true ↔
      p.dev ≠ none ∧ p.busy = false ∧ (p.owner = none ∨ (p.owner = some side ∧ p.exhausted = false)) := by
  simp [Port.isWriteableAndNotBusy, Port.isConnected, and_assoc]

section Usable
variable {p : Port} {side : Side}

theorem Port.usableByteCount_of_unusable (h : p.dev = none ∨ p.busy = true) : p.usableByteCount side = 0 := by
  simp [Port.usableByteCount, Port.isConnected, h]

theorem Port.usableByteCount_of_unowned (h : ¬ (p.dev = none ∨ p.busy = true)) (howner : p.owner = none) :
    p.usableByteCount side = p.capacity := by
  simp [Port.usableByteCount, Port.isConnected, h, howner]

theorem Port.usableByteCount_of_owner (h : ¬ (p.dev = none ∨ p.busy = true)) (howner : p.owner = some side) :
    p.usableByteCount side = if p.exhausted = true then 0 else p.capacity - p.data.length := by
  simp [Port.usableByteCount, Port.isConnected, h, howner]

theorem Port.usableByteCount_of_owner_other (h : ¬ (p.dev = none ∨ p.busy = true)) (howner : p.owner = some side.other) :
    p.usableByteCount side = p.data.length - p.rpos := by
  simp [Port.usableByteCount, Port.isConnected, h, howner, side.other_ne]

end Usable

/-! ## The effects (R250 to R252) -/

/-- What a read makes of a mailbox that is not exhausted and holds a byte. -/
theorem Port.take_eq {p : Port} (hexh : p.exhausted = false) (hdata : 0 < p.data.length) (c : Nat) :
    p.take c = ({ p with rpos := p.rpos + c, exhausted := decide (p.rpos + c = p.data.length) },
      (p.data.drop p.rpos).take c) := by
  simp [Port.take, hexh, hdata]

/-- What a write of `c` of the given bytes makes of the port. -/
theorem Port.place_take (p : Port) (side : Side) {bytes : List Byte} {c : Nat} (hc : c ≤ bytes.length) :
    p.place side (bytes.take c) =
      if c = 0 then p else { p with data := p.data ++ bytes.take c, owner := some side, busy := true } := by
  have hempty : bytes.take c = [] ↔ c = 0 := by
    rw [← List.length_eq_zero_iff, List.length_take_of_le hc]
  simp only [Port.place, hempty]

/-! ## The states of the state machine (R254) -/

/-- The rows of the table of states. -/
def PortPhase.Row (p : Port) : PortPhase → Prop
  | .neutral => p.owner = none ∧ p.busy = false ∧ p.exhausted = false ∧ p.data = [] ∧ p.rpos = 0
  | .filled side => p.owner = some side ∧ p.busy = true ∧ p.exhausted = false ∧ p.rpos < p.data.length
  | .ready side => p.owner = some side ∧ p.busy = false ∧ p.exhausted = false ∧ p.rpos < p.data.length
  | .drained side =>
    p.owner = some side ∧ p.busy = false ∧ p.exhausted = true ∧ p.rpos = p.data.length ∧ 0 < p.data.length
  | .empty side => p.owner = some side ∧ p.busy = false ∧ p.exhausted = false ∧ p.data = [] ∧ p.rpos = 0

/-- No port is in two rows, so the order in which `Port.phase` tries them does not matter. -/
theorem Port.phase_eq_some_iff (p : Port) (phase : PortPhase) : p.phase = some phase ↔ phase.Row p := by
  simp only [Port.phase]
  split
  · next howner => cases phase <;> simp [PortPhase.Row, howner]
  · next owner howner =>
    have hempty : p.rpos < p.data.length → p.data ≠ [] := fun hlt => List.ne_nil_of_length_pos (by omega)
    split_ifs <;> cases phase <;> simp_all [PortPhase.Row]

theorem PortPhase.Row.rpos_le {p : Port} {phase : PortPhase} (hrow : phase.Row p) : p.rpos ≤ p.data.length := by
  cases phase <;> simp only [PortPhase.Row] at hrow <;> omega

/-- A mailbox of the table is exhausted only when it is drained. -/
theorem PortPhase.Row.drained_of_exhausted {p : Port} {phase : PortPhase} (hrow : phase.Row p)
    (hexh : p.exhausted = true) : p.rpos = p.data.length ∧ 0 < p.data.length := by
  cases phase with
  | drained side =>
    obtain ⟨_, _, _, hdrained⟩ := hrow
    exact hdrained
  | neutral | filled side | ready side | empty side => simp [PortPhase.Row, hexh] at hrow

/-- A side may write to a neutral port and to its own empty or ready mailbox. -/
theorem PortPhase.Row.of_writeCheck {p : Port} {side : Side} {phase : PortPhase} (hrow : phase.Row p)
    (hcheck : p.writeCheck side = none) :
    (phase = .neutral ∨ phase = .empty side ∨ phase = .ready side) ∧ p.exhausted = false := by
  obtain ⟨_, hbusy, howner⟩ := (Port.writeCheck_eq_none p side).mp hcheck
  cases phase <;> simp_all [PortPhase.Row]

/-- A read takes from a ready mailbox of the other side. -/
theorem PortPhase.Row.ready_of_readCheck {p : Port} {side : Side} {phase : PortPhase} (hrow : phase.Row p)
    (hcheck : p.readCheck side = none) : (PortPhase.ready side.other).Row p := by
  obtain ⟨_, hbusy, howner, hexh, hne⟩ := (Port.readCheck_eq_none p side).mp hcheck
  exact ⟨howner, hbusy, hexh, lt_of_le_of_ne hrow.rpos_le hne⟩

/-- A write of some byte fills the mailbox. -/
theorem Port.place_filled {p : Port} {side : Side} {bytes : List Byte} (hbytes : bytes ≠ [])
    (hexh : p.exhausted = false) (hrpos : p.rpos ≤ p.data.length) :
    (PortPhase.filled side).Row (p.place side bytes) := by
  have := List.length_pos_of_ne_nil hbytes
  simp only [Port.place, if_neg hbytes]
  refine ⟨rfl, rfl, hexh, ?_⟩
  simp only [List.length_append]
  omega

/-- A read leaves a ready mailbox ready while a byte is left, and drains it with the last one. -/
theorem Port.take_row {p : Port} {side : Side} (hrow : (PortPhase.ready side).Row p) (n : Nat) :
    (if n < p.data.length - p.rpos then PortPhase.ready side else .drained side).Row (p.take (p.readCount n)).1 := by
  obtain ⟨howner, hbusy, hexh, hlt⟩ := hrow
  rw [Port.take_eq hexh (by omega), Port.readCount]
  split_ifs with hn
  · refine ⟨howner, hbusy, ?_, ?_⟩ <;> simp <;> omega
  · refine ⟨howner, hbusy, ?_, ?_, ?_⟩ <;> simp <;> omega

/-! ## A device's calls (R259 to R262) -/

section DeviceCalls
variable {p : Port} {budget : Nat}

theorem Port.deviceCall_read (hcheck : p.readCheck .device = none) (n : Nat) :
    p.deviceCall budget (.read n) =
      ((p.take (p.readCount (min n budget))).1, budget - p.readCount (min n budget),
        .got (p.take (p.readCount (min n budget))).2) := by
  have hlength : (p.take (p.readCount (min n budget))).2.length = p.readCount (min n budget) := by
    rw [Port.take_bytes_length, Port.readCount]
    omega
  simp only [Port.deviceCall, Port.read_of_check_none hcheck, hlength]

theorem Port.deviceCall_read_failed {reason : PortFail} (hcheck : p.readCheck .device = some reason) (n : Nat) :
    p.deviceCall budget (.read n) = (p, budget, .failed reason) := by
  simp only [Port.deviceCall, Port.read_eq_error_iff.mpr hcheck]

/-- The budget cuts the bytes before the mailbox does, and what is placed is the same as with the cuts in one. -/
theorem Port.deviceCall_write (hcheck : p.writeCheck .device = none) (bytes : List Byte) :
    p.deviceCall budget (.write bytes) =
      (p.place .device (bytes.take (p.writeCount (min budget bytes.length))),
        budget - p.writeCount (min budget bytes.length), .wrote (p.writeCount (min budget bytes.length))) := by
  have hcut : min (p.writeCount (min budget bytes.length)) budget = p.writeCount (min budget bytes.length) := by
    rw [Port.writeCount]
    omega
  simp only [Port.deviceCall, Port.write_of_check_none hcheck, List.length_take, List.take_take, hcut]

theorem Port.deviceCall_write_failed {reason : PortFail} (hcheck : p.writeCheck .device = some reason)
    (bytes : List Byte) : p.deviceCall budget (.write bytes) = (p, budget, .failed reason) := by
  simp only [Port.deviceCall, Port.write_eq_error_iff.mpr hcheck]

theorem Port.deviceCall_relinquish {q : Port} (hok : p.relinquish .device = .ok q) :
    p.deviceCall budget .relinquish = (q, budget, .done) := by
  simp only [Port.deviceCall, hok]

theorem Port.deviceCall_relinquish_failed {reason : PortFail} (herror : p.relinquish .device = .error reason) :
    p.deviceCall budget .relinquish = (p, budget, .failed reason) := by
  simp only [Port.deviceCall, herror]

end DeviceCalls

/-- A call lowers the budget by the bytes it moves (R261). -/
theorem Port.deviceCall_budget (p : Port) (budget : Nat) (call : DeviceCall) :
    (p.deviceCall budget call).2.1 + (p.deviceCall budget call).2.2.moved = budget := by
  cases call with
  | read n =>
    cases hcheck : p.readCheck .device with
    | none =>
      rw [Port.deviceCall_read hcheck]
      simp only [CallResult.moved, Port.take_bytes_length, Port.readCount]
      omega
    | some reason => rw [Port.deviceCall_read_failed hcheck]; rfl
  | write bytes =>
    cases hcheck : p.writeCheck .device with
    | none =>
      rw [Port.deviceCall_write hcheck]
      simp only [CallResult.moved, Port.writeCount]
      omega
    | some reason => rw [Port.deviceCall_write_failed hcheck]; rfl
  | relinquish =>
    cases hresult : p.relinquish .device with
    | ok q => rw [Port.deviceCall_relinquish hresult]; rfl
    | error reason => rw [Port.deviceCall_relinquish_failed hresult]; rfl
  | _ => rfl

/-- The calls of one poll move at most its budget (R261). -/
theorem Port.deviceCalls_moved_le (p : Port) (budget : Nat) (calls : List DeviceCall) :
    ((p.deviceCalls budget calls).2.map CallResult.moved).sum ≤ budget := by
  induction calls generalizing p budget with
  | nil => exact Nat.zero_le _
  | cons call rest ih =>
    have hcall := p.deviceCall_budget budget call
    have hrest := ih (p.deviceCall budget call).1 (p.deviceCall budget call).2.1
    calc
      _ = (p.deviceCall budget call).2.2.moved + _ := List.sum_cons
      _ ≤ (p.deviceCall budget call).2.2.moved + (p.deviceCall budget call).2.1 := Nat.add_le_add_left hrest _
      _ = budget := by rw [Nat.add_comm, hcall]

/-! ## The obligations -/

/-- Settles O46: the checks and the queries differ only in how they say that bytes are left to read, which the five
invariants make the same. -/
theorem checksPassExactlyWhenTheQueriesHold : Obligations.ChecksPassExactlyWhenTheQueriesHold := by
  intro p side hsound
  refine ⟨?_, p.isReadableAndNotBusy_iff side, p.writeCheck_eq_none side, p.isWriteableAndNotBusy_iff side⟩
  rw [Port.readCheck_eq_none, hsound.unread_iff]

/-- Settles O47: the answers are those of the checks, and what a success does is what `take` and `place` do. -/
theorem readConsumesAndWriteAppends : Obligations.ReadConsumesAndWriteAppends := by
  refine ⟨fun p side n => ?_, fun p side n q bytes hsound hread => ?_, fun p side bytes => ?_,
    fun p side bytes q c hwrite => ?_, fun p side => ?_⟩
  · simp only [Port.read_eq_error_iff]
    refine ⟨Port.readCheck_of_unconnected, Port.readCheck_of_busy, Port.readCheck_of_owner_ne,
      fun hdev hbusy howner => ⟨Port.readCheck_of_exhausted hdev hbusy howner,
        Port.readCheck_of_read_to_end hdev hbusy howner, fun hexh hne => ?_⟩⟩
    exact ⟨_, _, Port.read_of_check_none ((p.readCheck_eq_none side).mpr ⟨hdev, hbusy, howner, hexh, hne⟩) n⟩
  · obtain ⟨hcheck, htake⟩ := Port.read_spec hread
    obtain ⟨_, _, _, hexh, hne⟩ := (p.readCheck_eq_none side).mp hcheck
    have hlt := hsound.unread_iff.mp ⟨hexh, hne⟩
    rw [Port.take_eq hexh (by omega), Prod.mk.injEq] at htake
    obtain ⟨rfl, rfl⟩ := htake
    refine ⟨?_, rfl, decide_eq_true_iff⟩
    rw [Port.readCount, ← List.length_drop]
    exact List.take_eq_take_min.symm
  · simp only [Port.write_eq_error_iff]
    refine ⟨Port.writeCheck_of_unconnected, Port.writeCheck_of_busy, fun hdev hbusy =>
      ⟨Port.writeCheck_of_owner_other hdev hbusy, Port.writeCheck_of_exhausted hdev hbusy, fun howner => ?_⟩⟩
    exact ⟨_, _, Port.write_of_check_none ((p.writeCheck_eq_none side).mpr ⟨hdev, hbusy, howner⟩) bytes⟩
  · obtain ⟨_, hcount, hplace⟩ := Port.write_spec hwrite
    rw [Port.place_take p side (hcount ▸ Nat.min_le_left _ _)] at hplace
    exact ⟨hcount, fun hzero => by rw [hplace, if_pos hzero], fun hpos => by rw [hplace, if_neg hpos.ne']⟩
  · exact ⟨Port.relinquish_of_unconnected, Port.relinquish_of_owner_ne, fun hdev howner =>
      ⟨Port.relinquish_of_busy hdev howner, Port.relinquish_of_not_exhausted hdev howner,
        Port.relinquish_of_exhausted hdev howner⟩⟩

/-- Settles O48: each operation's check names the row it starts from, and its effect the row it ends in. -/
theorem portStateMachineTransitions : Obligations.PortStateMachineTransitions := by
  intro p side phase hphase _
  have hrow := (p.phase_eq_some_iff phase).mp hphase
  refine ⟨fun bytes q c hwrite hpos => ?_, fun hfilled => ?_, fun n q bytes hread => ?_, fun q hrelinquish => ?_⟩
  · obtain ⟨hcheck, rfl, rfl⟩ := Port.write_spec hwrite
    obtain ⟨hstart, hexh⟩ := hrow.of_writeCheck hcheck
    refine ⟨hstart, (Port.phase_eq_some_iff _ _).mpr (Port.place_filled (fun hempty => ?_) hexh hrow.rpos_le)⟩
    have hlength := congrArg List.length hempty
    simp only [List.length_take, List.length_nil, Port.writeCount] at hlength hpos
    omega
  · subst hfilled
    obtain ⟨howner, _, hexh, hlt⟩ := hrow
    exact (Port.phase_eq_some_iff _ (.ready side)).mpr ⟨howner, rfl, hexh, hlt⟩
  · obtain ⟨hcheck, htake⟩ := Port.read_spec hread
    have hready := hrow.ready_of_readCheck hcheck
    have hq : q = (p.take (p.readCount n)).1 := congrArg Prod.fst htake
    refine ⟨Option.some.inj (hphase.symm.trans ((p.phase_eq_some_iff _).mpr hready)), ?_⟩
    rw [hq]
    exact (Port.phase_eq_some_iff _ _).mpr (Port.take_row hready n)
  · obtain ⟨_, howner, hbusy, hexh, rfl⟩ := Port.relinquish_spec hrelinquish
    have hdrained : (PortPhase.drained side).Row p := ⟨howner, hbusy, hexh, hrow.drained_of_exhausted hexh⟩
    exact ⟨Option.some.inj (hphase.symm.trans ((p.phase_eq_some_iff _).mpr hdrained)),
      (Port.phase_eq_some_iff _ (.empty side.other)).mpr ⟨rfl, rfl, rfl, rfl, rfl⟩⟩

/-- Settles O60: a call is its operation with the budget as a further bound on the request. -/
theorem deviceCallsActWithinTheBudget : Obligations.DeviceCallsActWithinTheBudget := by
  refine ⟨fun p budget n hdev hbusy howner hexh hlt => ?_, fun p budget bytes hdev hbusy howner => ?_,
    fun p budget hdev howner hbusy hexh => ?_, fun p budget n bytes reason => ⟨fun h => ?_, fun h => ?_, fun h => ?_⟩,
    fun p budget _ => ?_⟩
  · intro c
    have hcheck : p.readCheck .device = none := (p.readCheck_eq_none .device).mpr ⟨hdev, hbusy, howner, hexh, hlt.ne⟩
    have hcount : p.readCount (min n budget) = c := by simp only [Port.readCount, c]; omega
    refine ⟨?_, ?_⟩
    · rw [Port.deviceCall_read hcheck, hcount, Port.take_eq hexh (by omega)]
    · rw [List.length_take_of_le]
      simp only [List.length_drop, c]
      omega
  · intro c
    have hcheck := (p.writeCheck_eq_none .device).mpr ⟨hdev, hbusy, howner⟩
    have hcount : p.writeCount (min budget bytes.length) = c := by simp only [Port.writeCount, c]; omega
    rw [Port.deviceCall_write hcheck, hcount, Port.place_take p .device (Nat.min_le_left _ _)]
  · exact Port.deviceCall_relinquish (Port.relinquish_of_exhausted hdev howner hbusy hexh)
  · exact Port.deviceCall_read_failed (Port.read_eq_error_iff.mp h) n
  · exact Port.deviceCall_write_failed (Port.write_eq_error_iff.mp h) bytes
  · exact Port.deviceCall_relinquish_failed h
  · intro answers
    refine ⟨⟨_, rfl, p.isConnected_iff⟩, ⟨_, rfl, Iff.rfl⟩, ⟨_, rfl, Iff.rfl⟩, ⟨_, rfl, decide_eq_true_iff⟩,
      ⟨_, rfl, decide_eq_true_iff⟩, ⟨_, rfl, p.isReadableAndNotBusy_iff .device⟩,
      ⟨_, rfl, p.isWriteableAndNotBusy_iff .device⟩, ?_⟩
    simp only [Port.deviceCall, Prod.mk.injEq, CallResult.usable.injEq, true_and]
    by_cases hunusable : p.dev = none ∨ p.busy = true
    · rw [if_pos hunusable, Port.usableByteCount_of_unusable hunusable]
    · rw [if_neg hunusable]
      split
      · next howner => exact Port.usableByteCount_of_unowned hunusable howner
      · next howner => exact Port.usableByteCount_of_owner hunusable howner
      · next howner => exact Port.usableByteCount_of_owner_other hunusable howner

end Sys2Proof.Machine
end

section
/-! PROOFS. The statement about the ownership of a mailbox (45_device_port.md R255), and all that an instruction does to
the ports (46_sig.md R283 to R285; 60_exceptions.md R305). -/

namespace Sys2Proof.Machine

/-! ## What an instruction does to the ports -/

/-- Everything an instruction can do to the ports: nothing, or, as a SIG, one operation of the program on the port at
`r0`. -/
inductive PortEffect (s : State) : Instr → PortMap → Prop
  | kept {i : Instr} : PortEffect s i s.ports
  | relinquished {p q : Port} (hp : s.portAt s.r0 = some p) (hq : p.relinquish .program = .ok q) :
      PortEffect s .sigRelinquish (portSet s.ports s.r0 q)
  | consumed {p : Port} {cnt : BitVec 8} (hp : s.portAt s.r0 = some p) (hcheck : p.readCheck .program = none) (c : Nat) :
      PortEffect s (.sigRead cnt) (portSet s.ports s.r0 (p.take c).1)
  | placed {p : Port} {cnt : BitVec 8} (hp : s.portAt s.r0 = some p) (hcheck : p.writeCheck .program = none)
      (bytes : List Byte) : PortEffect s (.sigWrite cnt) (portSet s.ports s.r0 (p.place .program bytes))

theorem PortEffect.of_eq {i : Instr} {s t : State} (h : t.ports = s.ports) : PortEffect s i t.ports := h ▸ .kept

theorem execSigRelinquish_portEffect (s : State) :
    ∃ t, execSigRelinquish s = .next t ∧ PortEffect s .sigRelinquish t.ports := by
  simp only [execSigRelinquish]
  split
  · exact ⟨_, rfl, .kept⟩
  · next p hp =>
    split
    · exact ⟨_, rfl, .kept⟩
    · next q hq => exact ⟨_, rfl, .relinquished hp hq⟩

theorem execSigRead_portEffect (cnt : BitVec 8) (s : State) :
    ∃ t, execSigRead cnt s = .next t ∧ PortEffect s (.sigRead cnt) t.ports := by
  simp only [execSigRead]
  split
  · exact ⟨_, rfl, .kept⟩
  · next p hp =>
    split
    · exact ⟨_, rfl, .kept⟩
    · next hcheck =>
      split
      · exact ⟨_, rfl, .consumed hp hcheck _⟩
      · exact ⟨_, rfl, .kept⟩

theorem execSigWrite_portEffect (cnt : BitVec 8) (s : State) :
    ∃ t, execSigWrite cnt s = .next t ∧ PortEffect s (.sigWrite cnt) t.ports := by
  simp only [execSigWrite]
  split
  · exact ⟨_, rfl, .kept⟩
  · next p hp =>
    split
    · exact ⟨_, rfl, .kept⟩
    · next hcheck =>
      split
      · exact ⟨_, rfl, .placed hp hcheck _⟩
      · exact ⟨_, rfl, .kept⟩

theorem pushRegs_ports (regs : List Reg) (s : State) : (pushRegs regs s).ports = s.ports := by
  rcases pushRegs_spec regs s with ⟨_, heq⟩ | ⟨n, _, _, _, heq⟩ <;> rw [heq]
  · rw [pushedAll_frame]
  · rw [State.raise_ports, pushedAll_frame]

theorem popRegs_ports (regs : List Reg) (s : State) : (popRegs regs s).ports = s.ports := by
  rcases popRegs_spec regs s with ⟨_, heq⟩ | ⟨n, _, _, _, heq⟩ <;> rw [heq]
  · rw [poppedAll_frame]
  · rw [State.raise_ports, poppedAll_frame]

/-- Every instruction completes, and only a SIG has done anything to the ports. -/
theorem exec_portEffect (i : Instr) (s : State) : ∃ t, exec i s = .next t ∧ PortEffect s i t.ports := by
  cases i with
  | sigRelinquish => exact execSigRelinquish_portEffect s
  | sigRead cnt => exact execSigRead_portEffect cnt s
  | sigWrite cnt => exact execSigWrite_portEffect cnt s
  | push mask => exact ⟨_, rfl, .of_eq (pushRegs_ports _ s)⟩
  | pop mask => exact ⟨_, rfl, .of_eq (popRegs_ports _ s)⟩
  | asgn rs rd lit => exact ⟨_, rfl, .of_eq (s.setX_ports _ _)⟩
  | spget r => exact ⟨_, rfl, .of_eq (s.setX_ports _ _)⟩
  | nop | spset r => exact ⟨_, rfl, .kept⟩
  | div rs rd lit =>
    by_cases hzero : s.operand rs rd (literal7 lit) = 0
    · exact ⟨_, exec_div_of_eq hzero, .kept⟩
    · exact ⟨_, exec_div_of_ne hzero, .of_eq (s.writeResult_ports _ _ _)⟩
  | divs rs rd lit =>
    by_cases hzero : s.operand rs rd (literalSigned7 lit) = 0
    · exact ⟨_, exec_divs_of_eq hzero, .kept⟩
    · exact ⟨_, exec_divs_of_ne hzero, .of_eq (s.writeResult_ports _ _ _)⟩
  | cbx lnk cond neg off =>
    by_cases hcond : s.condHolds cond neg = true
    · obtain ⟨t, hexec, _, _, _, _, _, _, hports, _⟩ := exec_cbx_taken_spec (lnk := lnk) (off := off) hcond
      exact ⟨t, hexec, .of_eq hports⟩
    · exact ⟨s, exec_cbx_of_not_condHolds hcond, .kept⟩
  | ld rb rt off =>
    rcases Nat.lt_or_ge ((s.effectiveAddress rb off).toNat + 1) s.memCapacity with hfit | hmisfit
    · exact ⟨_, exec_ld_of_lt hfit, .of_eq (s.setX_ports _ _)⟩
    · exact ⟨_, exec_ld_of_le hmisfit, .kept⟩
  | st rb rt off =>
    simp only [exec, execSt]
    rcases s.storeWord_spec (s.effectiveAddress rb off) (s.x rt) with ⟨_, heq⟩ | ⟨_, heq⟩ <;> rw [heq] <;>
      exact ⟨_, rfl, .kept⟩
  | sigQuery =>
    simp only [exec, execSigQuery]
    split
    · exact ⟨_, rfl, .kept⟩
    · exact ⟨_, rfl, .of_eq (s.writeSigResult_ports _)⟩
  | sigUsable =>
    simp only [exec, execSigUsable]
    split
    · exact ⟨_, rfl, .kept⟩
    · exact ⟨_, rfl, .of_eq (s.writeSigResult_ports _)⟩
  | _ => exact ⟨_, rfl, .of_eq (s.writeResult_ports _ _ _)⟩

/-- The inversion of `exec` for the ports. -/
theorem portEffect_of_exec {i : Instr} {s t : State} (h : exec i s = .next t) : PortEffect s i t.ports := by
  obtain ⟨u, hu, heffect⟩ := exec_portEffect i s
  obtain rfl : u = t := Host.Outcome.next.inj (hu.symm.trans h)
  exact heffect

/-! ## When the owner changes (R251, R253, R255) -/

/-- A write that moves the mailbox to another owner moves it from none to the writer. -/
theorem Port.place_owner {p : Port} {side : Side} {bytes : List Byte} (hcheck : p.writeCheck side = none)
    (hne : (p.place side bytes).owner ≠ p.owner) :
    p.busy = false ∧ p.owner = none ∧ (p.place side bytes).owner = some side := by
  obtain ⟨_, hbusy, howner⟩ := (Port.writeCheck_eq_none p side).mp hcheck
  have hplaced : (p.place side bytes).owner = some side := by
    simp only [Port.place] at hne ⊢
    split_ifs at hne ⊢
    · exact absurd rfl hne
    · rfl
  rcases howner with hnone | ⟨hown, _⟩
  · exact ⟨hbusy, hnone, hplaced⟩
  · exact absurd (hplaced.trans hown.symm) hne

/-- Of two different ports found at an address before and after a replacement, the address is the replaced one's and the
ports are the old and the new one. -/
theorem eq_of_portAt_portSet {ports : PortMap} {a b : PortAddr} {p q old new : Port} (hold : portAt ports b = some old)
    (hp : portAt ports a = some p) (hq : portAt (portSet ports b new) a = some q) (hne : q ≠ p) :
    a = b ∧ p = old ∧ q = new := by
  rw [portAt_portSet] at hq
  split_ifs at hq with hab
  · subst hab
    rw [hold] at hp hq
    exact ⟨rfl, (Option.some.inj hp).symm, (Option.some.inj hq).symm⟩
  · exact absurd (Option.some.inj (hq.symm.trans hp)) hne

/-! ## The obligation -/

/-- Settles O49: of the operations on a port only a relinquish and a write touch its owner, for either side. -/
theorem ownershipMovesOnlyAsRuled : Obligations.OwnershipMovesOnlyAsRuled := by
  refine ⟨fun i s t a p q hexec hp hq hne => ?_, fun p budget call hne => ?_⟩
  · have hports : q ≠ p := fun heq => hne (congrArg Port.owner heq)
    rw [State.portAt] at hp hq
    generalize t.ports = ports, portEffect_of_exec hexec = heffect at hq
    cases heffect with
    | kept => exact absurd (Option.some.inj (hq.symm.trans hp)) hports
    | relinquished hold hok =>
      obtain ⟨rfl, rfl, rfl⟩ := eq_of_portAt_portSet hold hp hq hports
      obtain ⟨_, howner, hbusy, hexh, rfl⟩ := Port.relinquish_spec hok
      exact ⟨rfl, hbusy, .inl ⟨rfl, hexh, howner, rfl⟩⟩
    | consumed hold _ c =>
      obtain ⟨rfl, rfl, rfl⟩ := eq_of_portAt_portSet hold hp hq hports
      exact absurd rfl hne
    | placed hold hcheck bytes =>
      obtain ⟨rfl, rfl, rfl⟩ := eq_of_portAt_portSet hold hp hq hports
      obtain ⟨hbusy, hnone, howner⟩ := Port.place_owner hcheck hne
      exact ⟨rfl, hbusy, .inr ⟨⟨_, rfl⟩, hnone, howner⟩⟩
  · rcases p.deviceCall_cases budget call with hkept | ⟨n, bytes, _, hread⟩ | ⟨bytes, n, hcall, hwrite⟩ | ⟨hcall, hrel⟩
    · exact absurd (congrArg Port.owner hkept) hne
    · obtain ⟨_, htake⟩ := Port.read_spec hread
      exact absurd (congrArg (fun r => r.1.owner) htake) hne
    · obtain ⟨hcheck, _, hplace⟩ := Port.write_spec hwrite
      rw [hplace] at hne ⊢
      obtain ⟨hbusy, hnone, howner⟩ := Port.place_owner hcheck hne
      exact ⟨hbusy, .inr ⟨⟨bytes, hcall⟩, hnone, howner⟩⟩
    · obtain ⟨_, howner, hbusy, hexh, hq⟩ := Port.relinquish_spec hrel
      exact ⟨hbusy, .inl ⟨hcall, hexh, howner, congrArg Port.owner hq⟩⟩

end Sys2Proof.Machine
end

section
/-! PROOFS. The statements about a tick's polls and about the two ends of a connection (45_device_port.md R257, R258, R260,
R261; 40_step.md R150). -/

namespace Sys2Proof.Machine

/-! ## The order of the polls (R260) -/

/-- Whatever the round, each connected device polls once and no other does. -/
theorem pollOrder_perm (round : PollRound) (connected : List DeviceId) :
    ((pollOrder round connected).map fun e => e.1).Perm connected := by
  induction round generalizing connected with
  | nil => simp [pollOrder, Function.comp_def]
  | cons e rest ih =>
    simp only [pollOrder]
    split
    · next hmem => exact ((ih _).cons e.1).trans (List.perm_cons_erase hmem).symm
    · exact ih connected

/-- Device names that rise name a connected device once. -/
theorem State.connectedDevices_nodup {s : State} (hrise : (s.devices.map fun e => e.1).Pairwise (· < ·)) :
    s.connectedDevices.Nodup :=
  (hrise.sublist (List.filter_sublist.map _)).imp Nat.ne_of_lt

/-! ## A connection from both of its ends (10_state.md R51) -/

theorem State.conn_of_deviceAt {s : State} {d : DeviceId} {dev : Device} (h : deviceAt s.devices d = some dev) :
    s.conn d = dev.conn := by
  rw [State.conn, h, Option.bind_some]

/-- The port a device is connected to names that device. -/
theorem State.LinksOk.dev_of_conn {s : State} (hlinks : s.LinksOk) {d : DeviceId} {a : PortAddr} {p : Port}
    (hconn : s.conn d = some a) (hp : s.portAt a = some p) : p.dev = some d := by
  obtain ⟨_, _, hdeviceEnd⟩ := hlinks
  obtain ⟨dev, hdev, ha⟩ := Option.bind_eq_some_iff.mp hconn
  have hport := hdeviceEnd _ (mem_of_deviceAt hdev) a ha
  rwa [hp, Option.bind_some] at hport

/-! ## The ports after the polls (R260, R261; 40_step.md R150) -/

theorem State.portAt_settle (s : State) (a : PortAddr) :
    s.settle.portAt a = (s.portAt a).map fun p => { p with busy := false } :=
  Machine.portAt_settle s.ports a

/-- In a round that names each device once, the port of a named device takes that device's calls: no other device is
connected to it. -/
theorem State.pollAll_portAt {round : PollRound} {s : State} {d : DeviceId} {dev : Device} {a : PortAddr} {p : Port}
    (hnodup : (round.map fun e => e.1).Nodup) (hmem : d ∈ round.map fun e => e.1)
    (hdev : deviceAt s.devices d = some dev) (hconn : dev.conn = some a) (hp : s.portAt a = some p)
    (honly : ∀ e, s.conn e = some a → e = d) :
    (s.pollAll round).portAt a = some (p.deviceCalls dev.speed (roundCalls round d)).1 := by
  induction round generalizing s with
  | nil => cases hmem
  | cons e rest ih =>
    obtain ⟨hfresh, hnodup⟩ := List.nodup_cons.mp hnodup
    rw [State.pollAll]
    by_cases hed : e.1 = d
    · rw [State.pollAll_portAt_other, hed, State.pollDevice_portAt _ hdev hconn hp, if_pos rfl, roundCalls, if_pos hed]
      intro x hx hxconn
      rw [State.conn, State.pollDevice_devices] at hxconn
      have hsame : x.1 = e.1 := (honly _ hxconn).trans hed.symm
      exact hfresh (List.mem_map.mpr ⟨x, hx, hsame⟩)
    · have hother : s.conn e.1 ≠ some a := fun h => hed (honly _ h)
      rw [roundCalls, if_neg hed]
      refine ih hnodup ((List.mem_cons.mp hmem).resolve_left (Ne.symm hed)) ?_ ?_ fun x hx => honly x ?_
      · rwa [State.pollDevice_devices]
      · rwa [State.pollDevice_portAt_other _ hother]
      · rwa [State.conn, State.pollDevice_devices] at hx

/-- After the poll phase the port of a connected device has taken the device's calls of the round. -/
theorem State.pollPhase_portAt {s : State} {d : DeviceId} {dev : Device} {a : PortAddr} {p : Port}
    (hrise : (s.devices.map fun e => e.1).Pairwise (· < ·)) (hdev : (d, dev) ∈ s.devices) (hconn : dev.conn = some a)
    (hp : s.portAt a = some p) (honly : ∀ e, s.conn e = some a → e = d) :
    s.pollPhase.portAt a = some (p.deviceCalls dev.speed (roundCalls s.round d)).1 := by
  have hmem : d ∈ s.connectedDevices := (s.mem_connectedDevices d).mpr ⟨dev, hdev, by simp [hconn]⟩
  have horder := pollOrder_perm s.round s.connectedDevices
  rw [State.pollPhase, if_neg (List.ne_nil_of_mem hmem), ← roundCalls_pollOrder s.round s.connectedDevices d hmem]
  exact State.pollAll_portAt (horder.nodup_iff.mpr (State.connectedDevices_nodup hrise)) (horder.mem_iff.mpr hmem)
    (deviceAt_of_mem hrise hdev) hconn hp honly

/-- The poll phase leaves a port that no device is connected to. -/
theorem State.pollPhase_portAt_other {s : State} {a : PortAddr} (h : ∀ d, s.conn d ≠ some a) :
    s.pollPhase.portAt a = s.portAt a := by
  rw [State.pollPhase]
  split
  · rfl
  · exact State.pollAll_portAt_other fun e _ => h e.1

/-! ## Connect and disconnect as host actions (R257, R258) -/

theorem hostAction_connect_of_some {s t : State} {d : DeviceId} {a : PortAddr} (h : s.connect d a = some t) :
    hostAction (.connect d a) s = .next t := by
  rw [hostAction, h, Option.getD_some]

theorem hostAction_connect_of_none {s : State} {d : DeviceId} {a : PortAddr} (h : ∀ t, s.connect d a ≠ some t) :
    hostAction (.connect d a) s = .next s := by
  rw [hostAction, Option.eq_none_iff_forall_ne_some.mpr h, Option.getD_none]

theorem hostAction_disconnect_of_some {s t : State} {d : DeviceId} (h : s.disconnect d = some t) :
    hostAction (.disconnect d) s = .next t := by
  rw [hostAction, h, Option.getD_some]

theorem hostAction_disconnect_of_none {s : State} {d : DeviceId} (h : ∀ t, s.disconnect d ≠ some t) :
    hostAction (.disconnect d) s = .next s := by
  rw [hostAction, Option.eq_none_iff_forall_ne_some.mpr h, Option.getD_none]

/-- One port and one device replaced, as a connect and a disconnect do: each is then the new one, the others are as
before. -/
theorem portSet_deviceSet_spec {s : State} {d : DeviceId} {dev : Device} {a : PortAddr} {p : Port}
    (hp : s.portAt a = some p) (hdev : deviceAt s.devices d = some dev) (q : Port) (newDev : Device) :
    portAt (portSet s.ports a q) a = some q ∧ (∀ b, b ≠ a → portAt (portSet s.ports a q) b = s.portAt b) ∧
    deviceAt (deviceSet s.devices d newDev) d = some newDev ∧
    ∀ e, e ≠ d → deviceAt (deviceSet s.devices d newDev) e = deviceAt s.devices e := by
  rw [State.portAt] at hp
  refine ⟨?_, fun b hb => ?_, ?_, fun e he => ?_⟩
  · rw [portAt_portSet, if_pos rfl, hp, Option.map_some]
  · rw [portAt_portSet, if_neg hb, State.portAt]
  · rw [deviceAt_deviceSet, if_pos rfl, hdev, Option.map_some]
  · rw [deviceAt_deviceSet, if_neg he]

/-! ## The obligations -/

/-- Settles O14: the poll order names a connected device once, and only that device's poll touches its port. -/
theorem pollsAreOneEachAndWithinTheBudget : Obligations.PollsAreOneEachAndWithinTheBudget := by
  refine ⟨fun s ⟨_, _, _, _, hlinks, _⟩ => ⟨fun d dev a p hmem hconn hp => ?_, fun d hnone => ?_, fun a p hp hfree => ?_⟩,
    pollOrder_perm, Port.deviceCalls_moved_le⟩
  · have ⟨hrise, _, _⟩ := hlinks
    have hdconn : s.conn d = some a := (State.conn_of_deviceAt (deviceAt_of_mem hrise hmem)).trans hconn
    refine ⟨?_, ?_⟩
    · rw [State.pollOf, hdconn, Option.bind_some, hp, Option.map_some]
    · refine State.pollPhase_portAt (s := s.settle) hrise hmem hconn ?_ fun e he => ?_
      · rw [State.portAt_settle, hp, Option.map_some]
      · have hdev := hlinks.dev_of_conn hdconn hp
        exact Option.some.inj ((hlinks.dev_of_conn he hp).symm.trans hdev)
  · rw [State.pollOf, hnone, Option.bind_none, Option.map_none]
  · rw [State.pollPhase_portAt_other, State.portAt_settle, hp, Option.map_some]
    intro d hconn
    exact Option.some_ne_none d ((hlinks.dev_of_conn hconn hp).symm.trans hfree)

/-- Settles O20: either action is two replacements, of a port and of a device, or nothing. -/
theorem connectAndDisconnectWriteBothEnds : Obligations.ConnectAndDisconnectWriteBothEnds := by
  refine ⟨fun s d a dev hdev => ⟨fun p hp hfree hconn => ?_, fun hfails => ?_⟩,
    fun s d dev hdev => ⟨fun a p hconn hp => ?_, fun hconn => ?_⟩, fun s d a hnone => ⟨?_, ?_⟩⟩
  · exact ⟨_, hostAction_connect_of_some (State.connect_eq_some.mpr ⟨p, dev, hp, hdev, hfree, hconn, rfl⟩), rfl,
      portSet_deviceSet_spec hp hdev _ _⟩
  · refine hostAction_connect_of_none fun t ht => ?_
    obtain ⟨p, dev', hp, hdev', hfree, hconn, _⟩ := State.connect_eq_some.mp ht
    obtain rfl : dev' = dev := Option.some.inj (hdev'.symm.trans hdev)
    rcases hfails with hnone | ⟨p', hp', htaken⟩ | hconnected
    · exact Option.some_ne_none p (hp.symm.trans hnone)
    · exact htaken (Option.some.inj (hp.symm.trans hp') ▸ hfree)
    · exact hconnected hconn
  · exact ⟨_, hostAction_disconnect_of_some (State.disconnect_eq_some.mpr ⟨dev, a, p, hdev, hconn, hp, rfl⟩), rfl,
      portSet_deviceSet_spec hp hdev _ _⟩
  · refine hostAction_disconnect_of_none fun t ht => ?_
    obtain ⟨dev', a, _, hdev', ha, _⟩ := State.disconnect_eq_some.mp ht
    obtain rfl : dev' = dev := Option.some.inj (hdev'.symm.trans hdev)
    exact Option.some_ne_none a (ha.symm.trans hconn)
  · refine hostAction_connect_of_none fun t ht => ?_
    obtain ⟨_, dev, _, hdev, _⟩ := State.connect_eq_some.mp ht
    exact Option.some_ne_none dev (hdev.symm.trans hnone)
  · refine hostAction_disconnect_of_none fun t ht => ?_
    obtain ⟨dev, _, _, hdev, _⟩ := State.disconnect_eq_some.mp ht
    exact Option.some_ne_none dev (hdev.symm.trans hnone)

end Sys2Proof.Machine
end

section
/-! PROOFS. The statements about the five SIG instructions (46_sig.md R280 to R287; 60_exceptions.md R304). Each SIG has
an equation per outcome; which outcome it has is decided by the checks of the port operations. -/

namespace Sys2Proof.Machine

/-! ## What each instruction does to the state -/

section Outcomes
variable {s : State}

/-- Every SIG first asks for the port (R280). -/
theorem exec_sig_of_no_port {cnt : BitVec 8} {i : Instr} (hp : s.portAt s.r0 = none)
    (hi : i ∈ [Instr.sigQuery, .sigUsable, .sigRelinquish, .sigRead cnt, .sigWrite cnt]) :
    exec i s = .next (s.raise .invalidPort) := by
  simp only [List.mem_cons, List.not_mem_nil, or_false] at hi
  rcases hi with rfl | rfl | rfl | rfl | rfl <;>
    simp only [exec, execSigQuery, execSigUsable, execSigRelinquish, execSigRead, execSigWrite, hp]

variable {p : Port} {cnt : BitVec 8} {reason : PortFail} (hp : s.portAt s.r0 = some p)
include hp

theorem exec_sigQuery_of_port : exec .sigQuery s = .next (s.writeSigResult (statusWord p)) := by
  simp only [exec, execSigQuery, hp]

theorem exec_sigUsable_of_port :
    exec .sigUsable s = .next (s.writeSigResult (s.usableWord (p.usableByteCount .program))) := by
  simp only [exec, execSigUsable, hp]

theorem exec_sigRelinquish_of_ok {q : Port} (hok : p.relinquish .program = .ok q) :
    exec .sigRelinquish s = .next (s.setPort s.r0 q) := by
  simp only [exec, execSigRelinquish, hp, hok]

theorem exec_sigRelinquish_of_error (herror : p.relinquish .program = .error reason) :
    exec .sigRelinquish s = .next (s.raise reason.faultCode) := by
  simp only [exec, execSigRelinquish, hp, herror]

theorem exec_sigRead_of_failed (hcheck : p.readCheck .program = some reason) :
    exec (.sigRead cnt) s = .next (s.raise reason.faultCode) := by
  simp only [exec, execSigRead, hp, hcheck]

theorem exec_sigRead_of_inRange (hcheck : p.readCheck .program = none)
    (hrange : s.inRange s.r1 (p.readCount cnt.toNat) = true) :
    exec (.sigRead cnt) s =
      .next (((s.setPort s.r0 (p.take (p.readCount cnt.toNat)).1).storeBlock s.r1
        (p.take (p.readCount cnt.toNat)).2).writeSigResult (BitVec.ofNat 16 (p.readCount cnt.toNat))) := by
  simp only [exec, execSigRead, hp, hcheck, hrange, ↓reduceIte]

theorem exec_sigRead_of_outOfRange (hcheck : p.readCheck .program = none)
    (hrange : s.inRange s.r1 (p.readCount cnt.toNat) = false) :
    exec (.sigRead cnt) s = .next (s.raise .invalidStore) := by
  simp only [exec, execSigRead, hp, hcheck, hrange, Bool.false_eq_true, ↓reduceIte]

theorem exec_sigWrite_of_failed (hcheck : p.writeCheck .program = some reason) :
    exec (.sigWrite cnt) s = .next (s.raise reason.faultCode) := by
  simp only [exec, execSigWrite, hp, hcheck]

theorem exec_sigWrite_of_inRange (hcheck : p.writeCheck .program = none)
    (hrange : s.inRange s.r1 (p.writeCount cnt.toNat) = true) :
    exec (.sigWrite cnt) s =
      .next ((s.setPort s.r0 (p.place .program (s.loadBlock s.r1 (p.writeCount cnt.toNat)))).writeSigResult
        (BitVec.ofNat 16 (p.writeCount cnt.toNat))) := by
  simp only [exec, execSigWrite, hp, hcheck, hrange, ↓reduceIte]

theorem exec_sigWrite_of_outOfRange (hcheck : p.writeCheck .program = none)
    (hrange : s.inRange s.r1 (p.writeCount cnt.toNat) = false) :
    exec (.sigWrite cnt) s = .next (s.raise .invalidLoad) := by
  simp only [exec, execSigWrite, hp, hcheck, hrange, Bool.false_eq_true, ↓reduceIte]

end Outcomes

/-- A block fails its range check when it has a byte and its last one does not exist (20_memory.md R79). -/
theorem State.inRange_eq_false_of_le {s : State} {a : Word} {c : Nat} (hpos : 0 < c)
    (hend : s.memCapacity ≤ a.toNat + c - 1) : s.inRange a c = false := by
  rw [Bool.eq_false_iff, ne_eq, State.inRange_iff]
  omega

/-! ## The status word (R287) -/

theorem statusWord_getLsbD_of_ge (p : Port) {k : Nat} (hk : 7 ≤ k) : (statusWord p).getLsbD k = false := by
  rw [statusWord_getLsbD]
  repeat rw [if_neg (by omega)]

/-- A port that keeps the five invariants and has no device is neutral, so its status word has no bit set; on any other
port bit 0 is set. -/
theorem statusWord_eq_zero_iff {p : Port} (hsound : p.Sound) : statusWord p = 0 ↔ p.dev = none := by
  constructor
  · intro hzero
    have hbit : (statusWord p).getLsbD 0 = p.isConnected := statusWord_getLsbD p 0
    rw [hzero] at hbit
    simpa [Port.isConnected] using hbit.symm
  · intro hdev
    obtain ⟨_, hneutral, hunowned, _⟩ := hsound
    have howner := hunowned hdev
    obtain ⟨_, _, hbusy, hexh⟩ := hneutral howner
    refine BitVec.eq_of_getLsbD_eq fun k _ => ?_
    rw [statusWord_getLsbD]
    simp [Port.isConnected, Port.isBusy, Port.isExhausted, Port.isControlledByProgram, Port.isControlledByDevice,
      Port.isReadableAndNotBusy, Port.isWriteableAndNotBusy, hdev, howner, hbusy, hexh]

/-! ## Transfers (R284, R285) -/

/-- Everything outside the ports is as before when a port is replaced. -/
theorem State.setPort_kept (s : State) (a : PortAddr) (q : Port) :
    RegsKept [] s (s.setPort a q) ∧ (s.setPort a q).sr = s.sr ∧ (s.setPort a q).sp = s.sp ∧ MemKept s (s.setPort a q) ∧
      RestKept s (s.setPort a q) :=
  ⟨regsKept_of_eq [] rfl rfl rfl rfl, rfl, rfl, fun _ => rfl, rfl, rfl, rfl, rfl, rfl, rfl, rfl⟩

/-- A block stored after a port is replaced leaves everything outside the ports and the memory as before. -/
theorem State.storeBlock_setPort_kept (s : State) (a : PortAddr) (q : Port) (b : Word) (bytes : List Byte) :
    RegsKept [] s ((s.setPort a q).storeBlock b bytes) ∧ ((s.setPort a q).storeBlock b bytes).sr = s.sr ∧
      RestKept s ((s.setPort a q).storeBlock b bytes) :=
  ⟨regsKept_of_eq [] rfl rfl rfl rfl, rfl, rfl, rfl, rfl, rfl, rfl, rfl, rfl⟩

theorem State.setPort_portAt_self {s : State} {a : PortAddr} {p : Port} (hp : s.portAt a = some p) (q : Port) :
    (s.setPort a q).portAt a = some q := by
  rw [State.portAt_setPort, if_pos rfl, hp, Option.map_some]

theorem State.setPort_portAt_of_ne (s : State) {a b : PortAddr} (q : Port) (hb : b ≠ a) :
    (s.setPort a q).portAt b = s.portAt b := by
  rw [State.portAt_setPort, if_neg hb]

@[simp] theorem State.storeBlock_portAt (s : State) (a : Word) (bytes : List Byte) (b : PortAddr) :
    (s.storeBlock a bytes).portAt b = s.portAt b := rfl

@[simp] theorem State.writeSigResult_portAt (s : State) (v : Word) (a : PortAddr) :
    (s.writeSigResult v).portAt a = s.portAt a := by
  rw [State.portAt, State.writeSigResult_ports, State.portAt]

/-- A transfer whose effect wrote neither register nor flag ends with its count in `lr` and the flags of the count. -/
theorem State.writeSigResult_count {s u : State} {c : Nat} (hc : c < 65536) (hregs : RegsKept [] s u)
    (hsr : u.sr = s.sr) (hrest : RestKept s u) :
    (u.writeSigResult (BitVec.ofNat 16 c)).lr.toNat = c ∧
    FlagsAre (c = 0) False s (u.writeSigResult (BitVec.ofNat 16 c)) ∧
    RegsKept [.lr] s (u.writeSigResult (BitVec.ofNat 16 c)) ∧ RestKept s (u.writeSigResult (BitVec.ofNat 16 c)) := by
  obtain ⟨hlr, ⟨hz, hov, hreserved⟩, hframe, _⟩ := u.writeSigResult_spec (BitVec.ofNat 16 c)
  have hcount : (BitVec.ofNat 16 c).toNat = c := by rw [BitVec.toNat_ofNat, Nat.mod_eq_of_lt hc]
  have hzero : BitVec.ofNat 16 c = 0 ↔ c = 0 := by rw [← BitVec.toNat_inj, hcount]; rfl
  refine ⟨by rw [hlr, hcount], ⟨hz.trans hzero, hov, by rw [hreserved, hsr]⟩, fun r hr => ?_, ?_⟩
  · rw [hframe r hr, hregs r List.not_mem_nil]
  · simpa [RestKept] using hrest

/-- A block written and read back, byte by byte (20_memory.md R79). -/
theorem Memory.read_writeBytes_get (m : Memory) (a : Nat) {bytes : List Byte} {k : Nat} (hk : k < bytes.length) :
    some ((m.writeBytes a bytes).read (a + k)) = bytes[k]? := by
  rw [Memory.read_writeBytes, if_pos (by omega), Nat.add_sub_cancel_left, List.getElem?_eq_getElem hk, Option.getD_some]

theorem Memory.read_writeBytes_outside (m : Memory) {a b : Nat} {bytes : List Byte}
    (hb : b < a ∨ a + bytes.length ≤ b) : (m.writeBytes a bytes).read b = m.read b := by
  rw [Memory.read_writeBytes, if_neg (by omega)]

/-- What a write of a block of memory makes of the port. -/
theorem State.place_loadBlock (s : State) (p : Port) (side : Side) (a : Word) (c : Nat) :
    p.place side (s.loadBlock a c) =
      if c = 0 then p else { p with
        data := p.data ++ (List.range c).map fun k => s.mem.read (a.toNat + k)
        owner := some side
        busy := true } := by
  have hempty : s.loadBlock a c = [] ↔ c = 0 := by
    rw [← List.length_eq_zero_iff, State.loadBlock, Memory.readBytes_length]
  simp only [Port.place, hempty]
  rw [State.loadBlock, Memory.readBytes_eq_map, translateAddress]

/-! ## The obligations -/

/-- Settles O50: the status word is made of the queries, and its being 0 is decided by bit 0. -/
theorem sigQueryReportsThePort : Obligations.SigQueryReportsThePort := by
  intro s p hp hsound
  obtain ⟨hlr, ⟨hz, hov, hreserved⟩, hframe⟩ := s.writeSigResult_spec (statusWord p)
  refine ⟨_, exec_sigQuery_of_port hp, ?_⟩
  rw [hlr]
  have hbits := statusWord_getLsbD p
  refine ⟨(hbits 0).symm ▸ p.isConnected_iff, hbits 1, hbits 2, (hbits 3).symm ▸ decide_eq_true_iff,
    (hbits 4).symm ▸ decide_eq_true_iff, (hbits 5).symm ▸ p.isReadableAndNotBusy_iff .program,
    (hbits 6).symm ▸ p.isWriteableAndNotBusy_iff .program, fun k => statusWord_getLsbD_of_ge p,
    ⟨hz.trans (statusWord_eq_zero_iff hsound), hov, hreserved⟩, hframe⟩

/-- Settles O51: the count is the program's side of `Port.usableByteCount`, owner by owner. -/
theorem sigUsableReportsTheCount : Obligations.SigUsableReportsTheCount := by
  intro s p hp count
  have hcount : p.usableByteCount .program = count := by
    by_cases hunusable : p.dev = none ∨ p.busy = true
    · simp only [count, if_pos hunusable, Port.usableByteCount_of_unusable hunusable]
    · simp only [count, if_neg hunusable]
      split
      · next howner => exact Port.usableByteCount_of_unowned hunusable howner
      · next howner => exact Port.usableByteCount_of_owner hunusable howner
      · next howner => exact Port.usableByteCount_of_owner_other hunusable howner
  have hzero := s.usableWord_eq_zero count
  obtain ⟨hlr, ⟨hz, hov, hreserved⟩, hframe⟩ := s.writeSigResult_spec (s.usableWord count)
  refine ⟨_, hcount ▸ exec_sigUsable_of_port hp, fun hfits => ?_, ?_, ⟨hz.trans hzero, hov, hreserved⟩, hframe⟩
  · rw [hlr, s.usableWord_toNat hfits]
  · rw [hlr, hzero]

/-- Settles O52: the relinquish passes its checks, and the instruction replaces the port and nothing else. -/
theorem sigRelinquishGivesTheMailboxAway : Obligations.SigRelinquishGivesTheMailboxAway := by
  intro s p hp hdev howner hbusy hexh
  exact ⟨_, exec_sigRelinquish_of_ok hp (Port.relinquish_of_exhausted hdev howner hbusy hexh),
    State.setPort_portAt_self hp _, fun _ => s.setPort_portAt_of_ne _, s.setPort_kept s.r0 _⟩

/-- Settles O53: byte `k` of the block is byte `rpos + k` of the mailbox. -/
theorem sigReadMovesBytesToMemory : Obligations.SigReadMovesBytesToMemory := by
  intro s cnt p hp hdev hbusy howner hexh hlt c hrange
  have hcheck : p.readCheck .program = none := (p.readCheck_eq_none .program).mpr ⟨hdev, hbusy, howner, hexh, hlt.ne⟩
  have hexec : exec (.sigRead cnt) s =
      .next (((s.setPort s.r0 (p.take c).1).storeBlock s.r1 (p.take c).2).writeSigResult (BitVec.ofNat 16 c)) :=
    exec_sigRead_of_inRange hp hcheck ((s.inRange_iff s.r1 c).mpr hrange)
  have hcnt : cnt.toNat < 256 := cnt.isLt
  have hc : c < 65536 := by simp only [c]; omega
  have htake := Port.take_eq hexh (by omega) c
  have hlength : (p.take c).2.length = c := by
    rw [Port.take_bytes_length, Nat.min_eq_left (Nat.min_le_right _ _)]
  obtain ⟨hregs, hsr, hrest⟩ := State.storeBlock_setPort_kept s s.r0 (p.take c).1 s.r1 (p.take c).2
  obtain ⟨hlr, hflags, hregs, hrest⟩ := State.writeSigResult_count hc hregs hsr hrest
  refine ⟨_, hexec, hlr, hflags, ?port, fun a ha => ?others, fun k hk => ?bytes, fun b hb => ?outside, hregs,
    ?sp, hrest⟩
  case port =>
    rw [State.writeSigResult_portAt, State.storeBlock_portAt, State.setPort_portAt_self hp]
    exact congrArg (fun r => some r.1) htake
  case others => rw [State.writeSigResult_portAt, State.storeBlock_portAt, s.setPort_portAt_of_ne _ ha]
  case bytes =>
    rw [State.writeSigResult_mem, State.storeBlock_mem]
    calc
      _ = (p.take c).2[k]? := Memory.read_writeBytes_get _ _ (hk.trans_eq hlength.symm)
      _ = ((p.data.drop p.rpos).take c)[k]? := by rw [htake]
      _ = p.data[p.rpos + k]? := by rw [List.getElem?_take_of_lt hk, List.getElem?_drop]
  case outside =>
    rw [State.writeSigResult_mem, State.storeBlock_mem]
    exact Memory.read_writeBytes_outside _ (by rwa [hlength])
  case sp => rw [State.writeSigResult_sp, State.storeBlock_sp, State.setPort_sp]

/-- Settles O54: the bytes placed are those of the block, which is not empty exactly when its count is not 0. -/
theorem sigWriteMovesBytesToTheMailbox : Obligations.SigWriteMovesBytesToTheMailbox := by
  intro s cnt p hp hdev hbusy howner c hrange
  have hcheck : p.writeCheck .program = none := (p.writeCheck_eq_none .program).mpr ⟨hdev, hbusy, howner⟩
  have hcnt : cnt.toNat < 256 := cnt.isLt
  have hc : c < 65536 := by simp only [c]; omega
  obtain ⟨hregs, hsr, _, _, hrest⟩ := s.setPort_kept s.r0 (p.place .program (s.loadBlock s.r1 c))
  obtain ⟨hlr, hflags, hregs, hrest⟩ := State.writeSigResult_count hc hregs hsr hrest
  refine ⟨_, exec_sigWrite_of_inRange hp hcheck ((s.inRange_iff s.r1 c).mpr hrange), hlr, hflags, ?port,
    fun a ha => ?others, fun a => ?mem, hregs, ?sp, hrest⟩
  case port =>
    rw [State.writeSigResult_portAt, State.setPort_portAt_self hp]
    exact congrArg some (s.place_loadBlock p .program s.r1 c)
  case others => rw [State.writeSigResult_portAt, s.setPort_portAt_of_ne _ ha]
  case mem => rw [State.writeSigResult_mem, State.setPort_mem]
  case sp => rw [State.writeSigResult_sp, State.setPort_sp]

/-- Settles O55: the rows of the checks in their order, and after them the range check of a block that has a byte. -/
theorem sigFaultsInTheOrderOfItsChecks : Obligations.SigFaultsInTheOrderOfItsChecks := by
  refine ⟨fun s cnt hp i hi => exec_sig_of_no_port hp hi, fun s cnt p hp => ?_⟩
  intro raises
  refine ⟨fun hdev => ⟨?_, ?_, ?_⟩, fun hdev howner => ?_, fun hdev howner hbusy => ?_,
    fun hdev howner hbusy hexh => ?_, fun hdev hbusy => ⟨?_, ?_⟩, fun hdev hbusy howner => ?_,
    fun hdev hbusy howner hexh => ⟨?_, ?_⟩,
    fun hdev hbusy howner hexh hend => ?_, fun hdev hbusy howner hexh hlt hpos hend => ?_, fun hdev hbusy howner => ?_,
    fun hdev hbusy howner hexh => ?_, fun hdev hbusy howner hpos hend => ?_⟩
  · exact exec_sigRelinquish_of_error hp (Port.relinquish_of_unconnected hdev)
  · exact exec_sigRead_of_failed hp (Port.readCheck_of_unconnected hdev)
  · exact exec_sigWrite_of_failed hp (Port.writeCheck_of_unconnected hdev)
  · exact exec_sigRelinquish_of_error hp (Port.relinquish_of_owner_ne hdev howner)
  · exact exec_sigRelinquish_of_error hp (Port.relinquish_of_busy hdev howner hbusy)
  · exact exec_sigRelinquish_of_error hp (Port.relinquish_of_not_exhausted hdev howner hbusy hexh)
  · exact exec_sigRead_of_failed hp (Port.readCheck_of_busy hdev hbusy)
  · exact exec_sigWrite_of_failed hp (Port.writeCheck_of_busy hdev hbusy)
  · exact exec_sigRead_of_failed hp (Port.readCheck_of_owner_ne hdev hbusy howner)
  · exact exec_sigRead_of_failed hp (Port.readCheck_of_exhausted hdev hbusy howner hexh)
  · exact exec_sigWrite_of_failed hp (Port.writeCheck_of_owner_other hdev hbusy howner)
  · exact exec_sigRead_of_failed hp (Port.readCheck_of_read_to_end hdev hbusy howner hexh hend)
  · exact exec_sigRead_of_outOfRange hp
      ((p.readCheck_eq_none .program).mpr ⟨hdev, hbusy, howner, hexh, hlt.ne⟩) (State.inRange_eq_false_of_le hpos hend)
  · exact exec_sigWrite_of_failed hp (Port.writeCheck_of_owner_other hdev hbusy howner)
  · exact exec_sigWrite_of_failed hp (Port.writeCheck_of_exhausted hdev hbusy howner hexh)
  · exact exec_sigWrite_of_outOfRange hp
      ((p.writeCheck_eq_none .program).mpr ⟨hdev, hbusy, howner⟩) (State.inRange_eq_false_of_le hpos hend)

end Sys2Proof.Machine
end

section
/-! PROOFS. The statement about the host's actions (60_exceptions.md R315): each keeps the invariant. A connect and a
disconnect replace one port and one device together, so that both ends go on agreeing (10_state.md R51). -/

namespace Sys2Proof.Machine

/-! ## Both ends of a connection (10_state.md R51) -/

/-- Where port addresses and device names rise, the links are the equivalence of R51. -/
theorem State.linksOk_iff {s : State} (hports : (s.ports.map fun e => e.1).Pairwise (· < ·)) :
    s.LinksOk ↔ (s.devices.map fun e => e.1).Pairwise (· < ·) ∧
      ∀ d a, s.conn d = some a ↔ (s.portAt a).bind Port.dev = some d := by
  constructor
  · intro ⟨hrise, hportEnd, hdeviceEnd⟩
    refine ⟨hrise, fun d a => ⟨fun hconn => ?_, fun hdev => ?_⟩⟩
    · obtain ⟨dev, hdev, ha⟩ := Option.bind_eq_some_iff.mp hconn
      exact hdeviceEnd _ (mem_of_deviceAt hdev) a ha
    · obtain ⟨p, hp, hd⟩ := Option.bind_eq_some_iff.mp hdev
      exact hportEnd _ (mem_of_portAt hp) d hd
  · intro ⟨hrise, hends⟩
    refine ⟨hrise, fun e he d hd => (hends d e.1).mpr ?_, fun e he a ha => (hends e.1 a).mp ?_⟩
    · rw [State.portAt, portAt_of_mem hports he]
      exact hd
    · rw [State.conn, deviceAt_of_mem hrise he]
      exact ha

/-- One port and one device replaced keep the links, when before and after they are connected to nothing but each
other. -/
theorem State.LinksOk.relink {s : State} {d : DeviceId} {a : PortAddr} {p q : Port} {dev newDev : Device}
    (hlinks : s.LinksOk) (hports : (s.ports.map fun e => e.1).Pairwise (· < ·)) (hp : s.portAt a = some p)
    (hdev : deviceAt s.devices d = some dev) (hends : newDev.conn = some a ↔ q.dev = some d)
    (hdevice : ∀ b, b ≠ a → dev.conn ≠ some b ∧ newDev.conn ≠ some b)
    (hport : ∀ e, e ≠ d → p.dev ≠ some e ∧ q.dev ≠ some e) :
    State.LinksOk { s with ports := portSet s.ports a q, devices := deviceSet s.devices d newDev } := by
  obtain ⟨hrise, hold⟩ := (State.linksOk_iff hports).mp hlinks
  refine (State.linksOk_iff ?_).mpr ⟨?_, fun e b => ?_⟩
  · rw [portSet_keys]; exact hports
  · rw [deviceSet_keys]; exact hrise
  obtain ⟨hportSelf, hportOther, hdeviceSelf, hdeviceOther⟩ := portSet_deviceSet_spec hp hdev q newDev
  simp only [State.conn, State.portAt]
  have holdEnds := hold e b
  by_cases he : e = d <;> by_cases hb : b = a
  · subst he hb
    rwa [hdeviceSelf, hportSelf]
  · subst he
    obtain ⟨hbefore, hafter⟩ := hdevice b hb
    rw [State.conn_of_deviceAt hdev] at holdEnds
    rw [hdeviceSelf, hportOther b hb]
    exact iff_of_false hafter (hbefore ∘ holdEnds.mpr)
  · subst hb
    obtain ⟨hbefore, hafter⟩ := hport e he
    rw [hp] at holdEnds
    rw [hdeviceOther e he, hportSelf]
    exact iff_of_false (hbefore ∘ holdEnds.mp) hafter
  · rw [hdeviceOther e he, hportOther b hb]
    exact holdEnds

/-- One port replaced by a sound one of the same capacity keeps the ports' part of the invariant (10_state.md R50). -/
theorem State.PortsOk.set {s : State} {a : PortAddr} {p q : Port} (hports : s.PortsOk) (hp : s.portAt a = some p)
    (hsound : p.Sound → q.Sound) (hcap : q.capacity = p.capacity) (devices : DeviceMap) :
    State.PortsOk { s with ports := portSet s.ports a q, devices := devices } := by
  obtain ⟨hrise, hall⟩ := hports
  refine ⟨by rw [portSet_keys]; exact hrise, fun e he => ?_⟩
  rcases mem_portSet he with ⟨hmem, _⟩ | rfl
  · exact hall e hmem
  · obtain ⟨hpos, hp⟩ := hall _ (mem_of_portAt hp)
    exact ⟨hpos.trans_eq hcap.symm, hsound hp⟩

/-- A port that is sound stays so when a device is connected to it (45_device_port.md R257). -/
theorem Port.connected_sound {p : Port} (h : p.Sound) (d : DeviceId) : ({ p with dev := some d } : Port).Sound := by
  obtain ⟨hbusy, hneutral, _, hexh, hlen⟩ := h
  exact ⟨hbusy, hneutral, fun hdev => absurd hdev (Option.some_ne_none d), hexh, hlen⟩

theorem Port.disconnected_sound (p : Port) : p.disconnected.Sound := by simp [Port.Sound, Port.disconnected]

/-! ## What keeps the invariant -/

theorem State.connect_inv {s t : State} {d : DeviceId} {a : PortAddr} (hinv : s.Inv) (h : s.connect d a = some t) :
    t.Inv := by
  obtain ⟨hmemory, hstatus, hfault, hports, hlinks, hlaunch⟩ := hinv
  obtain ⟨p, dev, hp, hdev, hfree, hunconnected, rfl⟩ := State.connect_eq_some.mp h
  refine ⟨hmemory, hstatus, hfault, hports.set hp (fun hs => Port.connected_sound hs d) rfl _,
    hlinks.relink hports.1 hp hdev ?_ (fun b hb => ?_) fun e he => ?_, hlaunch⟩
  · exact iff_of_true rfl rfl
  · exact ⟨by simp [hunconnected], by simpa using hb.symm⟩
  · exact ⟨by simp [hfree], by simpa using he.symm⟩

theorem State.disconnect_inv {s t : State} {d : DeviceId} (hinv : s.Inv) (h : s.disconnect d = some t) : t.Inv := by
  obtain ⟨hmemory, hstatus, hfault, hports, hlinks, hlaunch⟩ := hinv
  obtain ⟨dev, a, p, hdev, hconn, hp, rfl⟩ := State.disconnect_eq_some.mp h
  have hpdev : p.dev = some d := hlinks.dev_of_conn ((State.conn_of_deviceAt hdev).trans hconn) hp
  refine ⟨hmemory, hstatus, hfault, hports.set hp (fun _ => p.disconnected_sound) rfl _,
    hlinks.relink hports.1 hp hdev ?_ (fun b hb => ?_) fun e he => ?_, hlaunch⟩
  · exact iff_of_false (by simp) (by simp [Port.disconnected])
  · exact ⟨by simpa [hconn] using hb.symm, by simp⟩
  · exact ⟨by simpa [hpdev] using he.symm, by simp [Port.disconnected]⟩

theorem allocatedCapacity_le (n : Nat) (granted : Bool) : allocatedCapacity n granted ≤ Config.maxMemCapacity := by
  rw [allocatedCapacity]
  split
  · next h => exact h.2
  · exact Nat.zero_le _

/-- An allocation lists only bytes of the new memory (70_reset_and_hazards.md R332). -/
theorem State.allocate_inv {s : State} (n : Nat) (granted : Bool) (contents : List Byte) (hinv : s.Inv) :
    (s.allocate n granted contents).Inv := by
  obtain ⟨_, hstatus, hfault, hports, hlinks, _⟩ := hinv
  refine ⟨⟨Memory.writeBytes_wf _ _ rfl, fun c hc => ?_, allocatedCapacity_le n granted⟩, hstatus, hfault, hports,
    hlinks, fun h => ?_⟩
  · rcases Memory.mem_writeBytes hc with hnil | ⟨_, hlt⟩
    · cases hnil
    · rw [List.length_take] at hlt
      simp only [State.allocate]
      omega
  · cases h

/-- An image that fits lists only bytes that exist (70_reset_and_hazards.md R333). -/
theorem State.loadImage_inv {s : State} {words : List Word} (hinv : s.Inv)
    (hfit : Config.imageBase + 2 * words.length ≤ s.memCapacity) : (s.loadImage words).Inv := by
  obtain ⟨⟨hwf, hmem, hcap⟩, hstatus, hfault, hports, hlinks, hlaunch⟩ := hinv
  refine ⟨⟨Memory.writeBytes_wf _ _ hwf, fun c hc => ?_, hcap⟩, hstatus, hfault, hports, hlinks, hlaunch⟩
  rcases Memory.mem_writeBytes hc with hold | ⟨_, hlt⟩
  · exact hmem c hold
  · rw [imageBytes_length] at hlt
    exact hlt.trans_le hfit

theorem State.clearFault_inv {s : State} (hinv : s.Inv) : s.clearFault.Inv := by
  obtain ⟨hmemory, hstatus, _, hports, hlinks, hlaunch⟩ := hinv
  exact ⟨hmemory, hstatus, Nat.zero_le _, hports, hlinks, hlaunch⟩

theorem State.resetCpu_inv {s : State} (hinv : s.Inv) : s.resetCpu.Inv := by
  obtain ⟨hmemory, _, _, hports, hlinks, hlaunch⟩ := hinv
  exact ⟨hmemory, (by decide : (0 : Word).extractLsb' 2 14 = 0), Nat.zero_le _, hports, hlinks, hlaunch⟩

theorem getD_inv {s : State} {o : Option State} (hinv : s.Inv) (h : ∀ t, o = some t → t.Inv) : (o.getD s).Inv := by
  cases o with
  | none => exact hinv
  | some t => exact h t rfl

/-! ## The obligation -/

/-- Settles O17: a tick is a step, and of the other actions each keeps what it writes within the invariant. -/
theorem hostActionsKeepTheInvariant : Obligations.HostActionsKeepTheInvariant := by
  intro a s t hinv h
  cases a with
  | allocate n granted contents =>
    rw [hostAction] at h
    split at h
    · cases h
    · exact Host.Outcome.next.inj h ▸ s.allocate_inv n granted contents hinv
  | loadImage words =>
    rw [hostAction] at h
    split_ifs at h with _ hfit
    exact Host.Outcome.next.inj h ▸ State.loadImage_inv hinv hfit
  | connect d p => exact Host.Outcome.next.inj h ▸ getD_inv hinv fun _ => State.connect_inv hinv
  | disconnect d => exact Host.Outcome.next.inj h ▸ getD_inv hinv fun _ => State.disconnect_inv hinv
  | tick => exact step_inv hinv h
  | clearFault => exact Host.Outcome.next.inj h ▸ State.clearFault_inv hinv
  | reset => exact Host.Outcome.next.inj h ▸ State.resetCpu_inv hinv
  | inspect => exact Host.Outcome.next.inj h ▸ hinv

end Sys2Proof.Machine
end

section
/-! PROOFS. The statements about faults: which instruction raises which code, what else a fault changes, and the ways out
of Faulted (60_exceptions.md R301 to R303, R306, R316, R317). -/

namespace Sys2Proof.Machine

/-! ## The table of codes (R301) -/

/-- The codes that the table lists an instruction for, in its column of who raises them (R301). -/
def faultCodes : Instr → List FaultCode
  | .div _ _ _ | .divs _ _ _ => [.divisionByZero]
  | .ld _ _ _ | .pop _ => [.invalidLoad]
  | .st _ _ _ | .push _ => [.invalidStore]
  | .sigQuery | .sigUsable => [.invalidPort]
  | .sigRelinquish => [.invalidPort, .portNotConnected, .portBusy, .portNotOwned, .portNotExhausted]
  | .sigRead _ => [.invalidStore, .invalidPort, .portNotConnected, .portBusy, .portExhausted, .portNotReadable]
  | .sigWrite _ => [.invalidLoad, .invalidPort, .portNotConnected, .portBusy, .portExhausted, .portNotOwned]
  | _ => []

section PortFailures
variable {p : Port} {side : Side} {reason : PortFail} {cnt : BitVec 8}

theorem faultCode_mem_of_readCheck (h : p.readCheck side = some reason) :
    reason.faultCode ∈ faultCodes (.sigRead cnt) := by
  simp only [Port.readCheck] at h
  split_ifs at h <;> cases h <;> simp [faultCodes, PortFail.faultCode]

theorem faultCode_mem_of_writeCheck (h : p.writeCheck side = some reason) :
    reason.faultCode ∈ faultCodes (.sigWrite cnt) := by
  simp only [Port.writeCheck] at h
  split_ifs at h <;> cases h <;> simp [faultCodes, PortFail.faultCode]

theorem faultCode_mem_of_relinquish (h : p.relinquish side = .error reason) :
    reason.faultCode ∈ faultCodes .sigRelinquish := by
  simp only [Port.relinquish] at h
  split_ifs at h <;> cases h <;> simp [faultCodes, PortFail.faultCode]

end PortFailures

/-! ## What an instruction does to `fault` (R302, R306) -/

/-- Everything an instruction can do to `fault`: nothing, raise one of its codes on the state it started in, or, as a PUSH
or POP, raise its one code after some of its words. -/
inductive FaultEffect (s : State) : Instr → State → Prop
  | kept {i : Instr} {t : State} (h : t.fault = s.fault) : FaultEffect s i t
  | raised {i : Instr} {c : FaultCode} (hc : c ∈ faultCodes i) : FaultEffect s i (s.raise c)
  | pushStopped {mask : BitVec 4} (u : State) : FaultEffect s (.push mask) (u.raise .invalidStore)
  | popStopped {mask : BitVec 4} (u : State) : FaultEffect s (.pop mask) (u.raise .invalidLoad)

theorem exec_push_faultEffect (mask : BitVec 4) (s : State) :
    ∃ t, exec (.push mask) s = .next t ∧ FaultEffect s (.push mask) t := by
  refine ⟨_, exec_push mask s, ?_⟩
  rcases pushRegs_spec (maskRegs mask) s with ⟨_, heq⟩ | ⟨n, _, _, _, heq⟩ <;> rw [heq]
  · exact .kept (by rw [pushedAll_frame])
  · exact .pushStopped _

theorem exec_pop_faultEffect (mask : BitVec 4) (s : State) :
    ∃ t, exec (.pop mask) s = .next t ∧ FaultEffect s (.pop mask) t := by
  refine ⟨_, exec_pop mask s, ?_⟩
  rcases popRegs_spec (maskRegs mask).reverse s with ⟨_, heq⟩ | ⟨n, _, _, _, heq⟩ <;> rw [heq]
  · exact .kept (by rw [poppedAll_frame])
  · exact .popStopped _

theorem exec_sigRelinquish_faultEffect (s : State) :
    ∃ t, exec .sigRelinquish s = .next t ∧ FaultEffect s .sigRelinquish t := by
  cases hp : s.portAt s.r0 with
  | none => exact ⟨_, exec_sig_of_no_port (cnt := 0) hp (by simp), .raised (by simp [faultCodes])⟩
  | some p =>
    cases hrel : p.relinquish .program with
    | error reason => exact ⟨_, exec_sigRelinquish_of_error hp hrel, .raised (faultCode_mem_of_relinquish hrel)⟩
    | ok q => exact ⟨_, exec_sigRelinquish_of_ok hp hrel, .kept rfl⟩

theorem exec_sigRead_faultEffect (cnt : BitVec 8) (s : State) :
    ∃ t, exec (.sigRead cnt) s = .next t ∧ FaultEffect s (.sigRead cnt) t := by
  cases hp : s.portAt s.r0 with
  | none => exact ⟨_, exec_sig_of_no_port (cnt := cnt) hp (by simp), .raised (by simp [faultCodes])⟩
  | some p =>
    cases hcheck : p.readCheck .program with
    | some reason => exact ⟨_, exec_sigRead_of_failed hp hcheck, .raised (faultCode_mem_of_readCheck hcheck)⟩
    | none =>
      cases hrange : s.inRange s.r1 (p.readCount cnt.toNat) with
      | false => exact ⟨_, exec_sigRead_of_outOfRange hp hcheck hrange, .raised (by simp [faultCodes])⟩
      | true => exact ⟨_, exec_sigRead_of_inRange hp hcheck hrange, .kept (State.writeSigResult_fault _ _)⟩

theorem exec_sigWrite_faultEffect (cnt : BitVec 8) (s : State) :
    ∃ t, exec (.sigWrite cnt) s = .next t ∧ FaultEffect s (.sigWrite cnt) t := by
  cases hp : s.portAt s.r0 with
  | none => exact ⟨_, exec_sig_of_no_port (cnt := cnt) hp (by simp), .raised (by simp [faultCodes])⟩
  | some p =>
    cases hcheck : p.writeCheck .program with
    | some reason => exact ⟨_, exec_sigWrite_of_failed hp hcheck, .raised (faultCode_mem_of_writeCheck hcheck)⟩
    | none =>
      cases hrange : s.inRange s.r1 (p.writeCount cnt.toNat) with
      | false => exact ⟨_, exec_sigWrite_of_outOfRange hp hcheck hrange, .raised (by simp [faultCodes])⟩
      | true => exact ⟨_, exec_sigWrite_of_inRange hp hcheck hrange, .kept (State.writeSigResult_fault _ _)⟩

/-- Every instruction completes, and its fault, if it raises one, is one of its own. -/
theorem exec_faultEffect (i : Instr) (s : State) : ∃ t, exec i s = .next t ∧ FaultEffect s i t := by
  cases i with
  | nop | spset r => exact ⟨_, rfl, .kept rfl⟩
  | asgn rs rd lit | spget r => exact ⟨_, rfl, .kept (s.setX_fault _ _)⟩
  | add rs rd lit | sub rs rd lit | mul rs rd lit | muls rs rd lit | shft rs rd amt | bitAnd rs rd idx
  | bitOr rs rd idx | bitXor rs rd idx | bitNot rs rd => exact ⟨_, rfl, .kept (s.writeResult_fault _ _ _)⟩
  | div rs rd lit =>
    by_cases hzero : s.operand rs rd (literal7 lit) = 0
    · exact ⟨_, exec_div_of_eq hzero, .raised (by simp [faultCodes])⟩
    · exact ⟨_, exec_div_of_ne hzero, .kept (s.writeResult_fault _ _ _)⟩
  | divs rs rd lit =>
    by_cases hzero : s.operand rs rd (literalSigned7 lit) = 0
    · exact ⟨_, exec_divs_of_eq hzero, .raised (by simp [faultCodes])⟩
    · exact ⟨_, exec_divs_of_ne hzero, .kept (s.writeResult_fault _ _ _)⟩
  | cbx lnk cond neg off =>
    by_cases hcond : s.condHolds cond neg = true
    · obtain ⟨t, hexec, _, _, _, _, _, _, _, _, hfault, _⟩ := exec_cbx_taken_spec (lnk := lnk) (off := off) hcond
      exact ⟨t, hexec, .kept hfault⟩
    · exact ⟨s, exec_cbx_of_not_condHolds hcond, .kept rfl⟩
  | ld rb rt off =>
    rcases Nat.lt_or_ge ((s.effectiveAddress rb off).toNat + 1) s.memCapacity with hfit | hmisfit
    · exact ⟨_, exec_ld_of_lt hfit, .kept (s.setX_fault _ _)⟩
    · exact ⟨_, exec_ld_of_le hmisfit, .raised (by simp [faultCodes])⟩
  | st rb rt off =>
    rcases Nat.lt_or_ge ((s.effectiveAddress rb off).toNat + 1) s.memCapacity with hfit | hmisfit
    · exact ⟨_, exec_st_of_lt rt hfit, .kept rfl⟩
    · exact ⟨_, exec_st_of_le hmisfit, .raised (by simp [faultCodes])⟩
  | push mask => exact exec_push_faultEffect mask s
  | pop mask => exact exec_pop_faultEffect mask s
  | sigQuery =>
    cases hp : s.portAt s.r0 with
    | none => exact ⟨_, exec_sig_of_no_port (cnt := 0) hp (by simp), .raised (by simp [faultCodes])⟩
    | some p => exact ⟨_, exec_sigQuery_of_port hp, .kept (s.writeSigResult_fault _)⟩
  | sigUsable =>
    cases hp : s.portAt s.r0 with
    | none => exact ⟨_, exec_sig_of_no_port (cnt := 0) hp (by simp), .raised (by simp [faultCodes])⟩
    | some p => exact ⟨_, exec_sigUsable_of_port hp, .kept (s.writeSigResult_fault _)⟩
  | sigRelinquish => exact exec_sigRelinquish_faultEffect s
  | sigRead cnt => exact exec_sigRead_faultEffect cnt s
  | sigWrite cnt => exact exec_sigWrite_faultEffect cnt s

/-- The inversion of `exec` for `fault`. -/
theorem faultEffect_of_exec {i : Instr} {s t : State} (h : exec i s = .next t) : FaultEffect s i t := by
  obtain ⟨u, hu, heffect⟩ := exec_faultEffect i s
  obtain rfl : u = t := Host.Outcome.next.inj (hu.symm.trans h)
  exact heffect

/-- An instruction that changes `fault` leaves one of its own codes there. -/
theorem FaultEffect.exists_code {i : Instr} {s t : State} (h : FaultEffect s i t) (hne : t.fault ≠ s.fault) :
    ∃ c ∈ faultCodes i, t.fault = c.code := by
  cases h with
  | kept heq => exact absurd heq hne
  | raised hc => exact ⟨_, hc, rfl⟩
  | pushStopped u => exact ⟨.invalidStore, List.mem_singleton_self _, rfl⟩
  | popStopped u => exact ⟨.invalidLoad, List.mem_singleton_self _, rfl⟩

/-! ## `fault` and the devices' part of a tick (40_step.md R150, R151) -/

theorem State.settle_clearFault (s : State) : s.clearFault.settle = s.settle.clearFault := rfl

theorem State.pollDevice_clearFault (s : State) (d : DeviceId) (calls : List DeviceCall) :
    (s.clearFault.pollDevice d calls).1 = (s.pollDevice d calls).1.clearFault := by
  simp only [State.pollDevice, State.clearFault_devices, State.portAt, State.clearFault_ports]
  split
  · rfl
  · split
    · rfl
    · split <;> rfl

theorem State.pollAll_clearFault (round : PollRound) (s : State) :
    s.clearFault.pollAll round = (s.pollAll round).clearFault := by
  induction round generalizing s with
  | nil => rfl
  | cons e rest ih => rw [State.pollAll, State.pollDevice_clearFault, ih, State.pollAll]

theorem State.pollPhase_clearFault (s : State) : s.clearFault.pollPhase = s.pollPhase.clearFault := by
  rw [State.pollPhase, State.pollPhase, apply_ite State.clearFault]
  exact if_congr Iff.rfl rfl (s.pollAll_clearFault _)

/-! ## A word that decodes to `Invalid` (R303) -/

theorem execWord_of_decode_error {w : Word} {r : Reject} (hdecode : decode w = .error r) (s : State) :
    execWord w s = .next (s.raise .invalidInstruction) := by
  rw [execWord, hdecode]

/-! ## The obligations -/

/-- Settles O8: the code of INVALID_INSTRUCTION is 4. -/
theorem invalidWordOnlyRaisesInvalidInstruction : Obligations.InvalidWordOnlyRaisesInvalidInstruction :=
  fun _ _ s hdecode => execWord_of_decode_error hdecode s

/-- Settles O19: with `fault` cleared the CPU is Running, and the devices, which do not see `fault`, leave the ports as
they would have. -/
theorem clearFaultAndResetLeaveFaulted : Obligations.ClearFaultAndResetLeaveFaulted := by
  refine fun s => ⟨rfl, ?_, rfl⟩
  intro halloc hfit w
  have hword : s.clearFault.readWord s.pc.toNat = some w := State.readWord_of_lt hfit
  have hports : s.clearFault.settle.pollPhase.ports = s.settle.pollPhase.ports := by
    rw [State.settle_clearFault, State.pollPhase_clearFault, State.clearFault_ports]
  have hstep := step_of_readWord (s := s.clearFault) halloc rfl hword
  rwa [hports] at hstep

/-- Settles O56: only PUSH and POP raise their code on another state than the one they started in. -/
theorem faultsArePreciseButForPushAndPop : Obligations.FaultsArePreciseButForPushAndPop := by
  intro i s t hrun hother hexec hfault
  cases faultEffect_of_exec hexec with
  | kept heq => exact absurd (heq.trans hrun) hfault
  | raised hc => rfl
  | @pushStopped mask u => exact absurd rfl (hother mask).1
  | @popStopped mask u => exact absurd rfl (hother mask).2

/-- Settles O57: the codes of `faultCodes` by their numbers. -/
theorem instructionsRaiseOnlyTheirCodes : Obligations.InstructionsRaiseOnlyTheirCodes := by
  intro i s t hexec hne
  obtain ⟨c, hc, hfault⟩ := (faultEffect_of_exec hexec).exists_code hne
  have hnumber : c.code.toNat ∈ (faultCodes i).map fun c => c.code.toNat := List.mem_map_of_mem hc
  rw [hfault]
  cases i <;> exact hnumber

end Sys2Proof.Machine
end

section
/-! PROOFS. The statement about the instructions that are no SIG and the ports (60_exceptions.md R305; 10_state.md R57):
with other ports in their place such an instruction does the same. -/

namespace Sys2Proof.Machine

/-! ## Other ports in their place -/

/-- The same machine with other ports. -/
def State.withPorts (s : State) (ports : PortMap) : State := { s with ports := ports }

section
variable (s : State) (ports : PortMap)

theorem State.withPorts_sp : (s.withPorts ports).sp = s.sp := rfl

theorem State.withPorts_x (r : Reg) : (s.withPorts ports).x r = s.x r := by cases r <;> rfl

theorem State.setX_withPorts (r : Reg) (v : Word) : (s.withPorts ports).setX r v = (s.setX r v).withPorts ports := by
  cases r <;> rfl

theorem State.writeResult_withPorts (rd : Reg) (v : Word) (ov : Bool) :
    (s.withPorts ports).writeResult rd v ov = (s.writeResult rd v ov).withPorts ports := by
  rw [State.writeResult, State.setX_withPorts]
  rfl

theorem State.loadWord_withPorts (ea : Word) : (s.withPorts ports).loadWord ea = s.loadWord ea := rfl

theorem State.storeWord_withPorts (ea w : Word) :
    (s.withPorts ports).storeWord ea w = (s.storeWord ea w).map fun t => t.withPorts ports := by
  rcases s.storeWord_spec ea w with ⟨hfit, hs⟩ | ⟨hmisfit, hs⟩ <;> rw [hs]
  · exact State.writeWord_of_lt w hfit
  · exact State.writeWord_of_le w hmisfit

end

theorem pushRegs_withPorts (regs : List Reg) (s : State) (ports : PortMap) :
    pushRegs regs (s.withPorts ports) = (pushRegs regs s).withPorts ports := by
  induction regs generalizing s with
  | nil => rfl
  | cons r rest ih =>
    simp only [pushRegs, State.withPorts_x, State.withPorts_sp, State.storeWord_withPorts]
    cases s.storeWord (s.sp - 2#16) (s.x r) with
    | none => rfl
    | some t => exact ih (t.setSp (s.sp - 2#16))

theorem popRegs_withPorts (regs : List Reg) (s : State) (ports : PortMap) :
    popRegs regs (s.withPorts ports) = (popRegs regs s).withPorts ports := by
  induction regs generalizing s with
  | nil => rfl
  | cons r rest ih =>
    simp only [popRegs, State.withPorts_sp, State.loadWord_withPorts, State.setX_withPorts]
    cases s.loadWord s.sp with
    | none => rfl
    | some v => exact ih ((s.setX r v).setSp (s.sp + 2#16))

/-- Every instruction that is no SIG does the same with other ports, and leaves them. -/
theorem exec_withPorts {i : Instr} (s : State) (ports : PortMap)
    (hnotSig : i ≠ .sigQuery ∧ i ≠ .sigUsable ∧ i ≠ .sigRelinquish ∧ ∀ cnt, i ≠ .sigRead cnt ∧ i ≠ .sigWrite cnt) :
    ∃ t, exec i s = .next t ∧ exec i (s.withPorts ports) = .next (t.withPorts ports) := by
  obtain ⟨hquery, husable, hrelinquish, htransfer⟩ := hnotSig
  cases i with
  | nop | spset r => exact ⟨_, rfl, rfl⟩
  | asgn rs rd lit | spget r => exact ⟨_, rfl, congrArg _ (s.setX_withPorts ports _ _)⟩
  | add rs rd lit | sub rs rd lit | mul rs rd lit | muls rs rd lit | shft rs rd amt | bitAnd rs rd idx
  | bitOr rs rd idx | bitXor rs rd idx | bitNot rs rd =>
    exact ⟨_, rfl, congrArg _ (s.writeResult_withPorts ports _ _ _)⟩
  | div rs rd lit =>
    by_cases hzero : s.operand rs rd (literal7 lit) = 0
    · exact ⟨_, exec_div_of_eq hzero, exec_div_of_eq hzero⟩
    · exact ⟨_, exec_div_of_ne hzero,
        (exec_div_of_ne (s := s.withPorts ports) hzero).trans (congrArg _ (s.writeResult_withPorts ports _ _ _))⟩
  | divs rs rd lit =>
    by_cases hzero : s.operand rs rd (literalSigned7 lit) = 0
    · exact ⟨_, exec_divs_of_eq hzero, exec_divs_of_eq hzero⟩
    · exact ⟨_, exec_divs_of_ne hzero,
        (exec_divs_of_ne (s := s.withPorts ports) hzero).trans (congrArg _ (s.writeResult_withPorts ports _ _ _))⟩
  | cbx lnk cond neg off =>
    by_cases hcond : s.condHolds cond neg = true
    · refine ⟨_, exec_cbx_of_condHolds hcond, (exec_cbx_of_condHolds (s := s.withPorts ports) hcond).trans ?_⟩
      cases lnk <;> rfl
    · exact ⟨s, exec_cbx_of_not_condHolds hcond, exec_cbx_of_not_condHolds hcond⟩
  | ld rb rt off =>
    rcases Nat.lt_or_ge ((s.effectiveAddress rb off).toNat + 1) s.memCapacity with hfit | hmisfit
    · exact ⟨_, exec_ld_of_lt hfit,
        (exec_ld_of_lt (s := s.withPorts ports) hfit).trans (congrArg _ (s.setX_withPorts ports _ _))⟩
    · exact ⟨_, exec_ld_of_le hmisfit, exec_ld_of_le hmisfit⟩
  | st rb rt off =>
    rcases Nat.lt_or_ge ((s.effectiveAddress rb off).toNat + 1) s.memCapacity with hfit | hmisfit
    · exact ⟨_, exec_st_of_lt rt hfit, exec_st_of_lt rt hfit⟩
    · exact ⟨_, exec_st_of_le hmisfit, exec_st_of_le hmisfit⟩
  | push mask => exact ⟨_, exec_push mask s, congrArg _ (pushRegs_withPorts _ s ports)⟩
  | pop mask => exact ⟨_, exec_pop mask s, congrArg _ (popRegs_withPorts _ s ports)⟩
  | sigQuery => exact absurd rfl hquery
  | sigUsable => exact absurd rfl husable
  | sigRelinquish => exact absurd rfl hrelinquish
  | sigRead cnt => exact absurd rfl (htransfer cnt).1
  | sigWrite cnt => exact absurd rfl (htransfer cnt).2

/-! ## The obligation -/

/-- Settles O59: what an instruction that is no SIG does commutes with putting other ports in place. -/
theorem onlySigSeesThePorts : Obligations.OnlySigSeesThePorts := by
  intro i s t ports hnotSig hexec
  obtain ⟨u, hu, hother⟩ := exec_withPorts s ports hnotSig
  obtain rfl : u = t := Host.Outcome.next.inj (hu.symm.trans hexec)
  exact hother

end Sys2Proof.Machine
end

section
/-! PROOFS. The statements about the launch (70_reset_and_hazards.md R330 to R333, R336; 45_device_port.md R257). The
devices are connected one by one, and between two connects the launch premises hold with the pairs connected so far. -/

namespace Sys2Proof.Machine

/-! ## The turn of an allocation and of an image load (R330, R332, R333) -/

theorem hostAction_allocate {s : State} (n : Nat) (granted : Bool) (contents : List Byte) (halloc : s.allocated = false)
    (hticks : s.ticks = 0) : hostAction (.allocate n granted contents) s = .next (s.allocate n granted contents) := by
  rw [hostAction, if_neg]
  simp [halloc, hticks]

theorem hostAction_allocate_outOfTurn {s : State} (n : Nat) (granted : Bool) (contents : List Byte)
    (h : s.allocated = true ∨ s.ticks ≠ 0) :
    hostAction (.allocate n granted contents) s = .refused .allocationOutOfTurn :=
  if_pos h

theorem hostAction_loadImage {s : State} {image : List Word} (halloc : s.allocated = true) (hticks : s.ticks = 0)
    (hfit : Config.imageBase + 2 * image.length ≤ s.memCapacity) :
    hostAction (.loadImage image) s = .next (s.loadImage image) := by
  rw [hostAction, if_neg (by simp [halloc, hticks]), if_pos hfit]

/-! ## Memory after the allocation and the load (R332, R333) -/

theorem allocatedCapacity_of_le {n : Nat} (h : n ≤ Config.maxMemCapacity) : allocatedCapacity n true = n :=
  if_pos ⟨rfl, h⟩

/-- A byte of the new memory is the one the environment gave at its address (20_memory.md R89). -/
theorem State.read_allocate {s : State} {n a : Nat} {granted : Bool} {contents : List Byte} {b : Byte}
    (ha : a < allocatedCapacity n granted) (hb : contents[a]? = some b) :
    (s.allocate n granted contents).mem.read a = b := by
  have htake : (contents.take (allocatedCapacity n granted))[a]? = some b := by
    rw [List.getElem?_take_of_lt ha, hb]
  obtain ⟨hlt, _⟩ := List.getElem?_eq_some_iff.mp htake
  simp only [State.allocate]
  rw [Memory.read_writeBytes, if_pos ⟨Nat.zero_le a, by omega⟩, Nat.sub_zero, htake, Option.getD_some]

/-- A byte of an image, loaded at its own index: the image lies at address 0 (20_memory.md R83). -/
theorem State.read_loadImage {s : State} {image : List Word} {a : Nat} {b : Byte}
    (h : (imageBytes image)[a]? = some b) : (s.loadImage image).mem.read a = b := by
  obtain ⟨hlt, _⟩ := List.getElem?_eq_some_iff.mp h
  simp only [State.loadImage, Config.imageBase]
  rw [Memory.read_writeBytes, if_pos ⟨Nat.zero_le a, by omega⟩, Nat.sub_zero, h, Option.getD_some]

theorem State.read_loadImage_outside {s : State} {image : List Word} {a : Nat} (h : 2 * image.length ≤ a) :
    (s.loadImage image).mem.read a = s.mem.read a := by
  simp only [State.loadImage, Config.imageBase]
  rw [Memory.read_writeBytes, imageBytes_length, if_neg (by omega)]

/-- An image that fits can be read back word by word: `LP_IMAGE`. -/
theorem State.loadImage_launchImage {s : State} {image : List Word} (hfit : 2 * image.length ≤ s.memCapacity) :
    (s.loadImage image).LaunchImage image := by
  intro k w hw
  obtain ⟨hk, _⟩ := List.getElem?_eq_some_iff.mp hw
  obtain ⟨hlow, hhigh⟩ := imageBytes_get hw
  have hin : 2 * k + 1 < (s.loadImage image).memCapacity := by simp only [State.loadImage]; omega
  rw [Config.imageBase, Nat.zero_add, State.readWord_of_lt hin, State.read_loadImage hlow, State.read_loadImage hhigh,
    wordOfBytes_bytes]

/-! ## Nothing is connected to a created Mainboard (R330) -/

theorem State.created_conn (ports : List (PortAddr × Nat)) (devices : List (DeviceId × Nat)) (d : DeviceId) :
    (State.created ports devices).conn d = none := by
  rw [State.conn, Option.bind_eq_none_iff]
  intro dev hdev
  obtain ⟨c, _, hc⟩ := List.mem_map.mp (mem_of_deviceAt hdev)
  obtain ⟨-, rfl⟩ := Prod.mk.inj hc
  rfl

theorem State.created_port_dev (ports : List (PortAddr × Nat)) (devices : List (DeviceId × Nat)) (a : PortAddr) :
    ((State.created ports devices).portAt a).bind Port.dev = none := by
  rw [Option.bind_eq_none_iff]
  intro p hp
  obtain ⟨c, _, hc⟩ := State.mem_created_ports (mem_of_portAt hp)
  obtain ⟨-, rfl⟩ := Prod.mk.inj hc
  rfl

theorem State.created_launchPorts (ports : List (PortAddr × Nat)) (devices : List (DeviceId × Nat)) :
    (State.created ports devices).LaunchPorts ports devices [] := by
  refine ⟨fun e he => ?_, ?_, ?_, fun d a => ⟨?_, ?_⟩⟩
  · obtain ⟨c, _, rfl⟩ := State.mem_created_ports he
    rfl
  · simp [State.created, Port.initial, Function.comp_def]
  · simp [State.created, Function.comp_def]
  · simp [State.created_conn]
  · simp [State.created_port_dev]

/-! ## Maps with one entry replaced -/

/-- What the old and the new port agree on is read from the replaced map as before. -/
theorem portSet_map_eq {β : Type} {ports : PortMap} {a : PortAddr} {p q : Port} {f : PortAddr × Port → β}
    (hrise : (ports.map fun e => e.1).Pairwise (· < ·)) (hp : portAt ports a = some p) (hf : f (a, q) = f (a, p)) :
    (portSet ports a q).map f = ports.map f := by
  rw [portSet, List.map_map]
  refine List.map_congr_left fun e he => ?_
  rw [Function.comp_apply]
  split
  · next hea =>
    subst hea
    obtain rfl : e.2 = p := Option.some.inj ((portAt_of_mem hrise he).symm.trans hp)
    exact hf
  · rfl

theorem deviceSet_map_eq {β : Type} {devices : DeviceMap} {d : DeviceId} {dev newDev : Device}
    {f : DeviceId × Device → β} (hrise : (devices.map fun e => e.1).Pairwise (· < ·))
    (hdev : deviceAt devices d = some dev) (hf : f (d, newDev) = f (d, dev)) :
    (deviceSet devices d newDev).map f = devices.map f := by
  rw [deviceSet, List.map_map]
  refine List.map_congr_left fun e he => ?_
  rw [Function.comp_apply]
  split
  · next hed =>
    subst hed
    obtain rfl : e.2 = dev := Option.some.inj ((deviceAt_of_mem hrise he).symm.trans hdev)
    exact hf
  · rfl

/-! ## Connecting the devices (R330, R336; 45_device_port.md R257) -/

section Connecting
variable {ports : List (PortAddr × Nat)} {devices : List (DeviceId × Nat)}

theorem State.LaunchPorts.portKeys {s : State} {connection : List (DeviceId × PortAddr)}
    (hlaunch : s.LaunchPorts ports devices connection) : s.ports.map (fun e => e.1) = ports.map fun e => e.1 := by
  obtain ⟨_, hcaps, _, _⟩ := hlaunch
  simp [← hcaps, Function.comp_def]

theorem State.LaunchPorts.deviceKeys {s : State} {connection : List (DeviceId × PortAddr)}
    (hlaunch : s.LaunchPorts ports devices connection) :
    s.devices.map (fun e => e.1) = devices.map fun e => e.1 := by
  obtain ⟨_, _, hspeeds, _⟩ := hlaunch
  simp [← hspeeds, Function.comp_def]

/-- The ports of a launch state are the ones named, so one that no pair names is there and free. -/
theorem State.LaunchPorts.exists_free_port {s : State} {done : List (DeviceId × PortAddr)} {a : PortAddr}
    (hlaunch : s.LaunchPorts ports devices done) (hrise : (s.ports.map fun e => e.1).Pairwise (· < ·))
    (ha : a ∈ s.ports.map fun e => e.1) (hnew : ∀ d, (d, a) ∉ done) : ∃ p, s.portAt a = some p ∧ p.dev = none := by
  obtain ⟨_, _, _, hends⟩ := hlaunch
  obtain ⟨e, he, rfl⟩ := List.mem_map.mp ha
  have hp : s.portAt e.1 = some e.2 := portAt_of_mem hrise he
  refine ⟨e.2, hp, Option.eq_none_iff_forall_ne_some.mpr fun d hd => hnew d ((hends d e.1).2.mp ?_)⟩
  rw [hp, Option.bind_some, hd]

theorem State.LaunchPorts.exists_free_device {s : State} {done : List (DeviceId × PortAddr)} {d : DeviceId}
    (hlaunch : s.LaunchPorts ports devices done) (hrise : (s.devices.map fun e => e.1).Pairwise (· < ·))
    (hd : d ∈ s.devices.map fun e => e.1) (hnew : ∀ a, (d, a) ∉ done) :
    ∃ dev, deviceAt s.devices d = some dev ∧ dev.conn = none := by
  obtain ⟨_, _, _, hends⟩ := hlaunch
  obtain ⟨e, he, rfl⟩ := List.mem_map.mp hd
  have hdev : deviceAt s.devices e.1 = some e.2 := deviceAt_of_mem hrise he
  refine ⟨e.2, hdev, Option.eq_none_iff_forall_ne_some.mpr fun a ha => hnew a ((hends e.1 a).1.mp ?_)⟩
  rw [State.conn_of_deviceAt hdev, ha]

/-- A free port and an unconnected device linked: the premises hold with this pair besides the others. -/
theorem State.LaunchPorts.link {s : State} {done : List (DeviceId × PortAddr)} {d : DeviceId} {a : PortAddr} {p : Port}
    {dev : Device} (hlaunch : s.LaunchPorts ports devices done)
    (hports : (s.ports.map fun e => e.1).Pairwise (· < ·)) (hdevices : (s.devices.map fun e => e.1).Pairwise (· < ·))
    (hp : s.portAt a = some p) (hdev : deviceAt s.devices d = some dev) (hdnew : ∀ b, (d, b) ∉ done)
    (hanew : ∀ e, (e, a) ∉ done) :
    State.LaunchPorts { s with
      ports := portSet s.ports a { p with dev := some d }
      devices := deviceSet s.devices d { dev with conn := some a } } ports devices (done ++ [(d, a)]) := by
  obtain ⟨hneutral, hcaps, hspeeds, hends⟩ := hlaunch
  have hpneutral : p.phase = some .neutral := hneutral _ (mem_of_portAt hp)
  obtain ⟨hportSelf, hportOther, hdeviceSelf, hdeviceOther⟩ :=
    portSet_deviceSet_spec hp hdev { p with dev := some d } { dev with conn := some a }
  refine ⟨fun e he => ?_, (portSet_map_eq hports hp (by rfl)).trans hcaps,
    (deviceSet_map_eq hdevices hdev (by rfl)).trans hspeeds, fun e b => ⟨?_, ?_⟩⟩
  · rcases mem_portSet he with ⟨hmem, _⟩ | rfl
    · exact hneutral e hmem
    · exact hpneutral
  · rw [State.conn]
    by_cases he : e = d
    · subst he
      rw [hdeviceSelf]
      simp [hdnew, eq_comm]
    · rw [hdeviceOther e he, ← State.conn, (hends e b).1]
      simp [he]
  · rw [State.portAt]
    by_cases hb : b = a
    · subst hb
      rw [hportSelf]
      simp [hanew, eq_comm]
    · rw [hportOther b hb, (hends e b).2]
      simp [hb]

/-- One more pair connected: both its ends exist and no pair connected before has either. -/
theorem State.LaunchPorts.connect {s : State} {done : List (DeviceId × PortAddr)} {d : DeviceId} {a : PortAddr}
    (hlaunch : s.LaunchPorts ports devices done) (hports : (ports.map fun e => e.1).Pairwise (· < ·))
    (hdevices : (devices.map fun e => e.1).Pairwise (· < ·)) (hd : d ∈ devices.map fun e => e.1)
    (ha : a ∈ ports.map fun e => e.1) (hdnew : ∀ b, (d, b) ∉ done) (hanew : ∀ e, (e, a) ∉ done) :
    ∃ t, hostAction (.connect d a) s = .next t ∧ t = { s with ports := t.ports, devices := t.devices } ∧
      t.LaunchPorts ports devices (done ++ [(d, a)]) := by
  rw [← hlaunch.portKeys] at hports ha
  rw [← hlaunch.deviceKeys] at hdevices hd
  obtain ⟨p, hp, hfree⟩ := hlaunch.exists_free_port hports ha hanew
  obtain ⟨dev, hdev, hunconnected⟩ := hlaunch.exists_free_device hdevices hd hdnew
  exact ⟨_, hostAction_connect_of_some (State.connect_eq_some.mpr ⟨p, dev, hp, hdev, hfree, hunconnected, rfl⟩), rfl,
    hlaunch.link hports hdevices hp hdev hdnew hanew⟩

/-- Connecting pairs in turn, after some were connected: all of them together are one-to-one. -/
theorem State.LaunchPorts.connectAll {s : State} {done todo : List (DeviceId × PortAddr)}
    (hlaunch : s.LaunchPorts ports devices done) (hports : (ports.map fun e => e.1).Pairwise (· < ·))
    (hdevices : (devices.map fun e => e.1).Pairwise (· < ·)) (hconnects : Connects ports devices (done ++ todo)) :
    ∃ u, hostActions (todo.map fun c => .connect c.1 c.2) s = some u ∧
      u = { s with ports := u.ports, devices := u.devices } ∧ u.LaunchPorts ports devices (done ++ todo) := by
  induction todo generalizing s done with
  | nil => exact ⟨s, rfl, rfl, by rwa [List.append_nil]⟩
  | cons c rest ih =>
    have ⟨hdistinctDevices, hdistinctPorts, hexist⟩ := hconnects
    obtain ⟨hd, ha⟩ := hexist c (by simp)
    rw [List.map_append, List.map_cons, List.nodup_middle, List.nodup_cons] at hdistinctDevices hdistinctPorts
    obtain ⟨t, hnext, hframe, ht⟩ := hlaunch.connect hports hdevices hd ha
      (fun b hmem => hdistinctDevices.1 (List.mem_append_left _ (List.mem_map.mpr ⟨_, hmem, rfl⟩)))
      (fun e hmem => hdistinctPorts.1 (List.mem_append_left _ (List.mem_map.mpr ⟨_, hmem, rfl⟩)))
    rw [List.append_cons] at hconnects ⊢
    obtain ⟨u, hactions, huframe, hu⟩ := ih ht hconnects
    refine ⟨u, ?_, ?_, hu⟩
    · rw [List.map_cons, hostActions_cons hnext, hactions]
    · rw [huframe, hframe]

end Connecting

/-! ## The obligations -/

/-- Settles O22: an allocation in its turn is granted or gives no memory. -/
theorem allocationHappensOnce : Obligations.AllocationHappensOnce := by
  intro s n granted contents
  refine ⟨hostAction_allocate_outOfTurn n granted contents, fun halloc hticks => ?_⟩
  exact ⟨_, hostAction_allocate n granted contents halloc hticks, rfl, rfl⟩

/-- Settles O21: allocation and load write memory only, so the ports are those of the created Mainboard; connecting goes
pair by pair. -/
theorem launchMeetsItsPremises : Obligations.LaunchMeetsItsPremises := by
  intro ports devices n contents image hn hfit
  have hcap : allocatedCapacity n true = n := allocatedCapacity_of_le hn
  have hfits : 2 * image.length ≤ allocatedCapacity n true := hfit.trans_eq hcap.symm
  have hlaunch : (((State.created ports devices).allocate n true contents).loadImage image).LaunchPorts
      ports devices [] := State.created_launchPorts ports devices
  refine ⟨_, _, hostAction_allocate n true contents rfl rfl,
    hostAction_loadImage rfl rfl (by rwa [Config.imageBase, Nat.zero_add]), ⟨rfl, hcap, hn⟩,
    State.loadImage_launchImage hfits, ⟨rfl, rfl, rfl, rfl, rfl, rfl, rfl, rfl⟩, hlaunch, rfl, rfl,
    fun a b houtside ha hb => ?_, fun connection => hlaunch.connectAll⟩
  rw [State.read_loadImage_outside houtside, State.read_allocate (ha.trans_eq hcap.symm) hb]

end Sys2Proof.Machine
end
